-- ==== Sys2Proof/Word.lean ====
section
/-! DEFINITION. The widths of the block's values (spec/00_scope.md R10, R11, R12; spec/30_encoding.md R85). -/

namespace Sys2Proof

/-- `u8`, one byte of ring storage or of an I/Q payload (R10). -/
abbrev Byte := BitVec 8

/-- `u32` (R10). -/
abbrev U32 := BitVec 32

/-- `u64`, the width of the ring counters (R8 `CTR_W`). -/
abbrev U64 := BitVec 64

/-- `i16`, a two's-complement output sample (R10, R64). -/
abbrev I16 := BitVec 16

/-- An IEEE 754 binary32 value, held as its encoding: sign bit 31, exponent 30:23, fraction 22:0 (R65). -/
abbrev F32 := BitVec 32

/-- An IEEE 754 binary64 value, held as its encoding (R11). -/
abbrev F64 := BitVec 64

/-- A complex binary32 value, real part first (R12, R65). -/
structure CF32 where
  re : F32
  im : F32
deriving DecidableEq, Repr, Inhabited

end Sys2Proof
end

