-- ==== Sys2Proof/Config.lean ====
section
/-! DEFINITION. What an implementation of the block fixes (spec/00_scope.md R8) and the values the spec leaves
open. A parameter that is plain data stands in `Params`, which the machine's state carries and no command writes;
a parameter that is a function, and every free value, is an opaque constant, of which nothing can be proved. -/

namespace Sys2Proof

/-- How a port turns a sample into two bytes, `PCM_BYTE_ORDER` (R8, R64). -/
inductive ByteOrder where
  | little
  | big
deriving DecidableEq, Repr, Inhabited

/-- Which numerics functions `ATAN2`, `EXP`, `LOG10` and `COS` the block has (R8, decision D6): the reference, which
is correctly rounded, or an implementation's own, of which only what the spec says of every choice is known. -/
inductive Numerics where
  | reference
  | implementation
deriving DecidableEq, Repr, Inhabited

/-- The parameters of R8 that are plain data. They are fixed for a machine: no command and no reset writes them. -/
structure Params where
  /-- `RING_MAX_LOG2`, an integer in [0, 63] (decision D12). -/
  ringMaxLog2 : Fin 64
  /-- `FFT_N_MAX`, an integer at least 1 (decision D19). -/
  fftNMax : Nat
  /-- `PCM_BYTE_ORDER` (decision D25). -/
  pcmByteOrder : ByteOrder
  /-- `IQ_OFFSET` (decision D34). -/
  iqOffset : F32
  /-- `IQ_SCALE` (decision D34). -/
  iqScale : F32
  /-- `GAIN` (decision D34). -/
  gain : F32
  /-- `TAU` (decision D34). -/
  tau : F64
  /-- `PAD_BYTE` (decision D34). -/
  padByte : Byte
  /-- Which numerics functions the block has (decision D6). -/
  numerics : Numerics
deriving DecidableEq, Repr

/-- 127.5, the value of `IQ_OFFSET` and `IQ_SCALE` in R8. -/
def Params.sourceIq : F32 := 0x42FF0000#32

/-- 16000, the value of `GAIN` in R8. -/
def Params.sourceGain : F32 := 0x467A0000#32

/-- The binary64 value nearest 50e-6, the value of `TAU` in R8. -/
def Params.sourceTau : F64 := 0x3F0A36E2EB1C432D#64

/-- The binary64 value nearest 75e-6, the alternative for `TAU` that R8 names. -/
def Params.alternativeTau : F64 := 0x3F13A92A30553261#64

/-- 127, the value of `PAD_BYTE` in R8. -/
def Params.sourcePad : Byte := 127#8

/-- R8's table. `ringMaxLog2 = 20`, `fftNMax = 1024` and the reference numerics are DESIGN CHOICES (unsafe,
notes/assumptions/1.md): R8 leaves the three open, and these are the values spec/95_test_vectors.md takes. -/
def Params.table : Params where
  ringMaxLog2 := 20
  fftNMax := 1024
  pcmByteOrder := .little
  iqOffset := Params.sourceIq
  iqScale := Params.sourceIq
  gain := Params.sourceGain
  tau := Params.sourceTau
  padByte := Params.sourcePad
  numerics := .reference

/-- The five unaudited literals have the source's values, `TAU` one of the two that R8 names (decision D34). -/
def Params.sourceLiterals (P : Params) : Bool :=
  P.iqOffset == Params.sourceIq && P.iqScale == Params.sourceIq && P.gain == Params.sourceGain
    && (P.tau == Params.sourceTau || P.tau == Params.alternativeTau) && P.padByte == Params.sourcePad

/-- Parameters that R8 admits: `FFT_N_MAX ≥ 1`, and the five literals as the source has them. -/
def Params.admissible (P : Params) : Prop := 1 ≤ P.fftNMax ∧ P.sourceLiterals = true

namespace Config

/-- `ATAN2` of an implementation, binary32 (R8, decision D6). Free value (safe, notes/assumptions/4.md). -/
opaque atan2 : F32 → F32 → F32

/-- `EXP` of an implementation, binary64 (R8, decision D6). Free value (safe, notes/assumptions/4.md). -/
opaque exp : F64 → F64

/-- `LOG10` of an implementation, binary64 (R8, decision D6). Free value (safe, notes/assumptions/4.md). -/
opaque log10 : F64 → F64

/-- `COS` of an implementation, binary64 (R8, decision D6). Free value (safe, notes/assumptions/4.md). -/
opaque cos : F64 → F64

/-- The value a draw takes when the environment has supplied none, by the number of draws made before it
(R15, R70). Free value (safe, notes/assumptions/3.md). -/
opaque draw : Nat → Nat

/-- Which NaN an operation with these operands delivers (R175, R179; spec/95_test_vectors.md SV7 "any NaN
encoding"). Free value (safe, notes/assumptions/6.md). -/
opaque nanBits : Numerics → BitVec 64 → BitVec 64 → F32

/-- The sample that the quantiser makes of a NaN, which no run produces (R151). Free value (safe,
notes/assumptions/6.md). -/
opaque nanSample : F32 → I16

end Config

end Sys2Proof
end

