-- ==== Sys2Proof/Syntax.lean ====
section
/-! DEFINITION. The commands of the block and the typed values they carry (spec/30_encoding.md R83, R85, R86). -/

namespace Sys2Proof

/-- The two ring instances (R3). -/
inductive RingId where
  | r0
  | r1
deriving DecidableEq, Repr, Inhabited

/-- The five command ports (spec/10_state.md R21). -/
inductive Port where
  | ctrl
  | prod0
  | prod1
  | cons0
  | cons1
deriving DecidableEq, Repr, Inhabited

/-- The producer port of a ring (R21). -/
def Port.producer : RingId → Port
  | .r0 => .prod0
  | .r1 => .prod1

/-- The consumer port of a ring (R21). -/
def Port.consumer : RingId → Port
  | .r0 => .cons0
  | .r1 => .cons1

/-- A typed operand or result value (R85). -/
inductive Value where
  | u32 (v : U32)
  | u64 (v : U64)
  | bytes (v : List Byte)
  | f32s (v : List F32)
  | cf32s (v : List CF32)
  | i16s (v : List I16)
  | bool (v : Bool)
deriving DecidableEq, Repr, Inhabited

/-- The twelve operations of the opcode map (R83), without operands. -/
inductive Opcode where
  | nop
  | regRead
  | statusClear
  | ringInit
  | ringPush
  | ringPop
  | demodInit
  | demodProcess
  | audioPull
  | specInit
  | specWindow
  | specMagdb
deriving DecidableEq, Repr, Inhabited

/-- A command: its operation, its ring where it is ring-addressed (R82), and its operands in payload order (R86). -/
inductive Instr where
  /-- `NOP` (R190). -/
  | nop
  /-- `REG_READ num` (R191). -/
  | regRead (num : U32)
  /-- `STATUS_CLEAR mask` (R192). -/
  | statusClear (mask : U32)
  /-- `RING_INIT.r capacity` (R100). -/
  | ringInit (r : RingId) (capacity : U64)
  /-- `RING_PUSH.r data` (R101). -/
  | ringPush (r : RingId) (data : List Byte)
  /-- `RING_POP.r max` (R102). -/
  | ringPop (r : RingId) (max : U64)
  /-- `DEMOD_INIT sample_rate_hz, audio_rate_hz` (R130). -/
  | demodInit (sampleRate audioRate : U32)
  /-- `DEMOD_PROCESS iq` (R135). -/
  | demodProcess (iq : List Byte)
  /-- `AUDIO_PULL.r frames` (R155). -/
  | audioPull (r : RingId) (frames : U32)
  /-- `SPEC_INIT n, win_sel, table` (R170). -/
  | specInit (n winSel : U32) (table : List F32)
  /-- `SPEC_WINDOW iq` (R173). -/
  | specWindow (iq : List Byte)
  /-- `SPEC_MAGDB bins` (R176). -/
  | specMagdb (bins : List CF32)
deriving DecidableEq, Repr, Inhabited

/-- The operation of a command. -/
def Instr.opcode : Instr → Opcode
  | .nop => .nop
  | .regRead _ => .regRead
  | .statusClear _ => .statusClear
  | .ringInit _ _ => .ringInit
  | .ringPush _ _ => .ringPush
  | .ringPop _ _ => .ringPop
  | .demodInit _ _ => .demodInit
  | .demodProcess _ => .demodProcess
  | .audioPull _ _ => .audioPull
  | .specInit _ _ _ => .specInit
  | .specWindow _ => .specWindow
  | .specMagdb _ => .specMagdb

/-- The ring a ring-addressed command names (R82); no ring for the others. -/
def Instr.ring? : Instr → Option RingId
  | .ringInit r _ | .ringPush r _ | .ringPop r _ | .audioPull r _ => some r
  | .nop | .regRead _ | .statusClear _ | .demodInit _ _ | .demodProcess _ | .specInit _ _ _ | .specWindow _
  | .specMagdb _ => none

end Sys2Proof
end

