-- ==== Sys2Proof/Machine/State.lean ====
section
/-! DEFINITION. The machine's state as plain data (spec/10_state.md), the reasons a step can stop, and reset. -/

namespace Sys2Proof.Machine

/-- Ring storage: (index, byte) pairs with strictly rising indices. An index with no entry holds no value
(spec/20_memory.md R62). -/
abbrev Memory := List Host.Cell

/-- One ring instance (R24 to R28). -/
structure RingState where
  /-- `ring[r].valid` (R24). -/
  valid : Bool
  /-- `ring[r].k`, log2 of the capacity (R24). -/
  k : BitVec 6
  /-- `buf_r` (R25). -/
  buf : Memory
  /-- `ring[r].head`, bytes ever accepted (R26). -/
  head : U64
  /-- `ring[r].tail`, bytes ever returned (R27). -/
  tail : U64
  /-- `ring[r].p_tail_seen`, the tail the producer last loaded (R28). -/
  pTailSeen : U64
  /-- `ring[r].c_head_seen`, the head the consumer last loaded (R28). -/
  cHeadSeen : U64
deriving DecidableEq, Repr

/-- The FM demodulator (R30 to R34). -/
structure DemodState where
  /-- `dm.valid` (R30). -/
  valid : Bool
  /-- `dm.sample_rate` (R30). -/
  sampleRate : U32
  /-- `dm.audio_rate` (R30). -/
  audioRate : U32
  /-- `dm.D`, the decimation rate (R30, R131). -/
  D : U32
  /-- `dm.alpha`, the de-emphasis coefficient (R30, R132). -/
  alpha : F32
  /-- `dm.prev`, the previous complex sample (R31). -/
  prev : CF32
  /-- `dm.counter`, phase differences in the current window (R32). -/
  counter : U32
  /-- `dm.sum`, their running sum (R33). -/
  sum : F32
  /-- `dm.yprev`, the filter's last output (R34). -/
  yprev : F32
deriving DecidableEq, Repr

/-- The spectrum configuration (R36). -/
structure SpecState where
  /-- `sp.valid` (R36). -/
  valid : Bool
  /-- `sp.N`, the frame length (R36). -/
  N : U32
  /-- `sp.win_sel`: 0 rectangular, 1 Hann, 2 user table (R36). -/
  winSel : BitVec 2
  /-- `sp.win[0 … N−1]` (R36). -/
  win : List F32
deriving DecidableEq, Repr

/-- What reaches the block from outside: a command presented on a port, with its word and payload (R80, R85), or the
reset event (spec/70_reset_and_hazards.md R230). -/
inductive Event where
  | reset
  | command (port : Port) (word : U32) (payload : List Value)
deriving DecidableEq, Repr

/-- The result a command handed back to the port that issued it (spec/00_scope.md R14). -/
structure Completion where
  port : Port
  result : List Value
deriving DecidableEq, Repr

/-- Why a step stops with a fault. Neither reason can arise in a run from reset (R62, R36): both are safe. -/
inductive Fault where
  /-- Raised by `RING_POP` and `AUDIO_PULL` in a state whose ring window holds a byte that nothing has written; the
  spec says no rule reads such a byte (R62). Safe: the machine stops where the spec gives no value. -/
  | unwrittenByte
  /-- Raised by `SPEC_WINDOW` and `REG_READ` in a state whose window table is shorter than `sp.N`; the spec says the
  table has exactly `sp.N` entries (R36). Safe: the machine stops where the spec gives no value. -/
  | windowEntryMissing
deriving DecidableEq, Repr

/-- Why a step refuses. -/
inductive Refusal where
  /-- No arm of `exec` answers with it: every instruction has its meaning. Safe. -/
  | notModelled (mnemonic : String)
  /-- Raised by `step` for a legal word with a payload that is not its operation's operand list; the spec puts such a
  payload outside the interface (R85, spec/93_implementation_defined.md I13 `refuse`). Safe. -/
  | payloadMismatch
deriving DecidableEq, Repr

/-- The machine: the block's architectural state (R20), and below it the model's own fields. The `ID` constant of
R43 is hard-wired and stands in the register read, not here. -/
structure State where
  /-- `RING[0]` (R24 to R28). -/
  ring0 : RingState
  /-- `RING[1]` (R24 to R28). -/
  ring1 : RingState
  /-- `DEMOD` (R30 to R34). -/
  dm : DemodState
  /-- `SPEC` (R36). -/
  sp : SpecState
  /-- `STATUS` (R37). -/
  status : U32
  /-- The model's own: the parameters of R8, which no step writes. -/
  params : Params
  /-- The model's own: the events still to come, in the order in which the ports' commands interleave (R211). -/
  inbox : List Event
  /-- The model's own: the port that issued the command being run (R205). -/
  issuer : Port
  /-- The model's own: draws the environment has supplied, each used once (R15). -/
  draws : List Nat
  /-- The model's own: how many draws have been made, the argument of the free value `Config.draw` (R15). -/
  drawCount : Nat
  /-- The model's own: the results returned so far, oldest first (R87, R246). -/
  results : List Completion
deriving DecidableEq, Repr

/-- A ring after reset (R45). -/
def RingState.reset : RingState where
  valid := false
  k := 0#6
  buf := []
  head := 0#64
  tail := 0#64
  pTailSeen := 0#64
  cHeadSeen := 0#64

/-- `1 + 0j`, the value of `dm.prev` at reset and after `DEMOD_INIT` (R31). -/
def initialSample : CF32 := ⟨0x3F800000#32, 0x00000000#32⟩

/-- The demodulator after reset (R45). -/
def DemodState.reset : DemodState where
  valid := false
  sampleRate := 0#32
  audioRate := 0#32
  D := 0#32
  alpha := 0x00000000#32
  prev := initialSample
  counter := 0#32
  sum := 0x00000000#32
  yprev := 0x00000000#32

/-- The spectrum unit after reset (R45). -/
def SpecState.reset : SpecState where
  valid := false
  N := 0#32
  winSel := 0#2
  win := []

/-- The machine right after reset (R45, R230): every unit invalid, `STATUS` zero, ring storage without a value.
The model's own fields start empty; the three open parameters are those of `Params.table` (DESIGN CHOICE, unsafe,
notes/assumptions/1.md), and no command is pending (notes/assumptions/2.md). -/
def State.reset : State where
  ring0 := RingState.reset
  ring1 := RingState.reset
  dm := DemodState.reset
  sp := SpecState.reset
  status := 0#32
  params := Params.table
  inbox := []
  issuer := .ctrl
  draws := []
  drawCount := 0
  results := []

end Sys2Proof.Machine
end

