-- ==== Sys2Proof/Machine/Flags.lean ====
section
/-! DEFINITION. The conditions and the `STATUS` register (spec/10_state.md R37, R38; spec/60_exceptions.md R200). -/

namespace Sys2Proof.Machine

/-- The conditions of R200. -/
inductive Condition where
  | illegal
  | badOperand
  | notInit
  | qci
  | rateWarn
  | oddDrop
  | underflow
  | shortFrame
  | pullMismatch
  | portViolation
deriving DecidableEq, Repr

/-- The class of a condition (R37). -/
inductive ConditionClass where
  | fault
  | warning
  | refusal
deriving DecidableEq, Repr

/-- The `STATUS` bit of a condition (R37). -/
def conditionBit : Condition → Nat
  | .illegal => 0
  | .badOperand => 1
  | .notInit => 2
  | .qci => 3
  | .rateWarn => 4
  | .oddDrop => 5
  | .underflow => 6
  | .shortFrame => 7
  | .pullMismatch => 8
  | .portViolation => 9

/-- The class of a condition (R37, R200). -/
def conditionClass : Condition → ConditionClass
  | .illegal | .badOperand | .notInit | .qci | .pullMismatch => .fault
  | .rateWarn | .oddDrop | .underflow | .shortFrame => .warning
  | .portViolation => .refusal

/-- A condition's bit as a word. -/
def conditionMask (c : Condition) : U32 := BitVec.ofNat 32 (2 ^ conditionBit c)

/-- The defined bits 9:0 of `STATUS`; bits 31:10 are reserved (R37). -/
def statusDefined : U32 := 0x000003FF#32

/-- The warning bits 7:4 (R38). -/
def statusWarnings : U32 := 0x000000F0#32

/-- The fault and refusal bits 3:0, 8 and 9 (R38, R203). -/
def statusSticky : U32 := 0x0000030F#32

/-- `STATUS` with a condition's bit set (R14 `raise`, `warn`). -/
def setCondition (c : Condition) (status : U32) : U32 := status ||| conditionMask c

/-- `STATUS` with a warning's bit set where the warning applies (R202). -/
def warnWhen (applies : Bool) (c : Condition) (status : U32) : U32 :=
  if applies then setCondition c status else status

/-- Whether a condition's bit is set. -/
def hasCondition (c : Condition) (status : U32) : Bool := status.getLsbD (conditionBit c)

/-- `STATUS[7:4] <- STATUS[7:4] & ~mask[7:4]` (R192). -/
def clearWarnings (mask status : U32) : U32 := status &&& ~~~(mask &&& statusWarnings)

/-- What a read of `STATUS` returns: reserved bits read as 0 (R37). -/
def statusRead (status : U32) : U32 := status &&& statusDefined

end Sys2Proof.Machine
end

