-- ==== Sys2Proof/WellFormed.lean ====
section
/-! DEFINITION. Which commands a port can present (spec/30_encoding.md R85): a `BYTES` operand has fewer than
`2^64` bytes. Every other operand type is exact in `Instr`'s own types. -/

namespace Sys2Proof

/-- A `BYTES` operand is a finite sequence of fewer than `2^64` bytes (R85, decision D37). -/
def bytesFit (data : List Byte) : Bool := data.length < 2 ^ 64

/-- Every operand of the command is a value of its type in R85. -/
def Instr.wellFormed : Instr → Bool
  | .nop => true
  | .regRead _ => true
  | .statusClear _ => true
  | .ringInit _ _ => true
  | .ringPush _ data => bytesFit data
  | .ringPop _ _ => true
  | .demodInit _ _ => true
  | .demodProcess iq => bytesFit iq
  | .audioPull _ _ => true
  | .specInit _ _ _ => true
  | .specWindow iq => bytesFit iq
  | .specMagdb _ => true

end Sys2Proof
end

