-- ==== Sys2Proof/Decode.lean ====
section
/-! DEFINITION. The command word and its payload: decoder and encoder (spec/30_encoding.md R80 to R86). -/

namespace Sys2Proof

/-- The `OP` value of an operation (R83). -/
def opValue : Opcode → BitVec 8
  | .nop => 0x00#8
  | .regRead => 0x01#8
  | .statusClear => 0x02#8
  | .ringInit => 0x10#8
  | .ringPush => 0x11#8
  | .ringPop => 0x12#8
  | .demodInit => 0x20#8
  | .demodProcess => 0x21#8
  | .audioPull => 0x22#8
  | .specInit => 0x30#8
  | .specWindow => 0x31#8
  | .specMagdb => 0x32#8

/-- The rows of the opcode map, in the order of R83. -/
def opcodeMap : List Opcode :=
  [.nop, .regRead, .statusClear, .ringInit, .ringPush, .ringPop, .demodInit, .demodProcess, .audioPull, .specInit,
    .specWindow, .specMagdb]

/-- The operation an `OP` value stands for; none for an unassigned value (R84). -/
def opcodeOf (op : BitVec 8) : Option Opcode := opcodeMap.find? fun o => opValue o == op

/-- The four commands whose `INST` field selects a ring (R82). -/
def ringAddressed : Opcode → Bool
  | .ringInit | .ringPush | .ringPop | .audioPull => true
  | .nop | .regRead | .statusClear | .demodInit | .demodProcess | .specInit | .specWindow | .specMagdb => false

/-- `OP`, bits 7:0 (R80). -/
def opField (w : U32) : BitVec 8 := w.extractLsb' 0 8

/-- `INST`, bits 11:8 (R80). -/
def instField (w : U32) : BitVec 4 := w.extractLsb' 8 4

/-- `RSV`, bits 31:12 (R80). -/
def rsvField (w : U32) : BitVec 20 := w.extractLsb' 12 20

/-- Why a presented command is no instruction. The first three are `ILLEGAL` words (R81, R82, R84); the last is
outside the interface (R85). -/
inductive DecodeError where
  /-- `RSV` is not zero (R81). -/
  | reservedBits
  /-- `OP` is not in the opcode map (R84). -/
  | unassignedOpcode
  /-- `INST` is out of range for the operation (R82). -/
  | badInst
  /-- The payload is not the operand list of the operation (R85). -/
  | payloadMismatch
deriving DecidableEq, Repr

/-- The ring that `INST` selects, for the two legal values (R82). -/
def ringOf (inst : BitVec 4) : RingId := if inst = 0#4 then .r0 else .r1

/-- `INST` is in range: 0 or 1 for a ring-addressed command, 0 for every other (R82). -/
def instLegal (o : Opcode) (inst : BitVec 4) : Bool :=
  if ringAddressed o then inst == 0#4 || inst == 1#4 else inst == 0#4

/-- The command with operation `o`, ring `r` and this payload; none where the payload is not the operation's operand
list (R86) or a `BYTES` operand is too long (R85). -/
def withPayload (o : Opcode) (r : RingId) (p : List Value) : Option Instr :=
  match o, p with
  | .nop, [] => some .nop
  | .regRead, [.u32 num] => some (.regRead num)
  | .statusClear, [.u32 mask] => some (.statusClear mask)
  | .ringInit, [.u64 capacity] => some (.ringInit r capacity)
  | .ringPush, [.bytes data] => if bytesFit data then some (.ringPush r data) else none
  | .ringPop, [.u64 max] => some (.ringPop r max)
  | .demodInit, [.u32 sampleRate, .u32 audioRate] => some (.demodInit sampleRate audioRate)
  | .demodProcess, [.bytes iq] => if bytesFit iq then some (.demodProcess iq) else none
  | .audioPull, [.u32 frames] => some (.audioPull r frames)
  | .specInit, [.u32 n, .u32 winSel, .f32s table] => some (.specInit n winSel table)
  | .specWindow, [.bytes iq] => if bytesFit iq then some (.specWindow iq) else none
  | .specMagdb, [.cf32s bins] => some (.specMagdb bins)
  | _, _ => none

/-- The decoder: the command that a word and its payload stand for, or why they are none. The checks stand in the
order of spec/60_exceptions.md R204, steps 1 to 3; the payload is looked at last. -/
def decode (w : U32) (p : List Value) : Except DecodeError Instr :=
  if rsvField w ≠ 0#20 then .error .reservedBits
  else match opcodeOf (opField w) with
    | none => .error .unassignedOpcode
    | some o =>
      if instLegal o (instField w) then
        match withPayload o (ringOf (instField w)) p with
        | some i => .ok i
        | none => .error .payloadMismatch
      else .error .badInst

/-- The `INST` value of a ring (R82). -/
def instOf : Option RingId → BitVec 4
  | none => 0#4
  | some .r0 => 0#4
  | some .r1 => 1#4

/-- The command word of a command: `RSV` zero, `INST`, `OP` (R80). -/
def encodeWord (i : Instr) : U32 := 0#20 ++ instOf i.ring? ++ opValue i.opcode

/-- The payload of a command, in the order of R86. -/
def encodePayload : Instr → List Value
  | .nop => []
  | .regRead num => [.u32 num]
  | .statusClear mask => [.u32 mask]
  | .ringInit _ capacity => [.u64 capacity]
  | .ringPush _ data => [.bytes data]
  | .ringPop _ max => [.u64 max]
  | .demodInit sampleRate audioRate => [.u32 sampleRate, .u32 audioRate]
  | .demodProcess iq => [.bytes iq]
  | .audioPull _ frames => [.u32 frames]
  | .specInit n winSel table => [.u32 n, .u32 winSel, .f32s table]
  | .specWindow iq => [.bytes iq]
  | .specMagdb bins => [.cf32s bins]

/-- The encoder: the word and the payload a port presents for a command. -/
def encode (i : Instr) : U32 × List Value := (encodeWord i, encodePayload i)

/-- The payload of an operation with every operand zero or empty (R86). -/
def zeroPayload : Opcode → List Value
  | .nop => []
  | .regRead => [.u32 0#32]
  | .statusClear => [.u32 0#32]
  | .ringInit => [.u64 0#64]
  | .ringPush => [.bytes []]
  | .ringPop => [.u64 0#64]
  | .demodInit => [.u32 0#32, .u32 0#32]
  | .demodProcess => [.bytes []]
  | .audioPull => [.u32 0#32]
  | .specInit => [.u32 0#32, .u32 0#32, .f32s []]
  | .specWindow => [.bytes []]
  | .specMagdb => [.cf32s []]

/-- The command word that the low `nbits` bits of `w` spell, and the all-zero payload of its operation: the table
gives the 32 bits of the word only, and a payload is not part of it (R80). -/
def tableCommand (nbits w : Nat) : U32 × List Value :=
  let word := BitVec.ofNat 32 (w % 2 ^ nbits)
  (word, match opcodeOf (opField word) with
    | some o => zeroPayload o
    | none => [])

/-- What the decoder reads from a row of spec/opcode_table.json: the word `w`, every operand zero or empty. -/
def decodeTableWord (nbits w : Nat) : Option Instr :=
  match decode (tableCommand nbits w).1 (tableCommand nbits w).2 with
  | .ok i => some i
  | .error _ => none

/-- What a command returns when it ends in a fault or a refusal (R87). -/
def failResult : Opcode → List Value
  | .nop => []
  | .regRead => [.u64 0#64]
  | .statusClear => []
  | .ringInit => [.bool false]
  | .ringPush => [.bool false]
  | .ringPop => [.bytes []]
  | .demodInit => [.u32 0#32]
  | .demodProcess => [.i16s []]
  | .audioPull => [.i16s []]
  | .specInit => [.bool false]
  | .specWindow => [.cf32s []]
  | .specMagdb => [.f32s []]

/-- What an `ILLEGAL` word returns: the failure result of the operation its `OP` field names, and nothing where `OP`
is unassigned (R87, R201). DEDUCED, unsafe (notes/assumptions/8.md): R87 has no row for an unassigned `OP`. -/
def illegalResult (w : U32) : List Value :=
  match opcodeOf (opField w) with
  | some o => failResult o
  | none => []

end Sys2Proof
end

