-- ==== Sys2Proof/Machine/Operands.lean ====
section
/-! DEFINITION. The operand checks (spec/30_encoding.md R88), the port table (spec/60_exceptions.md R205), the
register numbers (spec/10_state.md R40) and the serial form of samples (spec/20_memory.md R64). -/

namespace Sys2Proof.Machine

/-- The ports marked Y in R205. -/
def allowedPorts : Instr → List Port
  | .nop => [.ctrl, .prod0, .prod1, .cons0, .cons1]
  | .regRead _ => [.ctrl, .prod0, .prod1, .cons0, .cons1]
  | .statusClear _ => [.ctrl]
  | .ringInit _ _ => [.ctrl]
  | .ringPush .r0 _ => [.prod0]
  | .ringPush .r1 _ => [.prod1]
  | .ringPop .r0 _ => [.cons0]
  | .ringPop .r1 _ => [.cons1]
  | .demodInit _ _ => [.ctrl]
  | .demodProcess _ => [.cons0]
  | .audioPull .r0 _ => [.cons0]
  | .audioPull .r1 _ => []
  | .specInit _ _ _ => [.ctrl]
  | .specWindow _ => [.cons1]
  | .specMagdb _ => [.cons1]

/-- The command may be issued on the port (R205). -/
def portAllowed (i : Instr) (p : Port) : Bool := (allowedPorts i).contains p

/-- `capacity` is not 0, a power of two and at most `2^RING_MAX_LOG2`: `RING_INIT`'s check (R88, R100). -/
def capacityLegal (P : Params) (capacity : U64) : Bool :=
  !(capacity == 0#64 || (capacity &&& (capacity - 1#64)) != 0#64 || decide (2 ^ P.ringMaxLog2.val < capacity.toNat))

/-- `SPEC_INIT`'s checks, in the order of R170. -/
def specOperandsLegal (P : Params) (n winSel : U32) (table : List F32) : Bool :=
  !(n == 0#32 || decide (P.fftNMax < n.toNat) || decide (2 < winSel.toNat)
    || (winSel == 2#32 && table.length != n.toNat) || (winSel != 2#32 && table.length != 0))

/-- The bytes an `AUDIO_PULL` of `frames` needs: `frames × dm.D × 2`, exact (R155). -/
def bytesNeeded (frames D : U32) : Nat := frames.toNat * D.toNat * 2

/-- The registers of R40. -/
inductive Reg where
  | id
  | status
  | ringCfg (r : RingId)
  | ringHead (r : RingId)
  | ringTail (r : RingId)
  | ringUsed (r : RingId)
  | dmCfg
  | dmSampleRate
  | dmAudioRate
  | dmD
  | dmAlpha
  | dmPrevRe
  | dmPrevIm
  | dmCounter
  | dmSum
  | dmYprev
  | spCfg
  | spN
  | spWin (k : Nat)
deriving DecidableEq, Repr

/-- The numbers below `0x0001_0000` of R40. -/
def regNumbers : List (Nat × Reg) :=
  [(0x00, .id), (0x01, .status),
   (0x10, .ringCfg .r0), (0x11, .ringHead .r0), (0x12, .ringTail .r0), (0x13, .ringUsed .r0),
   (0x18, .ringCfg .r1), (0x19, .ringHead .r1), (0x1A, .ringTail .r1), (0x1B, .ringUsed .r1),
   (0x20, .dmCfg), (0x21, .dmSampleRate), (0x22, .dmAudioRate), (0x23, .dmD), (0x24, .dmAlpha), (0x25, .dmPrevRe),
   (0x26, .dmPrevIm), (0x27, .dmCounter), (0x28, .dmSum), (0x29, .dmYprev),
   (0x30, .spCfg), (0x31, .spN)]

/-- The number of `SP_WIN[0]` (R40). -/
def winBase : Nat := 0x10000

/-- The register of a number, with frame length `spN`: `SP_WIN[k]` for `k < sp.N`, the map of R40 below it, and
nothing for an unassigned number (R191). -/
def regOf (spN : U32) (num : U32) : Option Reg :=
  if winBase ≤ num.toNat then
    (if num.toNat - winBase < spN.toNat then some (.spWin (num.toNat - winBase)) else none)
  else (regNumbers.find? fun e => e.1 == num.toNat).map Prod.snd

/-- The two bytes of a sample in a byte order (R64). -/
def sampleBytes (order : ByteOrder) (x : I16) : List Byte :=
  match order with
  | .little => [x.extractLsb' 0 8, x.extractLsb' 8 8]
  | .big => [x.extractLsb' 8 8, x.extractLsb' 0 8]

/-- Samples as a port serialises them (R64); no command's own effect. -/
def pcmBytes (P : Params) (samples : List I16) : List Byte := samples.flatMap (sampleBytes P.pcmByteOrder)

end Sys2Proof.Machine
end

