-- ==== Sys2Proof/Machine/Ops.lean ====
section
/-! DEFINITION. The named operations over ring storage, registers and the command interface: memory and ring
transfers (spec/20_memory.md R61, R70), the register read (spec/10_state.md R40 to R44), raising a condition
(spec/60_exceptions.md R201) and accepting what the environment presents (R211). -/

namespace Sys2Proof.Machine

/-! ## Ring storage -/

/-- The byte at an index; none where nothing has been written (R62). -/
def Memory.read (m : Memory) (a : Nat) : Option Byte :=
  match m with
  | [] => none
  | (x, b) :: rest => if a = x then some b else Memory.read rest a

/-- The storage with a byte written, its entries still in rising order. -/
def Memory.write (m : Memory) (a : Nat) (v : Byte) : Memory :=
  match m with
  | [] => [(a, v)]
  | (x, b) :: rest =>
    if a < x then (a, v) :: (x, b) :: rest
    else if a = x then (a, v) :: rest
    else (x, b) :: Memory.write rest a v

/-- The canonical form: indices strictly rising. An index with no entry has no value, so no entry equals it. -/
def Memory.wf : Memory → Bool
  | [] => true
  | [_] => true
  | x :: y :: rest => decide (x.1 < y.1) && Memory.wf (y :: rest)

/-- `C_r = 2^k` (R24). -/
def RingState.cap (rs : RingState) : Nat := 2 ^ rs.k.toNat

/-- `used_r = head − tail mod 2^64` (R29). -/
def RingState.used (rs : RingState) : U64 := rs.head - rs.tail

/-- The physical index of a logical position: `pos & (C − 1)`, which is `pos mod C` as `C` is a power of two (R61). -/
def ringIndex (cap : Nat) (pos : U64) : Nat := pos.toNat % cap

/-- `MemRead(r, pos, n)` (R61): the bytes at `n` positions from `pos` on; none where one of them was never written
(R62). -/
def memRead (cap : Nat) (m : Memory) (pos : U64) : Nat → Option (List Byte)
  | 0 => some []
  | n + 1 =>
    match m.read (ringIndex cap pos), memRead cap m (pos + 1#64) n with
    | some b, some bs => some (b :: bs)
    | _, _ => none

/-- `MemWrite(r, pos, n, v)` (R61): the bytes written at the positions from `pos` on. -/
def memWrite (cap : Nat) (m : Memory) (pos : U64) : List Byte → Memory
  | [] => m
  | b :: bs => memWrite cap (m.write (ringIndex cap pos) b) (pos + 1#64) bs

/-! ## The parts of the state -/

/-- Ring `r`. -/
def State.ring (s : State) : RingId → RingState
  | .r0 => s.ring0
  | .r1 => s.ring1

/-- The state with ring `r` replaced. -/
def State.setRing (s : State) (r : RingId) (rs : RingState) : State :=
  match r with
  | .r0 => { s with ring0 := rs }
  | .r1 => { s with ring1 := rs }

/-- The state with the demodulator replaced. -/
def State.setDm (s : State) (dm : DemodState) : State := { s with dm := dm }

/-- The state with the spectrum unit replaced. -/
def State.setSp (s : State) (sp : SpecState) : State := { s with sp := sp }

/-- The state with `STATUS` replaced. -/
def State.setStatus (s : State) (status : U32) : State := { s with status := status }

/-- The state with a warning's bit set where the warning applies (R202). -/
def State.warn (s : State) (applies : Bool) (c : Condition) : State :=
  s.setStatus (warnWhen applies c s.status)

/-- The result handed back to the issuing port (R14 `return`). -/
def State.finish (s : State) (result : List Value) : State :=
  { s with results := s.results ++ [⟨s.issuer, result⟩] }

/-! ## Ending a command -/

/-- `return (v1, v2, …)` (R14): the command ends with its results. -/
def succeed (result : List Value) (s : State) : Host.Outcome State Fault Refusal := .next (s.finish result)

/-- `raise <Condition>` of a fault or refusal (R14, R201): the condition's bit is set, the command ends with its
failure result, and nothing else changes. This is the whole of taking a condition: no state is saved and no control
is transferred (R209). -/
def raise (c : Condition) (failure : List Value) (s : State) : Host.Outcome State Fault Refusal :=
  .next ((s.setStatus (setCondition c s.status)).finish failure)

/-- A check of R204: the command goes on where `ok` holds, and raises the condition elsewhere, the rest unevaluated. -/
def require (ok : Bool) (c : Condition) (o : Opcode) (s : State) (go : Unit → Host.Outcome State Fault Refusal) :
    Host.Outcome State Fault Refusal :=
  if ok then go () else raise c (failResult o) s

/-- Step 4 of R204: the command goes on where the issuing port may issue it (R205, R206). -/
def onPort (i : Instr) (s : State) (go : Unit → Host.Outcome State Fault Refusal) :
    Host.Outcome State Fault Refusal :=
  require (portAllowed i s.issuer) .portViolation i.opcode s go

/-- An illegal command word (R81, R82, R84). -/
def raiseIllegal (w : U32) (s : State) : Host.Outcome State Fault Refusal := raise .illegal (illegalResult w) s

/-! ## Draws (R15, R70) -/

/-- The next draw's free input: the environment's, where it has supplied one, and else a free value. -/
def State.nextDraw (s : State) : Nat :=
  match s.draws with
  | v :: _ => v
  | [] => Config.draw s.drawCount

/-- `draw x ∈ [lo, hi]` (R70): how far past `lo` the load sees is the free input, at most as far as `hi`. R70 reads the
bounds as unbounded counts; here the distance is counted modulo `2^64`, which agrees with it under R29 (DEDUCED, safe,
notes/assumptions/19.md). -/
def State.drawBetween (s : State) (lo hi : U64) : U64 :=
  if hi = lo then lo else lo + BitVec.ofNat 64 (min s.nextDraw (hi - lo).toNat)

/-- The state after a draw. -/
def State.afterDraw (s : State) : State := { s with draws := s.draws.tail, drawCount := s.drawCount + 1 }

/-! ## Ring transfers -/

/-- What `RING_PUSH` does to its ring when it observes the tail `t` (R101): the ring, and whether it took the data. -/
def RingState.push (rs : RingState) (t : U64) (data : List Byte) : RingState × Bool :=
  if rs.cap < data.length + (rs.head - t).toNat then ({ rs with pTailSeen := t }, false)
  else ({ rs with
      pTailSeen := t
      buf := memWrite rs.cap rs.buf rs.head data
      head := rs.head + BitVec.ofNat 64 data.length }, true)

/-- The count a pop of up to `max` bytes moves when it observes the head `h` (R102). -/
def RingState.popCount (rs : RingState) (h : U64) (max : Nat) : Nat := min max (h - rs.tail).toNat

/-- What `RING_POP` does to its ring when it observes the head `h` (R102): the ring and the bytes; none where a byte
of them was never written (R62). -/
def RingState.pop (rs : RingState) (h : U64) (max : Nat) : Option (RingState × List Byte) :=
  (memRead rs.cap rs.buf rs.tail (rs.popCount h max)).map fun data =>
    ({ rs with cHeadSeen := h, tail := rs.tail + BitVec.ofNat 64 (rs.popCount h max) }, data)

/-- A ring just constructed with capacity `2^k` (R100). -/
def RingState.constructed (k : BitVec 6) : RingState where
  valid := true
  k := k
  buf := []
  head := 0#64
  tail := 0#64
  pTailSeen := 0#64
  cHeadSeen := 0#64

/-! ## The register read -/

/-- `ID`, hard-wired (R43). -/
def idValue : U64 := 0x00000000464D4431#64

/-- A bit as a word. -/
def bitWord (b : Bool) : U64 := if b then 1#64 else 0#64

/-- `RINGr_CFG`: `VALID` in bit 0, `K` in bits 13:8, and `K` reads 0 while `VALID` is 0 (R41). -/
def ringCfg (rs : RingState) : U64 :=
  if rs.valid then 1#64 ||| (rs.k.setWidth 64 <<< 8) else 0#64

/-- `SP_CFG`: `VALID` in bit 0, `WIN_SEL` in bits 9:8 (R44). -/
def specCfg (sp : SpecState) : U64 := bitWord sp.valid ||| (sp.winSel.setWidth 64 <<< 8)

/-- `value_of` a register, as a `u64` (R40 to R44); none for a window entry the table does not hold. -/
def readReg (s : State) : Reg → Option U64
  | .id => some idValue
  | .status => some ((statusRead s.status).setWidth 64)
  | .ringCfg r => some (ringCfg (s.ring r))
  | .ringHead r => some (s.ring r).head
  | .ringTail r => some (s.ring r).tail
  | .ringUsed r => some (s.ring r).used
  | .dmCfg => some (bitWord s.dm.valid)
  | .dmSampleRate => some (s.dm.sampleRate.setWidth 64)
  | .dmAudioRate => some (s.dm.audioRate.setWidth 64)
  | .dmD => some (s.dm.D.setWidth 64)
  | .dmAlpha => some (s.dm.alpha.setWidth 64)
  | .dmPrevRe => some (s.dm.prev.re.setWidth 64)
  | .dmPrevIm => some (s.dm.prev.im.setWidth 64)
  | .dmCounter => some (s.dm.counter.setWidth 64)
  | .dmSum => some (s.dm.sum.setWidth 64)
  | .dmYprev => some (s.dm.yprev.setWidth 64)
  | .spCfg => some (specCfg s.sp)
  | .spN => some (s.sp.N.setWidth 64)
  | .spWin k => s.sp.win[k]?.map (·.setWidth 64)

/-! ## What the environment presents -/

/-- The state in which a command presented on port `p` is run: the events after it still pending, `p` the issuer. -/
def State.accept (s : State) (p : Port) (rest : List Event) : State := { s with inbox := rest, issuer := p }

/-- The reset event (R230): every piece of the block's state at its reset value. The model's own fields go on: the
parameters, the pending events, the draws and the results already returned. -/
def State.resetEvent (s : State) (rest : List Event) : State :=
  { State.reset with
    params := s.params
    inbox := rest
    issuer := s.issuer
    draws := s.draws
    drawCount := s.drawCount
    results := s.results }

/-- A port that may issue the word's command: the first of its row in R205, and its consumer port for `AUDIO_PULL.1`,
which no port may issue; `CTRL` for a word that is no command. -/
def homePort (w : U32) (p : List Value) : Port :=
  match decode w p with
  | .ok (.audioPull r _) => Port.consumer r
  | .ok i => (allowedPorts i).headD .ctrl
  | .error _ => .ctrl

end Sys2Proof.Machine
end

