-- ==== Sys2Proof/Machine/Control.lean ====
section
/-! DEFINITION. The control and inspection commands (spec/43_control.md). -/

namespace Sys2Proof.Machine

/-- `NOP` (R190). -/
def execNop (s : State) : Host.Outcome State Fault Refusal :=
  onPort .nop s fun _ => succeed [] s

/-- `REG_READ num` (R191): no side effect (R69). -/
def execRegRead (num : U32) (s : State) : Host.Outcome State Fault Refusal :=
  onPort (.regRead num) s fun _ =>
    match regOf s.sp.N num with
    | none => raise .badOperand (failResult .regRead) s
    | some reg =>
      match readReg s reg with
      | some v => succeed [.u64 v] s
      | none => .fault .windowEntryMissing

/-- `STATUS_CLEAR mask` (R192). -/
def execStatusClear (mask : U32) (s : State) : Host.Outcome State Fault Refusal :=
  onPort (.statusClear mask) s fun _ => succeed [] (s.setStatus (clearWarnings mask s.status))

end Sys2Proof.Machine
end

