-- ==== Sys2Proof/Machine/Float.lean ====
section
/-! DEFINITION. Real arithmetic (spec/00_scope.md R11): the exact result of an operation on encoded values, and its
rounding to binary32 or binary64, to nearest with ties to even. -/

namespace Sys2Proof.Machine

/-- A binary interchange format: significand bits with the hidden one, exponent bits, and `unit` with `2^-unit` the
smallest positive value. -/
structure Format where
  prec : Nat
  ebits : Nat
  unit : Nat
deriving DecidableEq, Repr

/-- binary32 (R65). -/
def binary32 : Format := ⟨24, 8, 149⟩

/-- binary64. -/
def binary64 : Format := ⟨53, 11, 1074⟩

/-- An exact value: no number, an infinity, or the rational `± num / den` with the sign of a zero kept (R11 "`+0.0`
and `−0.0` are distinct values"). -/
inductive Exact where
  | nan
  | inf (neg : Bool)
  | fin (neg : Bool) (num den : Nat)
deriving DecidableEq, Repr

/-- The encoding of positive infinity; it bounds every finite encoding from above. -/
def infBits (f : Format) : Nat := (2 ^ f.ebits - 1) * 2 ^ (f.prec - 1)

/-- The exact value of an encoding. Every finite value of a format is a whole number of its smallest units. -/
def exactOf (f : Format) (x : Nat) : Exact :=
  let neg := x.testBit (f.ebits + f.prec - 1)
  let e := x / 2 ^ (f.prec - 1) % 2 ^ f.ebits
  let m := x % 2 ^ (f.prec - 1)
  if e = 2 ^ f.ebits - 1 then (if m = 0 then .inf neg else .nan)
  else if e = 0 then .fin neg m (2 ^ f.unit)
  else .fin neg ((2 ^ (f.prec - 1) + m) * 2 ^ (e - 1)) (2 ^ f.unit)

/-- The whole number nearest `num / den`, ties to even. -/
def roundHalfEven (num den : Nat) : Nat :=
  let q := num / den
  let r := num % den
  if den < 2 * r ∨ (2 * r = den ∧ q % 2 = 1) then q + 1 else q

/-- The encoding of the magnitude nearest `num / den`, ties to even, with gradual underflow and overflow to infinity
(R11). In units of the smallest positive value, a magnitude below `2^prec` is its own encoding, and each doubling
above it adds one to the exponent field. -/
def roundMag (f : Format) (num den : Nat) : Nat :=
  let n := num * 2 ^ f.unit
  let shift := Nat.log2 (n / den) - (f.prec - 1)
  min (roundHalfEven n (den * 2 ^ shift) + shift * 2 ^ (f.prec - 1)) (infBits f)

/-- A sign and a magnitude as one encoding. -/
def packSign (f : Format) (neg : Bool) (mag : Nat) : Nat :=
  if neg then 2 ^ (f.ebits + f.prec - 1) + mag else mag

/-- `fl32` and `fl64` of R11: the exact value rounded to a format, `nan` where it is no number. -/
def fl (f : Format) (nan : Nat) : Exact → Nat
  | .nan => nan
  | .inf neg => packSign f neg (infBits f)
  | .fin neg num den => packSign f neg (roundMag f num den)

/-- The exact value with its sign changed. -/
def exactNeg : Exact → Exact
  | .nan => .nan
  | .inf neg => .inf (!neg)
  | .fin neg num den => .fin (!neg) num den

/-- The exact sum. A sum of opposite values is `+0.0`, as IEEE 754 has it when rounding to nearest. -/
def exactAdd : Exact → Exact → Exact
  | .nan, _ => .nan
  | _, .nan => .nan
  | .inf a, .inf b => if a = b then .inf a else .nan
  | .inf a, .fin _ _ _ => .inf a
  | .fin _ _ _, .inf b => .inf b
  | .fin s m d, .fin t n e =>
    let a := m * e
    let b := n * d
    if s = t then .fin s (a + b) (d * e)
    else if b < a then .fin s (a - b) (d * e)
    else if a < b then .fin t (b - a) (d * e)
    else .fin false 0 (d * e)

/-- The exact product. -/
def exactMul : Exact → Exact → Exact
  | .nan, _ => .nan
  | _, .nan => .nan
  | .inf a, .inf b => .inf (a != b)
  | .inf a, .fin t n _ => if n = 0 then .nan else .inf (a != t)
  | .fin s m _, .inf b => if m = 0 then .nan else .inf (s != b)
  | .fin s m d, .fin t n e => .fin (s != t) (m * n) (d * e)

/-- The exact quotient. -/
def exactDiv : Exact → Exact → Exact
  | .nan, _ => .nan
  | _, .nan => .nan
  | .inf _, .inf _ => .nan
  | .inf a, .fin t _ _ => .inf (a != t)
  | .fin s _ _, .inf b => .fin (s != b) 0 1
  | .fin s m d, .fin t n e =>
    if n = 0 then (if m = 0 then .nan else .inf (s != t)) else .fin (s != t) (m * e) (d * n)

/-- `a < b` on exact values; false where either is no number, and zeros of either sign are equal. -/
def exactLt : Exact → Exact → Bool
  | .nan, _ => false
  | _, .nan => false
  | .inf a, .inf b => a && !b
  | .inf a, .fin _ _ _ => a
  | .fin _ _ _, .inf b => !b
  | .fin s m d, .fin t n e =>
    match s, t with
    | false, false => m * e < n * d
    | true, true => n * d < m * e
    | true, false => 0 < m * e + n * d
    | false, true => false

/-- `trunc` of R11: the whole number nearest a value in the direction of zero; none for no number or infinity. -/
def exactTrunc : Exact → Option Int
  | .nan => none
  | .inf _ => none
  | .fin neg num den => some (if neg then -((num / den : Nat) : Int) else ((num / den : Nat) : Int))

/-- The exact value of a binary32 encoding. -/
def val32 (x : F32) : Exact := exactOf binary32 x.toNat

/-- The exact value of a binary64 encoding. -/
def val64 (x : F64) : Exact := exactOf binary64 x.toNat

/-- A binary32 encoding of no number. -/
def f32IsNaN (x : F32) : Bool := val32 x == .nan

/-- A finite binary32 encoding. -/
def f32IsFinite (x : F32) : Bool :=
  match val32 x with
  | .fin _ _ _ => true
  | .inf _ => false
  | .nan => false

/-- A finite binary64 encoding. -/
def f64IsFinite (x : F64) : Bool :=
  match val64 x with
  | .fin _ _ _ => true
  | .inf _ => false
  | .nan => false

/-- A NaN, in place of a free value that is none (spec/95_test_vectors.md SV7). -/
def someNaN : F32 := 0x7FC00000#32

/-- The binary32 NaN that an operation with these operands delivers. The spec says only that it is a NaN (R175, R179;
SV7 "any NaN encoding"): a free value (safe, notes/assumptions/6.md). -/
def nan32 (P : Params) (a b : BitVec 64) : F32 :=
  if f32IsNaN (Config.nanBits P.numerics a b) then Config.nanBits P.numerics a b else someNaN

/-- The binary64 NaN of an intermediate result; no rule shows its encoding. -/
def nan64 : F64 := 0x7FF8000000000000#64

/-- `fl32` (R11), with the NaN the operands give. -/
def fl32 (nan : F32) (x : Exact) : F32 := BitVec.ofNat 32 (fl binary32 nan.toNat x)

/-- `fl64` (R11). -/
def fl64 (x : Exact) : F64 := BitVec.ofNat 64 (fl binary64 nan64.toNat x)

/-- The NaN of a binary32 operation on `a` and `b`. -/
def nanOf (P : Params) (a b : F32) : F32 := nan32 P (a.setWidth 64) (b.setWidth 64)

/-- `fl32(a + b)` (R11). -/
def f32Add (P : Params) (a b : F32) : F32 := fl32 (nanOf P a b) (exactAdd (val32 a) (val32 b))

/-- `fl32(a − b)` (R11). -/
def f32Sub (P : Params) (a b : F32) : F32 := fl32 (nanOf P a b) (exactAdd (val32 a) (exactNeg (val32 b)))

/-- `fl32(a × b)` (R11). -/
def f32Mul (P : Params) (a b : F32) : F32 := fl32 (nanOf P a b) (exactMul (val32 a) (val32 b))

/-- `fl32(a / b)` (R11). -/
def f32Div (P : Params) (a b : F32) : F32 := fl32 (nanOf P a b) (exactDiv (val32 a) (val32 b))

/-- The binary32 value nearest a whole number (R147 "`fl32(dm.D)`"). -/
def f32OfNat (n : Nat) : F32 := BitVec.ofNat 32 (roundMag binary32 n 1)

/-- `a < b` on binary32 values. -/
def f32Lt (a b : F32) : Bool := exactLt (val32 a) (val32 b)

/-- `clamp(v, lo, hi) = min(max(v, lo), hi)` (R10). -/
def f32Clamp (v lo hi : F32) : F32 :=
  if f32Lt v lo then lo else if f32Lt hi v then hi else v

/-- The sign bit changed. -/
def f32Neg (a : F32) : F32 := a ^^^ 0x80000000#32

/-- `fl64(a + b)` (R11). -/
def f64Add (a b : F64) : F64 := fl64 (exactAdd (val64 a) (val64 b))

/-- `fl64(a − b)` (R11). -/
def f64Sub (a b : F64) : F64 := fl64 (exactAdd (val64 a) (exactNeg (val64 b)))

/-- `fl64(a × b)` (R11). -/
def f64Mul (a b : F64) : F64 := fl64 (exactMul (val64 a) (val64 b))

/-- `fl64(a / b)` (R11). -/
def f64Div (a b : F64) : F64 := fl64 (exactDiv (val64 a) (val64 b))

/-- The sign bit changed. -/
def f64Neg (a : F64) : F64 := a ^^^ 0x8000000000000000#64

/-- `a < b` on binary64 values. -/
def f64Lt (a b : F64) : Bool := exactLt (val64 a) (val64 b)

/-- The binary64 value nearest a whole number. -/
def f64OfNat (n : Nat) : F64 := BitVec.ofNat 64 (roundMag binary64 n 1)

/-- `fl64` of a binary32 value; exact, since every binary32 value is a binary64 value (R177). -/
def f64OfF32 (a : F32) : F64 := fl64 (val32 a)

/-- `fl32` of a binary64 value (R132, R171, R177). -/
def f32OfF64 (P : Params) (a : F64) : F32 := fl32 (nan32 P a 0#64) (val64 a)

end Sys2Proof.Machine
end

