-- ==== Sys2Proof/Machine/Numerics.lean ====
section
/-! DEFINITION. The numerics functions `ATAN2`, `EXP`, `LOG10` and `COS` (spec/00_scope.md R8, decision D6): for the
reference, the correctly rounded result, computed in fixed point with an error bound and rounded from both ends of
the interval; for an implementation's own functions, a free value kept to what the spec says of every choice. -/

namespace Sys2Proof.Machine

/-! ## Fixed point: a magnitude `x` stands for `x / 2^fixBits`. -/

/-- Fraction bits of the fixed-point numbers below. -/
def fixBits : Nat := 512

/-- One in fixed point. -/
def fixOne : Nat := 2 ^ fixBits

/-- A product in fixed point, rounded down. -/
def fixMul (a b : Nat) : Nat := a * b / fixOne

/-- A bound on the error of each evaluation below, in units of `2^-fixBits`. UNVERIFIED, unsafe
(notes/assumptions/5.md): the bound is far above the sum of the roundings, and no proof of it stands here. -/
def fixError : Nat := 2 ^ 32

/-- How many terms of a series in `z^2` matter at this precision, for `z < 1/2`. -/
def seriesTerms (z : Nat) : Nat := fixBits / (2 * (fixBits - 1 - Nat.log2 z)) + 2

/-- `1/k − z²/(k+2) + z⁴/(k+4) − …`, `n` terms, from `z²`. -/
def atanSeries (z2 : Nat) : Nat → Nat → Nat
  | 0, _ => 0
  | n + 1, k => fixOne / k - fixMul z2 (atanSeries z2 n (k + 2))

/-- `1/k + z²/(k+2) + z⁴/(k+4) + …`, `n` terms, from `z²`. -/
def atanhSeries (z2 : Nat) : Nat → Nat → Nat
  | 0, _ => 0
  | n + 1, k => fixOne / k + fixMul z2 (atanhSeries z2 n (k + 2))

/-- `1 + x/k·(1 + x/(k+1)·(…))`, `n` terms: the exponential series from its `k`-th term on. -/
def expSeries (x : Nat) : Nat → Nat → Nat
  | 0, _ => fixOne
  | n + 1, k => fixOne + fixMul x (expSeries x n (k + 1)) / k

/-- `1 − x²/(k(k+1))·(1 − …)`, `n` terms: the cosine series from `x²`. -/
def cosSeries (x2 : Nat) : Nat → Nat → Nat
  | 0, _ => fixOne
  | n + 1, k => fixOne - fixMul x2 (cosSeries x2 n (k + 2)) / (k * (k + 1))

/-- The arctangent of `z < 1/2`. -/
def fixAtanSmall (z : Nat) : Nat := fixMul z (atanSeries (fixMul z z) (seriesTerms z) 1)

/-- The area hyperbolic tangent of `z < 1/2`. -/
def fixAtanh (z : Nat) : Nat := fixMul z (atanhSeries (fixMul z z) (seriesTerms z) 1)

/-- π, by Machin's formula. -/
def fixPi : Nat := 16 * fixAtanSmall (fixOne / 5) - 4 * fixAtanSmall (fixOne / 239)

/-- The natural logarithm of 2. -/
def fixLn2 : Nat := 2 * fixAtanh (fixOne / 3)

/-- The natural logarithm of 10. -/
def fixLn10 : Nat := 3 * fixLn2 + 2 * fixAtanh (fixOne / 9)

/-- The arctangent of `a / b`, for `a ≤ b` and `b` positive: the series below two fifths, and above them
`π/4 − atan((b − a) / (b + a))`. -/
def fixAtan (a b : Nat) : Nat :=
  if 5 * a ≤ 2 * b then fixAtanSmall (a * fixOne / b)
  else fixPi / 4 - fixAtanSmall ((b - a) * fixOne / (b + a))

/-- The encoding both ends of an interval round to; none where they differ. The ends are in units of `2^-bits`. -/
def settle (f : Format) (neg : Bool) (lo hi bits : Nat) : Option Nat :=
  let a := roundMag f lo (2 ^ bits)
  let b := roundMag f hi (2 ^ bits)
  if a = b then some (packSign f neg a) else none

/-- `settle` around a signed fixed-point value. -/
def settleAround (f : Format) (y : Int) : Option Nat :=
  settle f (y < 0) (y.natAbs - fixError) (y.natAbs + fixError) fixBits

/-! ## The reference functions; none where the argument has no correctly rounded result here. -/

/-- The angle of the point `(x, y)`, from the magnitudes in a common unit, at most one of them zero. -/
def fixAngle (xneg : Bool) (x y : Nat) : Nat :=
  let acute := if y ≤ x then fixAtan y x else fixPi / 2 - fixAtan x y
  if xneg then fixPi - acute else acute

/-- `ATAN2(y, x)` correctly rounded to binary32, for finite arguments not both zero. -/
def refAtan2 (y x : F32) : Option F32 :=
  match val32 y, val32 x with
  | .fin s m _, .fin t n _ =>
    if m = 0 ∧ n = 0 then none
    else
      let a := fixAngle t n m
      (settle binary32 s (a - fixError) (a + fixError) fixBits).map (BitVec.ofNat 32)
  | _, _ => none

/-- Squares `n` times. -/
def fixSquares : Nat → Nat → Nat
  | 0, y => y
  | n + 1, y => fixSquares n (fixMul y y)

/-- The exponential of a magnitude below 1024, in fixed point, with the argument cut by `2^16`. -/
def fixExp (x : Nat) : Nat := fixSquares 16 (expSeries (x / 2 ^ 16) 96 1)

/-- `EXP` correctly rounded to binary64, for finite arguments. The reciprocal gives the exponential of a negative
argument, in units of `2^-(4·fixBits)`. -/
def refExp (x : F64) : Option F64 :=
  match val64 x with
  | .fin neg num den =>
    if 1024 * den ≤ num then some (BitVec.ofNat 64 (if neg then 0 else infBits binary64))
    else
      let y := fixExp (num * fixOne / den)
      let e := y / 2 ^ 400
      (if neg then settle binary64 false (2 ^ (5 * fixBits) / (y + e)) (2 ^ (5 * fixBits) / (y - e) + 1) (4 * fixBits)
        else settle binary64 false (y - e) (y + e) fixBits).map (BitVec.ofNat 64)
  | _ => none

/-- `LOG10` correctly rounded to binary64, for finite positive arguments: the argument is `2^e·(1 + f)`, and the
logarithm of `1 + f` is twice the area hyperbolic tangent of `f / (2 + f)`. -/
def refLog10 (x : F64) : Option F64 :=
  match val64 x with
  | .fin neg num _ =>
    if neg = true ∨ num = 0 then none
    else if num = 2 ^ 1074 then some 0#64
    else
      let e := Nat.log2 num
      let z := (num - 2 ^ e) * fixOne / (num + 2 ^ e)
      let ln : Int := 2 * (fixAtanh z : Int) + ((e : Int) - 1074) * (fixLn2 : Int)
      let y : Int := if ln < 0 then -((ln.natAbs * fixOne / fixLn10 : Nat) : Int)
        else ((ln.natAbs * fixOne / fixLn10 : Nat) : Int)
      (settleAround binary64 y).map (BitVec.ofNat 64)
  | _ => none

/-- Doubles an angle `n` times, from its cosine. -/
def fixCosDouble : Nat → Int → Int
  | 0, c => c
  | n + 1, c => fixCosDouble n (2 * (fixMul c.natAbs c.natAbs : Int) - fixOne)

/-- `COS` correctly rounded to binary64, for finite arguments of magnitude below 8; the block asks for `[0, 2π]` only
(R171). -/
def refCos (x : F64) : Option F64 :=
  match val64 x with
  | .fin _ num den =>
    if 8 * den ≤ num then none
    else
      let t := num * fixOne / den / 2 ^ 8
      (settleAround binary64 (fixCosDouble 8 (cosSeries (fixMul t t) 64 1))).map (BitVec.ofNat 64)
  | _ => none

/-! ## The functions the block uses. -/

/-- A numerics function's result under the block's choice of functions: the reference's, where it has one, and else the
implementation's own (R8, decision D6). -/
def chosen {α : Type} (P : Params) (reference : Option α) (own : α) : α :=
  match P.numerics with
  | .reference => reference.getD own
  | .implementation => own

/-- `fl32(π)` (R144). -/
def piF32 : F32 := 0x40490FDB#32

/-- A result of `ATAN2` kept to `[−fl32(π), +fl32(π)]` (R144). -/
def withinPi (r : F32) : F32 :=
  if f32IsNaN r then 0#32 else f32Clamp r (f32Neg piF32) piF32

/-- The zero of the spec's `im = +0` and `im = −0` cases. -/
def f32IsZero (x : F32) : Bool := x == 0#32 || x == 0x80000000#32

/-- `ATAN2(y, x)` (R144): a zero `y` gives a zero or `fl32(π)` of its own sign, and every result lies in
`[−fl32(π), +fl32(π)]`. -/
def atan2 (P : Params) (y x : F32) : F32 :=
  if f32IsZero y && f32Lt 0#32 x then y
  else if f32IsZero y && f32Lt x 0#32 then (if y == 0#32 then piF32 else f32Neg piF32)
  else withinPi (chosen P (refAtan2 y x) (Config.atan2 y x))

/-- A binary64 result kept to `[lo, hi]`: any value of the interval as it is, any other replaced by a bound. -/
def f64Within (lo hi r : F64) : F64 :=
  if f64Lt lo r then (if f64Lt hi r then hi else r) else lo

/-- `1.0` in binary64. -/
def oneF64 : F64 := 0x3FF0000000000000#64

/-- The binary64 value just below 1, `1 − 2^-53`. -/
def belowOneF64 : F64 := 0x3FEFFFFFFFFFFFFF#64

/-- `−1024`, far below the arguments at which the exponential underflows binary64. -/
def expUnderflow : F64 := 0xC090000000000000#64

/-- `−2^-20`, which the argument of every audio rate lies below (R132). -/
def expNearZero : F64 := 0xBEB0000000000000#64

/-- `EXP(t)` (R132). As R132's range of `α` needs of every choice, the exponential of a value that is not positive lies
in `[0, 1]`, is below 1 for an argument below `−2^-20`, which makes `α` positive, and underflows to 0 for one below
`−1024` (DEDUCED, unsafe, notes/assumptions/4.md). -/
def exp (P : Params) (t : F64) : F64 :=
  let r := chosen P (refExp t) (Config.exp t)
  if f64Lt 0#64 t || val64 t == .nan then r
  else if f64Lt t expUnderflow then 0#64
  else f64Within 0#64 (if f64Lt t expNearZero then belowOneF64 else oneF64) r

/-- `2^-251`, which the power of every bin with subnormal components lies below (R179). -/
def subnormalPower : F64 := 0x3040000000000000#64

/-- `−90` and `−75`, around the decimal logarithms of the powers that subnormal components give, those of
`[2^-298, 2^-251)`. -/
def subnormalLog : F64 × F64 := (0xC056800000000000#64, 0xC052C00000000000#64)

/-- `LOG10(p)` (R177). As R179 says of every choice, the decibels of a bin with subnormal components are finite and very
negative, so the logarithm of a power below `2^-251` lies in `[−90, −75]`; that of any other finite positive value is
finite (DEDUCED, unsafe, notes/assumptions/4.md). -/
def log10 (P : Params) (p : F64) : F64 :=
  let r := chosen P (refLog10 p) (Config.log10 p)
  if f64Lt 0#64 p && f64Lt p subnormalPower then f64Within subnormalLog.1 subnormalLog.2 r
  else if f64IsFinite r then r else 0#64

/-- `COS(x)` (R171). -/
def cos (P : Params) (x : F64) : F64 :=
  chosen P (refCos x) (Config.cos x)

end Sys2Proof.Machine
end

