-- ==== Sys2Proof/Machine/Demod.lean ====
section
/-! DEFINITION. The FM demodulator, decimator and de-emphasis commands (spec/41_demod.md). -/

namespace Sys2Proof.Machine

/-! ## Configuration -/

/-- `D = max(1, sample_rate_hz div audio_rate_hz)` (R131). -/
def decimation (sampleRate audioRate : U32) : U32 := BitVec.ofNat 32 (max 1 (sampleRate.toNat / audioRate.toNat))

/-- `alpha_of(ar)`: `1 − exp(−(1/ar)/TAU)` in binary64, rounded once to binary32 (R132). -/
def alphaOf (P : Params) (ar : U32) : F32 :=
  let t1 := f64Div oneF64 (f64OfNat ar.toNat)
  let t2 := f64Div (f64Neg t1) P.tau
  f32OfF64 P (f64Sub oneF64 (exp P t2))

/-- `sample_rate_hz mod audio_rate_hz ≠ 0` (R133). -/
def ratesMismatch (sampleRate audioRate : U32) : Bool := sampleRate.toNat % audioRate.toNat != 0

/-- The demodulator just constructed (R130). -/
def DemodState.constructed (P : Params) (sampleRate audioRate : U32) : DemodState where
  valid := true
  sampleRate := sampleRate
  audioRate := audioRate
  D := decimation sampleRate audioRate
  alpha := alphaOf P audioRate
  prev := initialSample
  counter := 0#32
  sum := 0x00000000#32
  yprev := 0x00000000#32

/-- `DEMOD_INIT sample_rate_hz, audio_rate_hz` (R130). -/
def execDemodInit (sampleRate audioRate : U32) (s : State) : Host.Outcome State Fault Refusal :=
  onPort (.demodInit sampleRate audioRate) s fun _ =>
    require (audioRate != 0#32) .badOperand .demodInit s fun _ =>
      let dm := DemodState.constructed s.params sampleRate audioRate
      succeed [.u32 dm.D] ((s.setDm dm).warn (ratesMismatch sampleRate audioRate) .rateWarn)

/-! ## The stages -/

/-- `1.0` in binary32. -/
def oneF32 : F32 := 0x3F800000#32

/-- `conv(u)`: `fl32(fl32(u − IQ_OFFSET) / IQ_SCALE)` (R12, R140). -/
def conv (P : Params) (u : Byte) : F32 := f32Div P (f32Sub P (f32OfNat u.toNat) P.iqOffset) P.iqScale

/-- The sample of a byte pair, I first (R63, R141). -/
def sampleOf (P : Params) (i q : Byte) : CF32 := ⟨conv P i, conv P q⟩

/-- `cmul_conj(s, p) = s · conj(p)`: `re = ac + bd`, `im = bc − ad`, each operation rounded (R143). -/
def cmulConj (P : Params) (s p : CF32) : CF32 where
  re := f32Add P (f32Mul P s.re p.re) (f32Mul P s.im p.im)
  im := f32Sub P (f32Mul P s.im p.re) (f32Mul P s.re p.im)

/-- The phase difference of a sample and the one before it (R143, R144). -/
def phaseStep (P : Params) (s prev : CF32) : F32 :=
  let d := cmulConj P s prev
  atan2 P d.im d.re

/-- Stage 6: `y = α·avg + (1 − α)·y_prev`, `1 − α` computed in binary32 (R134, R148). -/
def deemphasise (P : Params) (alpha avg yprev : F32) : F32 :=
  f32Add P (f32Mul P alpha avg) (f32Mul P (f32Sub P oneF32 alpha) yprev)

/-- −32768 in binary32, `OUT_MIN` (R8, R149). -/
def outMin : F32 := 0xC7000000#32

/-- 32767 in binary32, `OUT_MAX` (R8, R149). -/
def outMax : F32 := 0x46FFFE00#32

/-- Stage 7, gain and clamp (R149). -/
def gainClamp (P : Params) (y : F32) : F32 := f32Clamp (f32Mul P y P.gain) outMin outMax

/-- Stage 7, quantisation: the clamped value rounded toward zero (R150). A NaN, which no run produces (R151), gives a
free value. -/
def quantise (v : F32) : I16 :=
  match exactTrunc (val32 v) with
  | some n => BitVec.ofInt 16 n
  | none => Config.nanSample v

/-- Stages 5 to 7 at the end of a window (R147 to R150): the demodulator and the sample it emits. -/
def closeWindow (P : Params) (dm : DemodState) : DemodState × I16 :=
  let avg := f32Div P dm.sum (f32OfNat dm.D.toNat)
  let y := deemphasise P dm.alpha avg dm.yprev
  ({ dm with sum := 0x00000000#32, counter := 0#32, yprev := y }, quantise (gainClamp P y))

/-- One byte pair through stages 1 to 7 (R135): the demodulator and the samples emitted, at most one. -/
def demodPair (P : Params) (dm : DemodState) (i q : Byte) : DemodState × List I16 :=
  let s := sampleOf P i q
  let dm1 := { dm with
    prev := s
    sum := f32Add P dm.sum (phaseStep P s dm.prev)
    counter := dm.counter + 1#32 }
  if dm1.counter = dm1.D then
    let out := closeWindow P dm1
    (out.1, [out.2])
  else (dm1, [])

/-- The pairs of a payload in order, from offset 0; an odd last byte is discarded (R135, R136). -/
def demodBytes (P : Params) (dm : DemodState) : List Byte → DemodState × List I16
  | i :: q :: rest =>
    let first := demodPair P dm i q
    let others := demodBytes P first.1 rest
    (others.1, first.2 ++ others.2)
  | _ => (dm, [])

/-- `DEMOD_PROCESS iq` (R135). -/
def execDemodProcess (iq : List Byte) (s : State) : Host.Outcome State Fault Refusal :=
  onPort (.demodProcess iq) s fun _ =>
    require s.dm.valid .notInit .demodProcess s fun _ =>
      let out := demodBytes s.params s.dm iq
      succeed [.i16s out.2] ((s.setDm out.1).warn (iq.length % 2 == 1) .oddDrop)

/-! ## Pull-mode front end -/

/-- The bytes taken from the ring, and the pad bytes that make up the deficit (R155). -/
def padded (P : Params) (need : Nat) (got : List Byte) : List Byte :=
  got ++ List.replicate (need - got.length) P.padByte

/-- `AUDIO_PULL.r frames` (R155): pop, pad, demodulate, in one step. -/
def execAudioPull (r : RingId) (frames : U32) (s : State) : Host.Outcome State Fault Refusal :=
  onPort (.audioPull r frames) s fun _ =>
    require ((s.ring r).valid && s.dm.valid) .notInit .audioPull s fun _ =>
      let need := bytesNeeded frames s.dm.D
      require (decide (need < 2 ^ 64)) .badOperand .audioPull s fun _ =>
        let h := s.drawBetween (s.ring r).cHeadSeen (s.ring r).head
        match (s.ring r).pop h need with
        | none => .fault .unwrittenByte
        | some (ring, got) =>
          let out := demodBytes s.params s.dm (padded s.params need got)
          require (out.2.length == frames.toNat) .pullMismatch .audioPull s fun _ =>
            succeed [.i16s out.2]
              (((s.afterDraw.setRing r ring).setDm out.1).warn (decide (got.length < need)) .underflow)

end Sys2Proof.Machine
end

