-- ==== Sys2Proof/Machine/Ring.lean ====
section
/-! DEFINITION. The SPSC byte ring commands (spec/40_ring.md). -/

namespace Sys2Proof.Machine

/-- `RING_INIT.r capacity` (R100). -/
def execRingInit (r : RingId) (capacity : U64) (s : State) : Host.Outcome State Fault Refusal :=
  onPort (.ringInit r capacity) s fun _ =>
    require (capacityLegal s.params capacity) .qci .ringInit s fun _ =>
      succeed [.bool true] (s.setRing r (RingState.constructed (BitVec.ofNat 6 (Nat.log2 capacity.toNat))))

/-- `RING_PUSH.r data` (R101): the tail it observes is drawn from `[p_tail_seen, tail]` (R70). -/
def execRingPush (r : RingId) (data : List Byte) (s : State) : Host.Outcome State Fault Refusal :=
  onPort (.ringPush r data) s fun _ =>
    require (s.ring r).valid .notInit .ringPush s fun _ =>
      let t := s.drawBetween (s.ring r).pTailSeen (s.ring r).tail
      let out := (s.ring r).push t data
      succeed [.bool out.2] (s.afterDraw.setRing r out.1)

/-- `RING_POP.r max` (R102): the head it observes is drawn from `[c_head_seen, head]` (R70). -/
def execRingPop (r : RingId) (max : U64) (s : State) : Host.Outcome State Fault Refusal :=
  onPort (.ringPop r max) s fun _ =>
    require (s.ring r).valid .notInit .ringPop s fun _ =>
      let h := s.drawBetween (s.ring r).cHeadSeen (s.ring r).head
      match (s.ring r).pop h max.toNat with
      | some out => succeed [.bytes out.2] (s.afterDraw.setRing r out.1)
      | none => .fault .unwrittenByte

end Sys2Proof.Machine
end

