-- ==== Sys2Proof/Machine/Spectrum.lean ====
section
/-! DEFINITION. The spectrum window and magnitude commands (spec/42_spectrum.md). -/

namespace Sys2Proof.Machine

/-- The binary64 value nearest 2π (R171). -/
def twoPi : F64 := 0x401921FB54442D18#64

/-- `0.5` in binary64. -/
def halfF64 : F64 := 0x3FE0000000000000#64

/-- `10` in binary64. -/
def tenF64 : F64 := 0x4024000000000000#64

/-- The periodic Hann window, in binary64 and rounded once to binary32 (R171). -/
def hann (P : Params) (n : U32) (k : Nat) : F32 :=
  let x := f64Div (f64Mul twoPi (f64OfNat k)) (f64OfNat n.toNat)
  f32OfF64 P (f64Sub halfF64 (f64Mul halfF64 (cos P x)))

/-- `window(win_sel, n, k, table)` (R171). -/
def windowEntry (P : Params) (winSel n : U32) (table : List F32) (k : Nat) : F32 :=
  if winSel = 0#32 then oneF32
  else if winSel = 1#32 then hann P n k
  else table.getD k 0#32

/-- The spectrum unit just configured (R170). -/
def SpecState.configured (P : Params) (n winSel : U32) (table : List F32) : SpecState where
  valid := true
  N := n
  winSel := winSel.setWidth 2
  win := (List.range n.toNat).map (windowEntry P winSel n table)

/-- `SPEC_INIT n, win_sel, table` (R170). -/
def execSpecInit (n winSel : U32) (table : List F32) (s : State) : Host.Outcome State Fault Refusal :=
  onPort (.specInit n winSel table) s fun _ =>
    require (specOperandsLegal s.params n winSel table) .badOperand .specInit s fun _ =>
      succeed [.bool true] (s.setSp (SpecState.configured s.params n winSel table))

/-- Sample `k` of a payload, paired from offset 0; `(+0.0, +0.0)` where the payload has fewer (R174). -/
def frameSample (P : Params) (iq : List Byte) (k : Nat) : CF32 :=
  if k < iq.length / 2 then sampleOf P (iq.getD (2 * k) 0#8) (iq.getD (2 * k + 1) 0#8) else ⟨0#32, 0#32⟩

/-- A real coefficient times each component (R175). -/
def weigh (P : Params) (w : F32) (x : CF32) : CF32 := ⟨f32Mul P w x.re, f32Mul P w x.im⟩

/-- The frame of a payload under a window (R173). -/
def windowFrame (P : Params) (sp : SpecState) (iq : List Byte) : List CF32 :=
  (List.range sp.N.toNat).map fun k => weigh P (sp.win.getD k 0#32) (frameSample P iq k)

/-- `SPEC_WINDOW iq` (R173). -/
def execSpecWindow (iq : List Byte) (s : State) : Host.Outcome State Fault Refusal :=
  onPort (.specWindow iq) s fun _ =>
    require s.sp.valid .notInit .specWindow s fun _ =>
      if s.sp.win.length < s.sp.N.toNat then .fault .windowEntryMissing
      else
        succeed [.cf32s (windowFrame s.params s.sp iq)]
          ((s.warn (iq.length % 2 == 1) .oddDrop).warn (decide (iq.length / 2 < s.sp.N.toNat)) .shortFrame)

/-- `mag_db(X)` (R177), with the special values of R179. -/
def magDb (P : Params) (x : CF32) : F32 :=
  if f32IsNaN x.re || f32IsNaN x.im then nanOf P x.re x.im
  else
    let re := f64OfF32 x.re
    let im := f64OfF32 x.im
    let p := f64Add (f64Mul re re) (f64Mul im im)
    match val64 p with
    | .inf _ => 0x7F800000#32
    | .nan => nanOf P x.re x.im
    | .fin _ num _ =>
      if num = 0 then 0xFF800000#32 else f32OfF64 P (f64Mul tenF64 (log10 P p))

/-- The signed frequency index of display element `i`: `i − (N div 2)` (R178, R182). -/
def displayIndex (N i : Nat) : Int := (i : Int) - (N / 2 : Nat)

/-- The signed frequency index of bin `j` in natural order: `j` for `j < N − N div 2`, and negative for the rest
(R181). -/
def binIndex (N j : Nat) : Int := if j < N - N / 2 then (j : Int) else (j : Int) - N

/-- The frequency that display element `i` stands for: `center + (i − N div 2)·rate/N` (R182). `center` and `rate` are
outside the block, so they are arguments here and no step depends on this. -/
def elementFrequency (center rate : ℚ) (N i : Nat) : ℚ := center + displayIndex N i * rate / N

/-- The bin that display element `i` shows, the one of its signed index: `bins[(i + N − N div 2) mod N]` (R176, R178,
R182). -/
def displayBin (N i : Nat) : Nat := (i + N - N / 2) % N

/-- The magnitudes of a frame's bins in display order (R176). -/
def magnitudes (P : Params) (N : Nat) (bins : List CF32) : List F32 :=
  (List.range N).map fun i => magDb P (bins.getD (displayBin N i) ⟨0#32, 0#32⟩)

/-- `SPEC_MAGDB bins` (R176). -/
def execSpecMagdb (bins : List CF32) (s : State) : Host.Outcome State Fault Refusal :=
  onPort (.specMagdb bins) s fun _ =>
    require s.sp.valid .notInit .specMagdb s fun _ =>
      require (bins.length == s.sp.N.toNat) .badOperand .specMagdb s fun _ =>
        succeed [.f32s (magnitudes s.params s.sp.N.toNat bins)] s

end Sys2Proof.Machine
end

