-- ==== Sys2Proof/Machine/Dispatch.lean ====
section
/-! DEFINITION. The meaning of every command, one arm each. -/

namespace Sys2Proof.Machine

def exec (i : Instr) (s : State) : Host.Outcome State Fault Refusal :=
  match i with
  | .nop => Sys2Proof.Machine.execNop s
  | .regRead num => Sys2Proof.Machine.execRegRead num s
  | .statusClear mask => Sys2Proof.Machine.execStatusClear mask s
  | .ringInit r capacity => Sys2Proof.Machine.execRingInit r capacity s
  | .ringPush r data => Sys2Proof.Machine.execRingPush r data s
  | .ringPop r max => Sys2Proof.Machine.execRingPop r max s
  | .demodInit sampleRate audioRate => Sys2Proof.Machine.execDemodInit sampleRate audioRate s
  | .demodProcess iq => Sys2Proof.Machine.execDemodProcess iq s
  | .audioPull r frames => Sys2Proof.Machine.execAudioPull r frames s
  | .specInit n winSel table => Sys2Proof.Machine.execSpecInit n winSel table s
  | .specWindow iq => Sys2Proof.Machine.execSpecWindow iq s
  | .specMagdb bins => Sys2Proof.Machine.execSpecMagdb bins s

end Sys2Proof.Machine
end

