-- ==== Sys2Proof/Machine/Step.lean ====
section
/-! DEFINITION. One step of the machine: the next event the environment presents (spec/60_exceptions.md R211). -/

namespace Sys2Proof.Machine

/-- A command presented on a port: decoded and run, or an `ILLEGAL` word (R81, R82, R84). A payload that is not the
operation's operand list is outside the interface (R85). -/
def runCommand (w : U32) (p : List Value) (s : State) : Host.Outcome State Fault Refusal :=
  match decode w p with
  | .ok i => exec i s
  | .error .payloadMismatch => .refused .payloadMismatch
  | .error .reservedBits => raiseIllegal w s
  | .error .unassignedOpcode => raiseIllegal w s
  | .error .badInst => raiseIllegal w s

/-- One step: the first pending event, whole (R211). With none pending the block is idle and keeps its state
(R216). -/
def step (s : State) : Host.Outcome State Fault Refusal :=
  match s.inbox with
  | [] => .next s
  | .reset :: rest => .next (s.resetEvent rest)
  | .command port w p :: rest => runCommand w p (s.accept port rest)

/-- The state with a table word's command pending before every other event, on a port that may issue it. Commands come
from outside the block (R75, R231), so this stands for an agent's presenting it (notes/assumptions/2.md). -/
def State.withFetchWord (s : State) (nbits w : Nat) : State :=
  let c := tableCommand nbits w
  { s with inbox := .command (homePort c.1 c.2) c.1 c.2 :: s.inbox }

end Sys2Proof.Machine
end

