-- ==== Sys2Proof/Safety.lean ====
section
/-! DEFINITION. The terms that claims are made in: the invariant of the block's state (spec/10_state.md R29, R35, R36,
R37), a ring as the queue of bytes it holds (spec/40_ring.md R105), what a command leaves unchanged, and a run that
did not end badly (spec/60_exceptions.md R203). -/

namespace Sys2Proof.Machine

/-! ## The invariant -/

/-- The bytes a ring holds, oldest first: those at the positions of `[tail, head)`; none where one of them was never
written (R62). -/
def RingState.contents (rs : RingState) : Option (List Byte) := memRead rs.cap rs.buf rs.tail rs.used.toNat

/-- The chain of R29, `p_tail_seen ≤ tail ≤ c_head_seen ≤ head ≤ p_tail_seen + C`, each read as its distance
from the least of them modulo `2^64`, for R29's unbounded counts (DEDUCED, safe, notes/assumptions/19.md). -/
def RingState.ordered (rs : RingState) : Prop :=
  (rs.tail - rs.pTailSeen).toNat ≤ (rs.cHeadSeen - rs.pTailSeen).toNat
    ∧ (rs.cHeadSeen - rs.pTailSeen).toNat ≤ (rs.head - rs.pTailSeen).toNat
    ∧ (rs.head - rs.pTailSeen).toNat ≤ rs.cap

/-- A ring's invariant: as reset left it while invalid (R45); else of a legal capacity (R24), its storage in canonical
form within the capacity (R25), its counters ordered (R29) and every byte it holds written (R62). -/
def RingState.Inv (P : Params) (rs : RingState) : Prop :=
  (rs.valid = false → rs = RingState.reset)
    ∧ (rs.valid = true →
      rs.k.toNat ≤ P.ringMaxLog2.val ∧ rs.buf.wf = true ∧ (∀ c ∈ rs.buf, c.1 < rs.cap) ∧ rs.ordered
        ∧ rs.contents.isSome = true)

/-- A binary32 value in `[0, 1]`. -/
def inUnitInterval (x : F32) : Bool := !f32IsNaN x && !f32Lt x 0#32 && !f32Lt oneF32 x

/-- The demodulator's invariant (R35): as reset left it while invalid (R45); else `counter < D`, `prev` the initial
sample or the sample of two bytes, and `alpha` in `[0, 1]`. -/
def DemodState.Inv (P : Params) (dm : DemodState) : Prop :=
  (dm.valid = false → dm = DemodState.reset)
    ∧ (dm.valid = true →
      dm.counter.toNat < dm.D.toNat ∧ (dm.prev = initialSample ∨ ∃ i q : Byte, dm.prev = sampleOf P i q)
        ∧ inUnitInterval dm.alpha = true)

/-- The spectrum unit's invariant (R36): as reset left it while invalid (R45); else a legal frame length, a legal
window selection, and one coefficient for each sample of a frame. -/
def SpecState.Inv (P : Params) (sp : SpecState) : Prop :=
  (sp.valid = false → sp = SpecState.reset)
    ∧ (sp.valid = true →
      1 ≤ sp.N.toNat ∧ sp.N.toNat ≤ P.fftNMax ∧ sp.winSel.toNat ≤ 2 ∧ sp.win.length = sp.N.toNat)

/-- The invariant of the block: its four units, and the reserved bits of `STATUS` zero (R37). -/
def State.Inv (s : State) : Prop :=
  s.ring0.Inv s.params ∧ s.ring1.Inv s.params ∧ s.dm.Inv s.params ∧ s.sp.Inv s.params
    ∧ s.status &&& ~~~statusDefined = 0#32

/-! ## What a command leaves unchanged -/

/-- Every part of the state but the rings, `STATUS`, the draws and the results. -/
def keepsUnits (s t : State) : Prop :=
  t.dm = s.dm ∧ t.sp = s.sp ∧ t.params = s.params ∧ t.inbox = s.inbox ∧ t.issuer = s.issuer

/-- The model's own fields, but for the draws and the results. -/
def keepsInterface (s t : State) : Prop := t.params = s.params ∧ t.inbox = s.inbox ∧ t.issuer = s.issuer

/-- The draws still to come. -/
def keepsDraws (s t : State) : Prop := t.draws = s.draws ∧ t.drawCount = s.drawCount

/-- One draw was made. -/
def oneDraw (s t : State) : Prop := t.draws = s.draws.tail ∧ t.drawCount = s.drawCount + 1

/-- One result was returned to the issuing port. -/
def returns (s t : State) (result : List Value) : Prop := t.results = s.results ++ [⟨s.issuer, result⟩]

/-- The other ring. -/
def otherRing : RingId → RingId
  | .r0 => .r1
  | .r1 => .r0

/-! ## Runs -/

/-- No fault or refusal bit is set: the run did not end badly (R203, R246). -/
def State.clean (s : State) : Bool := s.status &&& statusSticky == 0#32

/-- The results that a port's commands returned, in the port's order (R246). -/
def State.resultsOn (s : State) (p : Port) : List (List Value) :=
  (s.results.filter fun c => c.port = p).map Completion.result

/-- The registers of R40 and what they read: `STATUS` among them, and every coefficient of the window. -/
def State.registers (s : State) : List (Reg × Option U64) :=
  (regNumbers.map Prod.snd ++ (List.range s.sp.N.toNat).map Reg.spWin).map fun reg => (reg, readReg s reg)

/-- What is seen at the end of a run: every command's result, port by port, and every register (R246). -/
def State.observation (s : State) : List (Port × List (List Value)) × List (Reg × Option U64) :=
  ([Port.ctrl, Port.prod0, Port.prod1, Port.cons0, Port.cons1].map fun p => (p, s.resultsOn p), s.registers)

/-- The result the last command returned. -/
def State.lastResult (s : State) : List Value := (s.results.getLast?.map Completion.result).getD []

/-- The command that an event presents, where it presents one. -/
def Event.instr? : Event → Option Instr
  | .reset => none
  | .command _ w p => match decode w p with
    | .ok i => some i
    | .error _ => none

/-- The bytes that the step from `s` to `t` took into ring `r`: the data of a push that returned `ok = 1` (R101). -/
def bytesAccepted (r : RingId) (s t : State) : List Byte :=
  match s.inbox.head?.bind Event.instr? with
  | some (.ringPush q data) => if q = r ∧ t.lastResult = [.bool true] then data else []
  | _ => []

/-- The bytes that the step from `s` to `t` gave the consumer of ring `r`: the result of a pop (R102), or what a pull
took for the demodulator (R155), which are as many of the oldest bytes as the tail moved past. -/
def bytesDelivered (r : RingId) (s t : State) : List Byte :=
  match s.inbox.head?.bind Event.instr? with
  | some (.ringPop q _) =>
    if q = r then (match t.lastResult with
      | [.bytes data] => data
      | _ => []) else []
  | some (.audioPull q _) =>
    if q = r then ((s.ring r).contents.getD []).take ((t.ring r).tail - (s.ring r).tail).toNat else []
  | _ => []

/-- A run of `n` steps: the last state, the bytes taken into ring `r`, and the bytes its consumer was given. -/
def streamRun (r : RingId) : Nat → State → Option (State × List Byte × List Byte)
  | 0, s => some (s, [], [])
  | n + 1, s =>
    match step s with
    | .next t => (streamRun r n t).map fun out =>
        (out.1, bytesAccepted r s t ++ out.2.1, bytesDelivered r s t ++ out.2.2)
    | .fault _ => none
    | .refused _ => none

/-- The event neither resets the block nor constructs ring `r` anew. -/
def Event.leavesRing (r : RingId) (e : Event) : Prop :=
  e ≠ .reset ∧ ∀ capacity, e.instr? ≠ some (.ringInit r capacity)

/-- The event is a command. -/
def Event.isCommand : Event → Bool
  | .reset => false
  | .command _ _ _ => true

end Sys2Proof.Machine
end

