-- ==== Sys2Proof/Certificates/Slice0/Obligations.lean ====
section
/-! DEFINITION. The statements about the block, each formalising rules of spec/ named in its docstring. -/

open Sys2Proof Sys2Proof.Machine

/-! ## Words and payloads -/

/-- R80, R82, R83, R86: the decoder reads back every command that a port can present, with every operand. -/
def Obligations.DecodeEncodeAgree : Prop :=
  ∀ i : Instr, i.wellFormed = true → decode (encode i).1 (encode i).2 = .ok i

/-- R80, R85: a word and a payload that decode are the encoding of the command, so no bit of a word is dropped, and the
command is well formed. -/
def Obligations.DecodedWordIsEncoding : Prop :=
  ∀ (w : U32) (p : List Value) (i : Instr), decode w p = .ok i → encode i = (w, p) ∧ i.wellFormed = true

/-- R80, R82, R83: words written out from the spec's encodings decode to their commands. -/
def Obligations.WrittenWordsDecode : Prop :=
  decode 0b00000000000000000000000000000000#32 [] = .ok .nop
    ∧ decode 0b00000000000000000000000100010001#32 [.bytes [7#8]] = .ok (.ringPush .r1 [7#8])
    ∧ decode 0b00000000000000000000000000100000#32 [.u32 1920000#32, .u32 48000#32]
      = .ok (.demodInit 1920000#32 48000#32)
    ∧ decode 0b00000000000000000000000000100010#32 [.u32 48#32] = .ok (.audioPull .r0 48#32)
    ∧ decode 0b00000000000000000000000000110010#32 [.cf32s []] = .ok (.specMagdb [])

/-- R81, R82, R84: a word with a reserved bit set, an unassigned `OP`, or an `INST` that is not a legal one for its
operation, sets `ILLEGAL` and changes nothing else; one result goes back to the port. -/
def Obligations.IllegalWordOnlySetsIllegal : Prop :=
  ∀ (s : State) (port : Port) (w : U32) (p : List Value) (rest : List Event),
    s.inbox = .command port w p :: rest →
    (w.toNat / 2 ^ 12 ≠ 0
      ∨ (0x03 ≤ w.toNat % 256 ∧ w.toNat % 256 ≤ 0x0F) ∨ (0x13 ≤ w.toNat % 256 ∧ w.toNat % 256 ≤ 0x1F)
      ∨ (0x23 ≤ w.toNat % 256 ∧ w.toNat % 256 ≤ 0x2F) ∨ 0x33 ≤ w.toNat % 256
      ∨ ((w.toNat % 256 = 0x10 ∨ w.toNat % 256 = 0x11 ∨ w.toNat % 256 = 0x12 ∨ w.toNat % 256 = 0x22)
        ∧ 2 ≤ w.toNat / 256)
      ∨ (¬ (w.toNat % 256 = 0x10 ∨ w.toNat % 256 = 0x11 ∨ w.toNat % 256 = 0x12 ∨ w.toNat % 256 = 0x22)
        ∧ 1 ≤ w.toNat / 256)) →
    ∃ result, step s = .next { s with
      inbox := rest
      issuer := port
      status := s.status ||| 0x1#32
      results := s.results ++ [⟨port, result⟩] }

/-! ## Steps -/

/-- R211: a step takes the first pending command; where its word and payload are those of a well-formed instruction,
the step is `exec` of that instruction, with the command taken out of the inbox and its port as the issuer. That the
pending commands stand in one list is the model's choice (notes/assumptions/2.md). -/
def Obligations.StepRunsDecodedInstr : Prop :=
  ∀ (s : State) (port : Port) (w : U32) (p : List Value) (rest : List Event) (i : Instr),
    s.inbox = .command port w p :: rest → decode w p = .ok i → i.wellFormed = true →
    step s = exec i { s with inbox := rest, issuer := port }

/-- R83, R85 (spec/93_implementation_defined.md I13): `exec` refuses no command, in any state; a step refuses a legal
word with a payload that is not its operation's operand list, which is outside the interface, and refuses nothing else
(notes/assumptions/9.md). -/
def Obligations.OnlyMismatchedPayloadRefused : Prop :=
  (∀ (i : Instr) (s : State) (why : Refusal), exec i s ≠ .refused why)
    ∧ (∀ (s : State) (port : Port) (w : U32) (p : List Value) (rest : List Event),
      s.inbox = .command port w p :: rest → decode w p = .error .payloadMismatch →
      step s = .refused .payloadMismatch)
    ∧ ∀ (s : State) (why : Refusal), step s = .refused why →
      why = .payloadMismatch
        ∧ ∃ port w p rest, s.inbox = .command port w p :: rest ∧ decode w p = .error .payloadMismatch

/-- R216: a block whose ports issue no commands keeps all its state. That such a block takes a step at all is the
model's choice (notes/assumptions/12.md). -/
def Obligations.IdleBlockKeepsState : Prop := ∀ s : State, s.inbox = [] → step s = .next s

/-- R45, R230: the reset event gives every piece of the block's state its reset value, the sticky bits among them.
That the event stands in the inbox, and leaves the model's own fields as they are, is the model's choice
(notes/assumptions/11.md). -/
def Obligations.ResetEventRestoresResetValues : Prop :=
  ∀ (s : State) (rest : List Event), s.inbox = .reset :: rest →
    ∃ t, step s = .next t
      ∧ (∀ r, (t.ring r).valid = false ∧ (t.ring r).k = 0#6 ∧ (t.ring r).head = 0#64 ∧ (t.ring r).tail = 0#64
          ∧ (t.ring r).pTailSeen = 0#64 ∧ (t.ring r).cHeadSeen = 0#64 ∧ ∀ a, (t.ring r).buf.read a = none)
      ∧ t.dm.valid = false ∧ t.dm.sampleRate = 0#32 ∧ t.dm.audioRate = 0#32 ∧ t.dm.D = 0#32
      ∧ t.dm.alpha = 0x00000000#32 ∧ t.dm.prev = ⟨0x3F800000#32, 0x00000000#32⟩ ∧ t.dm.counter = 0#32
      ∧ t.dm.sum = 0x00000000#32 ∧ t.dm.yprev = 0x00000000#32
      ∧ t.sp.valid = false ∧ t.sp.N = 0#32 ∧ t.sp.winSel = 0#2 ∧ t.sp.win = []
      ∧ t.status = 0#32
      ∧ t.params = s.params ∧ t.inbox = rest ∧ t.results = s.results ∧ t.issuer = s.issuer ∧ keepsDraws s t

/-- R29, R35, R36, R37, R45: the invariant holds right after reset. -/
def Obligations.InvariantAtReset : Prop := State.reset.Inv

/-- R29, R35, R36, R37, R107: every step keeps the invariant of the block's state, with parameters that R8 admits. That
`alpha` stays in `[0, 1]` rests on the model's bounds on `EXP` (notes/assumptions/4.md), and the chain of R29 is read as
distances modulo `2^64` (notes/assumptions/19.md). -/
def Obligations.InvariantKeptByStep : Prop :=
  ∀ s t : State, s.params.admissible → s.Inv → step s = .next t → t.Inv

/-- R62, R36: from a state that keeps the invariant, no step reads a byte that nothing wrote or a window coefficient
that the table does not hold: no step faults. The two faults are the model's (notes/assumptions/7.md). -/
def Obligations.NoStepFaults : Prop := ∀ s : State, s.Inv → ∀ f, step s ≠ .fault f

/-- R157: from a state that keeps the invariant, no step raises `PULL_MISMATCH`. -/
def Obligations.PullMismatchNeverRaised : Prop :=
  ∀ s t : State, s.Inv → step s = .next t → hasCondition .pullMismatch s.status = false →
    hasCondition .pullMismatch t.status = false

/-- R25, R61: every step keeps each ring's storage in canonical form, in every state. -/
def Obligations.StorageStaysCanonical : Prop :=
  ∀ s t : State, s.ring0.buf.wf = true → s.ring1.buf.wf = true → step s = .next t →
    t.ring0.buf.wf = true ∧ t.ring1.buf.wf = true

/-- R38, R203: a fault or refusal bit, once set, stays set through every command. -/
def Obligations.FaultBitsSticky : Prop :=
  ∀ s t : State, s.inbox.head? ≠ some .reset → step s = .next t →
    ∀ b : Nat, (b ≤ 3 ∨ b = 8 ∨ b = 9) → s.status.getLsbD b = true → t.status.getLsbD b = true

/-- R38: a warning bit is cleared only by `STATUS_CLEAR`. -/
def Obligations.WarningsClearedOnlyByStatusClear : Prop :=
  ∀ (i : Instr) (s t : State), (∀ mask, i ≠ .statusClear mask) → exec i s = .next t →
    ∀ b : Nat, s.status.getLsbD b = true → t.status.getLsbD b = true

/-- R22, R87: a command that completes returns exactly one result, to its own port, and is taken from the inbox. The
inbox and the list of results are the model's own (notes/assumptions/2.md, notes/assumptions/10.md). -/
def Obligations.OneResultPerCommand : Prop :=
  ∀ (s t : State) (port : Port) (w : U32) (p : List Value) (rest : List Event),
    s.inbox = .command port w p :: rest → step s = .next t →
    t.inbox = rest ∧ ∃ result, t.results = s.results ++ [⟨port, result⟩]

/-- R201, R87: where a command sets a fault or refusal bit that was clear, that bit and the failure result are its
whole effect. -/
def Obligations.FaultHasNoOtherEffect : Prop :=
  ∀ (i : Instr) (s t : State) (c : Condition), conditionClass c ≠ .warning → exec i s = .next t →
    hasCondition c s.status = false → hasCondition c t.status = true →
    t = { s with
      status := s.status ||| BitVec.ofNat 32 (2 ^ conditionBit c)
      results := s.results ++ [⟨s.issuer, failResult i.opcode⟩] }

/-- R205: the port table. -/
def Obligations.PortTableHolds : Prop :=
  (∀ p, portAllowed .nop p = true) ∧ (∀ n p, portAllowed (.regRead n) p = true)
    ∧ (∀ m p, portAllowed (.statusClear m) p = true ↔ p = .ctrl)
    ∧ (∀ r c p, portAllowed (.ringInit r c) p = true ↔ p = .ctrl)
    ∧ (∀ r d p, portAllowed (.ringPush r d) p = true ↔ p = Port.producer r)
    ∧ (∀ r m p, portAllowed (.ringPop r m) p = true ↔ p = Port.consumer r)
    ∧ (∀ a b p, portAllowed (.demodInit a b) p = true ↔ p = .ctrl)
    ∧ (∀ d p, portAllowed (.demodProcess d) p = true ↔ p = .cons0)
    ∧ (∀ r f p, portAllowed (.audioPull r f) p = true ↔ r = .r0 ∧ p = .cons0)
    ∧ (∀ n w t p, portAllowed (.specInit n w t) p = true ↔ p = .ctrl)
    ∧ (∀ d p, portAllowed (.specWindow d) p = true ↔ p = .cons1)
    ∧ (∀ b p, portAllowed (.specMagdb b) p = true ↔ p = .cons1)

/-- R206, R201: a command on a port that R205 does not allow raises `PORT_VIOLATION` and has no effect. -/
def Obligations.WrongPortHasNoEffect : Prop :=
  ∀ (i : Instr) (s : State), portAllowed i s.issuer = false →
    exec i s = .next { s with
      status := s.status ||| 0x200#32
      results := s.results ++ [⟨s.issuer, failResult i.opcode⟩] }

/-- R200, R204, R201: a data command on its port, whose unit was never constructed, raises `NOT_INIT`, whatever its
operands, and has no effect. -/
def Obligations.DataCommandNeedsItsUnit : Prop :=
  ∀ (i : Instr) (s : State), portAllowed i s.issuer = true →
    ((∃ r data, i = .ringPush r data ∧ (s.ring r).valid = false)
      ∨ (∃ r max, i = .ringPop r max ∧ (s.ring r).valid = false)
      ∨ (∃ iq, i = .demodProcess iq ∧ s.dm.valid = false)
      ∨ (∃ r frames, i = .audioPull r frames ∧ ((s.ring r).valid = false ∨ s.dm.valid = false))
      ∨ (∃ iq, i = .specWindow iq ∧ s.sp.valid = false)
      ∨ (∃ bins, i = .specMagdb bins ∧ s.sp.valid = false)) →
    exec i s = .next { s with
      status := s.status ||| 0x4#32
      results := s.results ++ [⟨s.issuer, failResult i.opcode⟩] }

/-- R212: `DEMOD` state is touched only by `CONS0` and by `DEMOD_INIT` on `CTRL`; `SPEC` state only by `SPEC_INIT` on
`CTRL`. -/
def Obligations.UnitsTouchedOnlyByOwners : Prop :=
  ∀ (i : Instr) (s t : State), exec i s = .next t →
    (t.dm ≠ s.dm → s.issuer = .cons0 ∨ (s.issuer = .ctrl ∧ ∃ a b, i = .demodInit a b))
      ∧ (t.sp ≠ s.sp → s.issuer = .ctrl ∧ ∃ n w table, i = .specInit n w table)

/-- R24, R26, R27: `head` changes only by the producer port's `RING_PUSH`, `tail` only by a command of the consumer
port, and `valid` and `k` not at all, but by `RING_INIT`. -/
def Obligations.RingCountersHaveOneWriter : Prop :=
  ∀ (i : Instr) (s t : State) (r : RingId), (∀ capacity, i ≠ .ringInit r capacity) → exec i s = .next t →
    (t.ring r).valid = (s.ring r).valid ∧ (t.ring r).k = (s.ring r).k
      ∧ ((t.ring r).head ≠ (s.ring r).head → s.issuer = Port.producer r ∧ ∃ data, i = .ringPush r data)
      ∧ ((t.ring r).tail ≠ (s.ring r).tail → s.issuer = Port.consumer r)

/-- R8, R9: no step writes the parameters, which stand in the state as the model's own field
(notes/assumptions/1.md). -/
def Obligations.ParametersFixed : Prop := ∀ s t : State, step s = .next t → t.params = s.params

/-! ## Control -/

/-- R190: `NOP` on any port changes nothing but the results. -/
def Obligations.NopChangesNothing : Prop :=
  ∀ s : State, exec .nop s = .next { s with results := s.results ++ [⟨s.issuer, []⟩] }

/-- R40 to R44, R69, R191: `REG_READ` of every number below `0x0001_0000` that R40 assigns returns its content on any
port and has no side effect. -/
def Obligations.RegReadReturnsContent : Prop :=
  ∀ (s : State) (num : Nat) (value : Nat),
    (num, value) ∈ [
      (0x00, 0x464D4431), (0x01, s.status.toNat % 2 ^ 10),
      (0x10, if s.ring0.valid then 1 + 2 ^ 8 * s.ring0.k.toNat else 0), (0x11, s.ring0.head.toNat),
      (0x12, s.ring0.tail.toNat), (0x13, (2 ^ 64 + s.ring0.head.toNat - s.ring0.tail.toNat) % 2 ^ 64),
      (0x18, if s.ring1.valid then 1 + 2 ^ 8 * s.ring1.k.toNat else 0), (0x19, s.ring1.head.toNat),
      (0x1A, s.ring1.tail.toNat), (0x1B, (2 ^ 64 + s.ring1.head.toNat - s.ring1.tail.toNat) % 2 ^ 64),
      (0x20, if s.dm.valid then 1 else 0), (0x21, s.dm.sampleRate.toNat), (0x22, s.dm.audioRate.toNat),
      (0x23, s.dm.D.toNat), (0x24, s.dm.alpha.toNat), (0x25, s.dm.prev.re.toNat), (0x26, s.dm.prev.im.toNat),
      (0x27, s.dm.counter.toNat), (0x28, s.dm.sum.toNat), (0x29, s.dm.yprev.toNat),
      (0x30, (if s.sp.valid then 1 else 0) + 2 ^ 8 * s.sp.winSel.toNat), (0x31, s.sp.N.toNat)] →
    exec (.regRead (BitVec.ofNat 32 num)) s
      = .next { s with results := s.results ++ [⟨s.issuer, [.u64 (BitVec.ofNat 64 value)]⟩] }

/-- R40, R191: `REG_READ` of `0x0001_0000 + k` returns the window coefficient `k` for `k < sp.N`. -/
def Obligations.RegReadReturnsWindow : Prop :=
  ∀ (s : State) (num : U32) (k : Nat) (w : F32),
    num.toNat = 0x10000 + k → k < s.sp.N.toNat → s.sp.win[k]? = some w →
    exec (.regRead num) s = .next { s with results := s.results ++ [⟨s.issuer, [.u64 (w.setWidth 64)]⟩] }

/-- R191, R201: `REG_READ` of a number that R40 does not assign, `SP_WIN[k]` with `k ≥ sp.N` among them, raises
`BAD_OPERAND`, returns 0 and has no other effect. -/
def Obligations.RegReadUnassignedFaults : Prop :=
  ∀ (s : State) (num : U32),
    num.toNat ∉ [0x00, 0x01, 0x10, 0x11, 0x12, 0x13, 0x18, 0x19, 0x1A, 0x1B, 0x20, 0x21, 0x22, 0x23, 0x24, 0x25, 0x26,
      0x27, 0x28, 0x29, 0x30, 0x31] →
    ¬ (0x10000 ≤ num.toNat ∧ num.toNat - 0x10000 < s.sp.N.toNat) →
    exec (.regRead num) s = .next { s with
      status := s.status ||| 0x2#32
      results := s.results ++ [⟨s.issuer, [.u64 0#64]⟩] }

/-- R192: `STATUS_CLEAR` on `CTRL` clears the warning bits its mask has, and changes nothing else. -/
def Obligations.StatusClearClearsWarnings : Prop :=
  ∀ (s : State) (mask : U32), s.issuer = .ctrl →
    ∃ t, exec (.statusClear mask) s = .next t
      ∧ (∀ b, t.status.getLsbD b = (s.status.getLsbD b && !(decide (4 ≤ b ∧ b ≤ 7) && mask.getLsbD b)))
      ∧ t.ring0 = s.ring0 ∧ t.ring1 = s.ring1 ∧ keepsUnits s t ∧ keepsDraws s t ∧ returns s t []

/-! ## Rings -/

/-- R100, R232: `RING_INIT` on `CTRL` with a capacity `2^k`, `k ≤ RING_MAX_LOG2`, leaves ring `r` valid and empty with
that capacity and no byte written, and changes nothing else. -/
def Obligations.RingInitConstructs : Prop :=
  ∀ (s : State) (r : RingId) (capacity : U64) (k : Nat), s.issuer = .ctrl → k ≤ s.params.ringMaxLog2.val →
    capacity.toNat = 2 ^ k →
    ∃ t, exec (.ringInit r capacity) s = .next t
      ∧ (t.ring r).valid = true ∧ (t.ring r).k.toNat = k ∧ (t.ring r).head = 0#64 ∧ (t.ring r).tail = 0#64
      ∧ (t.ring r).pTailSeen = 0#64 ∧ (t.ring r).cHeadSeen = 0#64 ∧ (∀ a, (t.ring r).buf.read a = none)
      ∧ t.ring (otherRing r) = s.ring (otherRing r) ∧ t.status = s.status
      ∧ keepsUnits s t ∧ keepsDraws s t ∧ returns s t [.bool true]

/-- R100, R88, R201: `RING_INIT` on `CTRL` with any other capacity raises `QCI`, returns `ok = 0` and leaves the ring
exactly as it was. -/
def Obligations.RingInitRejectsBadCapacity : Prop :=
  ∀ (s : State) (r : RingId) (capacity : U64), s.issuer = .ctrl →
    (∀ k : Nat, k ≤ s.params.ringMaxLog2.val → capacity.toNat ≠ 2 ^ k) →
    exec (.ringInit r capacity) s = .next { s with
      status := s.status ||| 0x8#32
      results := s.results ++ [⟨s.issuer, [.bool false]⟩] }

/-- R15, R70: a draw lies between its bounds, and every value between them can be drawn. "Between" is the distance from
the lower bound modulo `2^64`, for any two bounds: the model's reading of R70's unbounded counts, with which it agrees
under the invariant (notes/assumptions/19.md). A list of the environment's inputs, which is the model's own, brings each
value about (notes/assumptions/3.md). -/
def Obligations.DrawsCoverTheirRange : Prop :=
  (∀ (s : State) (lo hi : U64), (s.drawBetween lo hi - lo).toNat ≤ (hi - lo).toNat)
    ∧ ∀ (s : State) (lo hi x : U64) (later : List Nat), (x - lo).toNat ≤ (hi - lo).toNat →
      { s with draws := (x - lo).toNat :: later }.drawBetween lo hi = x

/-- R101, R61: `RING_PUSH` of data that fits, by the tail it observes, writes the bytes at the positions from `head`
on, moves `head` past them and returns `ok = 1`; every other byte of storage, and everything else, is unchanged. -/
def Obligations.RingPushAccepts : Prop :=
  ∀ (s : State) (r : RingId) (data : List Byte) (seen : U64), s.issuer = Port.producer r → (s.ring r).valid = true →
    seen = s.drawBetween (s.ring r).pTailSeen (s.ring r).tail →
    data.length + ((s.ring r).head - seen).toNat ≤ 2 ^ (s.ring r).k.toNat →
    ∃ t, exec (.ringPush r data) s = .next t
      ∧ (t.ring r).head = (s.ring r).head + BitVec.ofNat 64 data.length ∧ (t.ring r).pTailSeen = seen
      ∧ (∀ i, i < data.length →
        (t.ring r).buf.read (((s.ring r).head + BitVec.ofNat 64 i).toNat % 2 ^ (s.ring r).k.toNat) = data[i]?)
      ∧ (∀ a, (∀ i, i < data.length → a ≠ ((s.ring r).head + BitVec.ofNat 64 i).toNat % 2 ^ (s.ring r).k.toNat) →
        (t.ring r).buf.read a = (s.ring r).buf.read a)
      ∧ (t.ring r).valid = true ∧ (t.ring r).k = (s.ring r).k ∧ (t.ring r).tail = (s.ring r).tail
      ∧ (t.ring r).cHeadSeen = (s.ring r).cHeadSeen
      ∧ t.ring (otherRing r) = s.ring (otherRing r) ∧ t.status = s.status
      ∧ keepsUnits s t ∧ oneDraw s t ∧ returns s t [.bool true]

/-- R101, R103: `RING_PUSH` of data that does not fit, by the tail it observes, returns `ok = 0` and changes only the
hidden bound `p_tail_seen`. -/
def Obligations.RingPushFullChangesNothing : Prop :=
  ∀ (s : State) (r : RingId) (data : List Byte) (seen : U64), s.issuer = Port.producer r → (s.ring r).valid = true →
    seen = s.drawBetween (s.ring r).pTailSeen (s.ring r).tail →
    2 ^ (s.ring r).k.toNat < data.length + ((s.ring r).head - seen).toNat →
    ∃ t, exec (.ringPush r data) s = .next t
      ∧ t.ring r = { s.ring r with pTailSeen := seen }
      ∧ t.ring (otherRing r) = s.ring (otherRing r) ∧ t.status = s.status
      ∧ keepsUnits s t ∧ oneDraw s t ∧ returns s t [.bool false]

/-- R102, R104: `RING_POP` of up to `max` bytes returns the `n = min(max, h − tail)` oldest bytes, `h` the head it
observes, and advances `tail` by exactly `n`; storage and everything else are unchanged. -/
def Obligations.RingPopDelivers : Prop :=
  ∀ (s : State) (r : RingId) (max seen : U64) (n : Nat) (held : List Byte), s.issuer = Port.consumer r →
    (s.ring r).valid = true → (s.ring r).Inv s.params → (s.ring r).contents = some held →
    seen = s.drawBetween (s.ring r).cHeadSeen (s.ring r).head →
    n = min max.toNat (seen - (s.ring r).tail).toNat →
    n ≤ held.length ∧ ∃ t, exec (.ringPop r max) s = .next t
      ∧ (t.ring r).tail = (s.ring r).tail + BitVec.ofNat 64 n ∧ (t.ring r).cHeadSeen = seen
      ∧ (∀ a, (t.ring r).buf.read a = (s.ring r).buf.read a)
      ∧ (t.ring r).valid = true ∧ (t.ring r).k = (s.ring r).k ∧ (t.ring r).head = (s.ring r).head
      ∧ (t.ring r).pTailSeen = (s.ring r).pTailSeen
      ∧ t.ring (otherRing r) = s.ring (otherRing r) ∧ t.status = s.status
      ∧ keepsUnits s t ∧ oneDraw s t ∧ returns s t [.bytes (held.take n)]

/-- R68, R71: seen as the queue of the bytes it holds, a ring takes an accepted push at its end and gives a pop from its
front, in every order of its commands. -/
def Obligations.RingIsAQueue : Prop :=
  ∀ (s t : State) (r : RingId) (held : List Byte), (s.ring r).Inv s.params → (s.ring r).contents = some held →
    (∀ data, exec (.ringPush r data) s = .next t →
      (t.ring r).contents = some (if t.lastResult = [.bool true] then held ++ data else held))
    ∧ (∀ max, exec (.ringPop r max) s = .next t →
      ∃ data rest, t.lastResult = [.bytes data] ∧ held = data ++ rest ∧ (t.ring r).contents = some rest)

/-- R105, R106: over any run, with any interleaving of the ports and any draws, in which ring `r` is neither reset nor
constructed anew, what its consumer was given, followed by what the ring still holds, is what the ring held followed by
the data of every accepted push. From an empty ring the delivered stream is a prefix of the accepted one, and equal to
it once the ring is drained. -/
def Obligations.RingStreamEquality : Prop :=
  ∀ (r : RingId) (n : Nat) (s u : State) (held accepted delivered : List Byte), s.params.admissible → s.Inv →
    (∀ e ∈ s.inbox, e.leavesRing r) → (s.ring r).contents = some held →
    streamRun r n s = some (u, accepted, delivered) →
    (∃ left, (u.ring r).contents = some left ∧ delivered ++ left = held ++ accepted)
      ∧ (held = [] → delivered <+: accepted ∧ ((u.ring r).used = 0#64 → delivered = accepted))

/-- R3, R72: a command that names one ring, or none, leaves the other ring unchanged. -/
def Obligations.RingsIndependent : Prop :=
  ∀ (i : Instr) (s t : State) (r : RingId), i.ring? ≠ some r → exec i s = .next t → t.ring r = s.ring r

/-! ## Demodulator -/

/-- R130 to R133, R31 to R34: `DEMOD_INIT` on `CTRL` with a nonzero audio rate stores the rates, `D`, and `α` as the
formula of R132 gives it, starts a window at `1 + 0j` with the filter at rest, warns of a rate mismatch, and returns
`D`. -/
def Obligations.DemodInitConstructs : Prop :=
  ∀ (s : State) (sr ar : U32), s.issuer = .ctrl → ar ≠ 0#32 →
    ∃ t, exec (.demodInit sr ar) s = .next t
      ∧ t.dm.valid = true ∧ t.dm.sampleRate = sr ∧ t.dm.audioRate = ar
      ∧ t.dm.D.toNat = max 1 (sr.toNat / ar.toNat)
      ∧ t.dm.alpha = f32OfF64 s.params (f64Sub 0x3FF0000000000000#64 (exp s.params
          (f64Div (f64Neg (f64Div 0x3FF0000000000000#64 (f64OfNat ar.toNat))) s.params.tau)))
      ∧ t.dm.prev = ⟨0x3F800000#32, 0x00000000#32⟩ ∧ t.dm.counter = 0#32 ∧ t.dm.sum = 0x00000000#32
      ∧ t.dm.yprev = 0x00000000#32
      ∧ t.status = (if sr.toNat % ar.toNat ≠ 0 then s.status ||| 0x10#32 else s.status)
      ∧ t.ring0 = s.ring0 ∧ t.ring1 = s.ring1 ∧ t.sp = s.sp ∧ keepsInterface s t ∧ keepsDraws s t
      ∧ returns s t [.u32 t.dm.D]

/-- R130, R201: `DEMOD_INIT` with `audio_rate_hz = 0` raises `BAD_OPERAND`, returns 0 and leaves the demodulator as it
was. -/
def Obligations.DemodInitZeroRateFaults : Prop :=
  ∀ (s : State) (sr : U32), s.issuer = .ctrl →
    exec (.demodInit sr 0#32) s = .next { s with
      status := s.status ||| 0x2#32
      results := s.results ++ [⟨s.issuer, [.u32 0#32]⟩] }

/-- R35, R132: `α` lies in `(0, 1]` for every audio rate `ar ≥ 1`, and is `1.0` exactly for `ar = 1`, with the source's
literals and any numerics functions. It rests on the model's bounds on `EXP`, read from these rules
(notes/assumptions/4.md). -/
def Obligations.AlphaInUnitInterval : Prop :=
  ∀ (P : Params) (ar : U32), P.sourceLiterals = true → ar ≠ 0#32 →
    inUnitInterval (alphaOf P ar) = true ∧ f32Lt 0#32 (alphaOf P ar) = true
      ∧ (ar = 1#32 → alphaOf P ar = 0x3F800000#32)

/-- R137, R136: from a counter below `D`, `DEMOD_PROCESS` on `CONS0` returns exactly `(c0 + P) div D` samples and leaves
the counter at `(c0 + P) mod D`, `P` the whole pairs of its payload; it warns of an odd length and touches nothing but
the demodulator. -/
def Obligations.DemodProcessCount : Prop :=
  ∀ (s : State) (iq : List Byte), s.issuer = .cons0 → s.dm.valid = true → s.dm.counter.toNat < s.dm.D.toNat →
    ∃ t pcm, exec (.demodProcess iq) s = .next t ∧ returns s t [.i16s pcm]
      ∧ pcm.length = (s.dm.counter.toNat + iq.length / 2) / s.dm.D.toNat
      ∧ t.dm.counter.toNat = (s.dm.counter.toNat + iq.length / 2) % s.dm.D.toNat
      ∧ t.dm.valid = true ∧ t.dm.sampleRate = s.dm.sampleRate ∧ t.dm.audioRate = s.dm.audioRate ∧ t.dm.D = s.dm.D
      ∧ t.dm.alpha = s.dm.alpha
      ∧ t.status = (if iq.length % 2 = 1 then s.status ||| 0x20#32 else s.status)
      ∧ t.ring0 = s.ring0 ∧ t.ring1 = s.ring1 ∧ t.sp = s.sp ∧ keepsInterface s t ∧ keepsDraws s t

/-- R140 to R150: one byte pair through the stages. Its sample becomes `prev`, its phase difference against the old
`prev` is added to the sum, and the pair that fills the window gives the averaged, de-emphasised, scaled, clamped and
truncated sample and clears the window. A payload of no pair, empty or of one byte, returns no sample and leaves the
whole demodulator as it was (R135), so `prev`, the sum and the filter too. -/
def Obligations.DemodPairThroughStages : Prop :=
  ∀ (s : State) (i q : Byte) (P : Params) (a b c d re im phi sum avg y : F32), P = s.params → s.issuer = .cons0 →
    s.dm.valid = true →
    a = f32Div P (f32Sub P (f32OfNat i.toNat) P.iqOffset) P.iqScale →
    b = f32Div P (f32Sub P (f32OfNat q.toNat) P.iqOffset) P.iqScale →
    c = s.dm.prev.re → d = s.dm.prev.im →
    re = f32Add P (f32Mul P a c) (f32Mul P b d) → im = f32Sub P (f32Mul P b c) (f32Mul P a d) →
    phi = atan2 P im re → sum = f32Add P s.dm.sum phi → avg = f32Div P sum (f32OfNat s.dm.D.toNat) →
    y = f32Add P (f32Mul P s.dm.alpha avg) (f32Mul P (f32Sub P 0x3F800000#32 s.dm.alpha) s.dm.yprev) →
    (s.dm.counter + 1#32 = s.dm.D →
      exec (.demodProcess [i, q]) s = .next { s with
        dm := { s.dm with prev := ⟨a, b⟩, sum := 0x00000000#32, counter := 0#32, yprev := y }
        results := s.results ++ [⟨s.issuer,
          [.i16s [quantise (f32Clamp (f32Mul P y P.gain) 0xC7000000#32 0x46FFFE00#32)]]⟩] })
    ∧ (s.dm.counter + 1#32 ≠ s.dm.D →
      exec (.demodProcess [i, q]) s = .next { s with
        dm := { s.dm with prev := ⟨a, b⟩, sum := sum, counter := s.dm.counter + 1#32 }
        results := s.results ++ [⟨s.issuer, [.i16s []]⟩] })
    ∧ exec (.demodProcess []) s = .next { s with results := s.results ++ [⟨s.issuer, [.i16s []]⟩] }
    ∧ exec (.demodProcess [i]) s = .next { s with
        status := s.status ||| 0x20#32
        results := s.results ++ [⟨s.issuer, [.i16s []]⟩] }

/-- R139: the demodulator's state spans calls: two calls, the first of even length, give the samples and the state of
one call with both payloads. -/
def Obligations.DemodProcessSpansCalls : Prop :=
  ∀ (s : State) (first second : List Byte), s.issuer = .cons0 → s.dm.valid = true → first.length % 2 = 0 →
    ∃ t1 t2 t pcm1 pcm2, exec (.demodProcess first) s = .next t1 ∧ exec (.demodProcess second) t1 = .next t2
      ∧ exec (.demodProcess (first ++ second)) s = .next t ∧ returns s t1 [.i16s pcm1] ∧ returns t1 t2 [.i16s pcm2]
      ∧ returns s t [.i16s (pcm1 ++ pcm2)] ∧ t.dm = t2.dm ∧ t.status = t2.status

/-- R136: the odd trailing byte is discarded: with it or without, `DEMOD_PROCESS` gives the same samples and the same
demodulator. -/
def Obligations.OddByteDiscarded : Prop :=
  ∀ (s : State) (iq : List Byte) (last : Byte), s.issuer = .cons0 → s.dm.valid = true → iq.length % 2 = 0 →
    ∃ t, exec (.demodProcess iq) s = .next t
      ∧ exec (.demodProcess (iq ++ [last])) s = .next { t with status := s.status ||| 0x20#32 }

/-- R138: `DEMOD_PROCESS` depends on the demodulator's state, the parameters and its payload only, and on no draw: two
blocks that agree on them return the same samples and reach the same demodulator state, whatever else differs. -/
def Obligations.DemodProcessDeterministic : Prop :=
  ∀ (s1 s2 t1 t2 : State) (iq : List Byte), s1.dm = s2.dm → s1.params = s2.params → s1.issuer = .cons0 →
    s2.issuer = .cons0 → exec (.demodProcess iq) s1 = .next t1 → exec (.demodProcess iq) s2 = .next t2 →
    t1.lastResult = t2.lastResult ∧ t1.dm = t2.dm

/-- R142: with the source's literals, `conv(u)` lies in `[−1, +1]`, is never zero, and `conv(255 − u) = −conv(u)`; so
every sample is nonzero, and the initial `dm.prev` is too. -/
def Obligations.ConvNeverZero : Prop :=
  ∀ (P : Params) (u : Byte), P.sourceLiterals = true →
    f32IsZero (conv P u) = false ∧ conv P (255#8 - u) = f32Neg (conv P u)
      ∧ f32Lt (conv P u) 0xBF800000#32 = false ∧ f32Lt 0x3F800000#32 (conv P u) = false ∧ f32IsFinite (conv P u) = true
      ∧ (∀ q : Byte, f32IsZero (sampleOf P u q).re = false) ∧ f32IsZero State.reset.dm.prev.re = false

/-- R143: with the initial `prev = (+1.0, +0.0)`, the product with a sample is the sample itself, exactly. -/
def Obligations.FirstDifferenceIsSample : Prop :=
  ∀ (P : Params) (i q : Byte), P.sourceLiterals = true → cmulConj P (sampleOf P i q) initialSample = sampleOf P i q

/-- R156: two equal samples in a row, as in a padded stretch, have the phase difference `+0.0`, with any numerics
functions. -/
def Obligations.EqualSamplesHaveZeroPhase : Prop :=
  ∀ (P : Params) (i q : Byte), P.sourceLiterals = true →
    phaseStep P (sampleOf P i q) (sampleOf P i q) = 0x00000000#32

/-- R144: whatever the numerics functions, the phase is a number in `[−fl32(π), +fl32(π)]`; `im = +0, re > 0` gives
`+0.0` and `im = +0, re < 0` gives `+fl32(π)`. For arguments that are no numbers it rests on the model's reading that
the bounds hold of every result (notes/assumptions/4.md). -/
def Obligations.PhaseWithinPi : Prop :=
  ∀ (P : Params) (im re : F32),
    f32IsNaN (atan2 P im re) = false ∧ f32Lt (atan2 P im re) 0xC0490FDB#32 = false
      ∧ f32Lt 0x40490FDB#32 (atan2 P im re) = false
      ∧ (im = 0x00000000#32 → f32Lt 0#32 re = true → atan2 P im re = 0x00000000#32)
      ∧ (im = 0x00000000#32 → f32Lt re 0#32 = true → atan2 P im re = 0x40490FDB#32)

/-- R149, R150: the clamped value, rounded toward zero, lies in `[−32768, 32767]` and is the output sample, unless it
is no number. -/
def Obligations.QuantisedSampleFits : Prop :=
  ∀ (P : Params) (y : F32), f32IsNaN (f32Mul P y P.gain) = false →
    ∃ n : Int, exactTrunc (val32 (gainClamp P y)) = some n ∧ -32768 ≤ n ∧ n ≤ 32767
      ∧ (quantise (gainClamp P y)).toInt = n

/-- R155, R157: `AUDIO_PULL.0` on `CONS0`, in a state that keeps the invariant and with a byte demand below `2^64`,
takes the oldest bytes that it observes, at most as many as it needs, pads them with `PAD_BYTE`, and returns exactly
`frames` samples, those `DEMOD_PROCESS` would return for the padded bytes; the decimation counter ends where it began,
`UNDERFLOW` is set where it padded, and nothing else changes. -/
def Obligations.AudioPullReturnsFrames : Prop :=
  ∀ (s : State) (frames : U32) (need n : Nat) (seen : U64) (held got bytes : List Byte), s.issuer = .cons0 →
    s.ring0.valid = true → s.dm.valid = true → s.ring0.Inv s.params → s.dm.counter.toNat < s.dm.D.toNat →
    need = frames.toNat * s.dm.D.toNat * 2 → need < 2 ^ 64 → s.ring0.contents = some held →
    seen = s.drawBetween s.ring0.cHeadSeen s.ring0.head → n = min need (seen - s.ring0.tail).toNat →
    got = held.take n → bytes = got ++ List.replicate (need - n) s.params.padByte →
    ∃ t pcm u, exec (.audioPull .r0 frames) s = .next t ∧ returns s t [.i16s pcm] ∧ pcm.length = frames.toNat
      ∧ exec (.demodProcess bytes) s = .next u ∧ returns s u [.i16s pcm] ∧ t.dm = u.dm ∧ t.dm.counter = s.dm.counter
      ∧ t.ring0 = { s.ring0 with tail := s.ring0.tail + BitVec.ofNat 64 n, cHeadSeen := seen }
      ∧ t.status = (if n < need then s.status ||| 0x40#32 else s.status)
      ∧ t.ring1 = s.ring1 ∧ t.sp = s.sp ∧ keepsInterface s t ∧ oneDraw s t

/-- R155, R88, R201: `AUDIO_PULL.0` with a byte demand of `2^64` or more raises `BAD_OPERAND` and pops nothing. -/
def Obligations.AudioPullTooLargeFaults : Prop :=
  ∀ (s : State) (frames : U32), s.issuer = .cons0 → s.ring0.valid = true → s.dm.valid = true →
    2 ^ 64 ≤ frames.toNat * s.dm.D.toNat * 2 →
    exec (.audioPull .r0 frames) s = .next { s with
      status := s.status ||| 0x2#32
      results := s.results ++ [⟨s.issuer, [.i16s []]⟩] }

/-- R64: a port serialises a sample low byte first in little-endian order, and high byte first in big-endian order. -/
def Obligations.SampleBytesInOrder : Prop :=
  ∀ (P : Params) (x : I16) (rest : List I16), pcmBytes P (x :: rest)
    = (match P.pcmByteOrder with
        | .little => [BitVec.ofNat 8 (x.toNat % 256), BitVec.ofNat 8 (x.toNat / 256)]
        | .big => [BitVec.ofNat 8 (x.toNat / 256), BitVec.ofNat 8 (x.toNat % 256)]) ++ pcmBytes P rest

/-! ## Spectrum -/

/-- R170, R171: `SPEC_INIT` on `CTRL` with legal operands stores the frame length, the selection and the window: ones
for `RECT`, the rounded Hann formula for `HANN`, the table bit for bit for `USER`. -/
def Obligations.SpecInitConfigures : Prop :=
  ∀ (s : State) (n sel : U32) (table : List F32), s.issuer = .ctrl → 1 ≤ n.toNat → n.toNat ≤ s.params.fftNMax →
    ((sel = 0#32 ∧ table = []) ∨ (sel = 1#32 ∧ table = []) ∨ (sel = 2#32 ∧ table.length = n.toNat)) →
    ∃ t, exec (.specInit n sel table) s = .next t
      ∧ t.sp.valid = true ∧ t.sp.N = n ∧ t.sp.winSel.toNat = sel.toNat ∧ t.sp.win.length = n.toNat
      ∧ (sel = 0#32 → ∀ w ∈ t.sp.win, w = 0x3F800000#32)
      ∧ (sel = 1#32 → ∀ k, k < n.toNat → t.sp.win[k]? = some (f32OfF64 s.params
          (f64Sub 0x3FE0000000000000#64 (f64Mul 0x3FE0000000000000#64
            (cos s.params (f64Div (f64Mul 0x401921FB54442D18#64 (f64OfNat k)) (f64OfNat n.toNat)))))))
      ∧ (sel = 2#32 → t.sp.win = table)
      ∧ t.ring0 = s.ring0 ∧ t.ring1 = s.ring1 ∧ t.dm = s.dm ∧ t.status = s.status ∧ keepsInterface s t
      ∧ keepsDraws s t ∧ returns s t [.bool true]

/-- R88, R170, R201: `SPEC_INIT` with an operand that fails a check raises `BAD_OPERAND`, returns `ok = 0` and leaves
the spectrum unit unchanged. -/
def Obligations.SpecInitRejects : Prop :=
  ∀ (s : State) (n sel : U32) (table : List F32), s.issuer = .ctrl →
    (n.toNat = 0 ∨ s.params.fftNMax < n.toNat ∨ 2 < sel.toNat ∨ (sel.toNat = 2 ∧ table.length ≠ n.toNat)
      ∨ (sel.toNat ≠ 2 ∧ table ≠ [])) →
    exec (.specInit n sel table) s = .next { s with
      status := s.status ||| 0x2#32
      results := s.results ++ [⟨s.issuer, [.bool false]⟩] }

/-- R173, R174, R175: `SPEC_WINDOW` on `CONS1` returns `sp.N` elements: coefficient `k` times each component of sample
`k` of the payload, or of `(+0.0, +0.0)` past its end; it warns of an odd and of a short payload, and changes nothing
else. -/
def Obligations.SpecWindowForms : Prop :=
  ∀ (s : State) (iq : List Byte), s.issuer = .cons1 → s.sp.valid = true → s.sp.Inv s.params →
    ∃ t frame, exec (.specWindow iq) s = .next t ∧ returns s t [.cf32s frame] ∧ frame.length = s.sp.N.toNat
      ∧ (∀ k w i q, s.sp.win[k]? = some w → iq[2 * k]? = some i → iq[2 * k + 1]? = some q →
        frame[k]? = some ⟨f32Mul s.params w (conv s.params i), f32Mul s.params w (conv s.params q)⟩)
      ∧ (∀ k w, s.sp.win[k]? = some w → iq.length / 2 ≤ k →
        frame[k]? = some ⟨f32Mul s.params w 0x00000000#32, f32Mul s.params w 0x00000000#32⟩)
      ∧ t.status = s.status ||| (if iq.length % 2 = 1 then 0x20#32 else 0#32)
          ||| (if iq.length / 2 < s.sp.N.toNat then 0x80#32 else 0#32)
      ∧ t.ring0 = s.ring0 ∧ t.ring1 = s.ring1 ∧ keepsUnits s t ∧ keepsDraws s t

/-- R176, R178, R180: `SPEC_MAGDB` on `CONS1` with `sp.N` bins returns their magnitudes in display order: element `i` is
the bin at signed frequency index `i − N div 2`, and nothing else changes. -/
def Obligations.SpecMagdbInDisplayOrder : Prop :=
  ∀ (s : State) (bins : List CF32), s.issuer = .cons1 → s.sp.valid = true → bins.length = s.sp.N.toNat →
    ∃ db, exec (.specMagdb bins) s = .next { s with results := s.results ++ [⟨s.issuer, [.f32s db]⟩] }
      ∧ db.length = s.sp.N.toNat
      ∧ ∀ i j : Nat, i < s.sp.N.toNat →
        ((j : Int) = (i : Int) - (s.sp.N.toNat / 2 : Nat) ∨
          (j : Int) = (i : Int) - (s.sp.N.toNat / 2 : Nat) + s.sp.N.toNat) →
        ∀ x, bins[j]? = some x → db[i]? = some (magDb s.params x)

/-- R88, R176, R201: `SPEC_MAGDB` with another number of bins raises `BAD_OPERAND` and changes nothing else. -/
def Obligations.SpecMagdbLengthFaults : Prop :=
  ∀ (s : State) (bins : List CF32), s.issuer = .cons1 → s.sp.valid = true → bins.length ≠ s.sp.N.toNat →
    exec (.specMagdb bins) s = .next { s with
      status := s.status ||| 0x2#32
      results := s.results ++ [⟨s.issuer, [.f32s []]⟩] }

/-- R177, R179: the magnitude of every bin, with any numerics functions. One with a NaN component gives a NaN; one with an
infinite component and no NaN gives `+∞`; one of zeros gives `−∞`. Any other has a finite positive power `re² + im²` and
gives the formula of R177. Subnormal components give a finite value, between −900 and −750 dB: those two bounds stand
for R179's "very negative" and are the model's reading (notes/assumptions/4.md). Which NaN is a free value
(notes/assumptions/6.md). -/
def Obligations.MagDbSpecialValues : Prop :=
  ∀ (P : Params) (re im : F32),
    ((f32IsNaN re = true ∨ f32IsNaN im = true) → f32IsNaN (magDb P ⟨re, im⟩) = true)
      ∧ (f32IsNaN re = false → f32IsNaN im = false → (f32IsFinite re = false ∨ f32IsFinite im = false) →
        magDb P ⟨re, im⟩ = 0x7F800000#32)
      ∧ (f32IsZero re = true → f32IsZero im = true → magDb P ⟨re, im⟩ = 0xFF800000#32)
      ∧ (∀ p : F64, f32IsFinite re = true → f32IsFinite im = true → (f32IsZero re = false ∨ f32IsZero im = false) →
        p = f64Add (f64Mul (f64OfF32 re) (f64OfF32 re)) (f64Mul (f64OfF32 im) (f64OfF32 im)) →
        f64IsFinite p = true ∧ f64Lt 0#64 p = true
          ∧ magDb P ⟨re, im⟩ = f32OfF64 P (f64Mul 0x4024000000000000#64 (log10 P p)))
      ∧ (re.toNat % 2 ^ 31 < 2 ^ 23 → im.toNat % 2 ^ 31 < 2 ^ 23 → (f32IsZero re = false ∨ f32IsZero im = false) →
        f32IsFinite (magDb P ⟨re, im⟩) = true ∧ f32Lt (magDb P ⟨re, im⟩) 0xC4610000#32 = false
          ∧ f32Lt 0xC43B8000#32 (magDb P ⟨re, im⟩) = false)

/-! ## Real arithmetic -/

/-- R11: rounding to binary32 takes a nonnegative rational `num / den` to a binary32 magnitude that no finite binary32
magnitude is nearer to, and to one of even encoding where two are equally near; at and above `2^128 − 2^103` it is
infinity. Distances are compared in units of `2^-149 / den`. -/
def Obligations.RoundingToNearestEven : Prop :=
  ∀ num den : Nat, 0 < den →
    (((2 ^ 128 - 2 ^ 103) * den ≤ num ↔ roundMag binary32 num den = 0x7F800000)
      ∧ (num < (2 ^ 128 - 2 ^ 103) * den →
        ∃ m, val32 (BitVec.ofNat 32 (roundMag binary32 num den)) = .fin false m (2 ^ 149)
          ∧ ∀ (x : F32) (k : Nat), val32 x = .fin false k (2 ^ 149) →
            Int.natAbs ((m * den : Nat) - (num * 2 ^ 149 : Nat) : Int)
                ≤ Int.natAbs ((k * den : Nat) - (num * 2 ^ 149 : Nat) : Int)
              ∧ (Int.natAbs ((m * den : Nat) - (num * 2 ^ 149 : Nat) : Int)
                  = Int.natAbs ((k * den : Nat) - (num * 2 ^ 149 : Nat) : Int) → m ≠ k →
                roundMag binary32 num den % 2 = 0)))
end

