-- ==== Sys2Proof/Laws/Decode.lean ====
section
/-! SUPPORT. The opcode map read both ways, and what the decoder accepts. -/

namespace Sys2Proof

/-- Each operation has an `OP` value of its own. -/
@[simp] theorem opcodeOf_opValue (o : Opcode) : opcodeOf (opValue o) = some o := by cases o <;> decide

/-- An `OP` value that stands for an operation is that operation's. -/
theorem opValue_of_opcodeOf {b : BitVec 8} {o : Opcode} (h : opcodeOf b = some o) : opValue o = b := by
  have := List.find?_some h
  simpa using this

/-- The three fields make up the word. -/
theorem fields_append (w : U32) : rsvField w ++ instField w ++ opField w = w := by
  apply BitVec.eq_of_getLsbD_eq
  intro i hi
  simp only [rsvField, instField, opField, BitVec.getLsbD_append, BitVec.getLsbD_extractLsb']
  by_cases h8 : i < 8
  · simp [h8]
  · by_cases h12 : i < 12
    · have h4 : i - 8 < 4 := by omega
      have : 8 + (i - 8) = i := by omega
      simp [h8, h4, this]
    · have h4 : ¬ (i - 8 < 4) := by omega
      have h20 : i - 8 - 4 < 20 := by omega
      have : 12 + (i - 8 - 4) = i := by omega
      simp [h8, h4, h20, this]

/-- A word put together from three fields has those fields. -/
theorem fields_of_append (x : BitVec 20) (a : BitVec 4) (b : BitVec 8) :
    rsvField (x ++ a ++ b) = x ∧ instField (x ++ a ++ b) = a ∧ opField (x ++ a ++ b) = b := by
  refine ⟨?_, ?_, ?_⟩ <;> apply BitVec.eq_of_getLsbD_eq <;> intro i hi <;>
    simp only [rsvField, instField, opField, BitVec.getLsbD_append, BitVec.getLsbD_extractLsb', hi, decide_true,
      Bool.true_and]
  · have h8 : ¬ (12 + i < 8) := by omega
    have h4 : ¬ (12 + i - 8 < 4) := by omega
    have : 12 + i - 8 - 4 = i := by omega
    simp [h8, h4, this]
  · have h8 : ¬ (8 + i < 8) := by omega
    have : 8 + i - 8 = i := by omega
    simp [h8, hi, this]
  · have h8 : 0 + i < 8 := by omega
    simp [hi]

/-- `RSV` of an encoded word is zero (R80). -/
theorem rsvField_encodeWord (i : Instr) : rsvField (encodeWord i) = 0#20 := (fields_of_append _ _ _).1

/-- `INST` of an encoded word is its ring's value (R82). -/
theorem instField_encodeWord (i : Instr) : instField (encodeWord i) = instOf i.ring? := (fields_of_append _ _ _).2.1

/-- `OP` of an encoded word is its operation's value (R83). -/
theorem opField_encodeWord (i : Instr) : opField (encodeWord i) = opValue i.opcode := (fields_of_append _ _ _).2.2

/-- Everything a decoded command says of its word and payload. -/
theorem decode_ok_iff (w : U32) (p : List Value) (i : Instr) :
    decode w p = .ok i ↔ rsvField w = 0#20 ∧ ∃ o, opcodeOf (opField w) = some o ∧ instLegal o (instField w) = true
      ∧ withPayload o (ringOf (instField w)) p = some i := by
  unfold decode
  split
  · simp_all
  · split
    · simp_all
    · split
      · split <;> simp_all
      · simp_all

/-- Why a command word is illegal: the three checks of R204, steps 1 to 3. -/
theorem decode_error_cases {w : U32} {p : List Value} {e : DecodeError} (h : decode w p = .error e) :
    (e = .reservedBits ∧ rsvField w ≠ 0#20) ∨ (e = .unassignedOpcode ∧ opcodeOf (opField w) = none)
      ∨ (∃ o, e = .badInst ∧ opcodeOf (opField w) = some o ∧ instLegal o (instField w) = false)
      ∨ (∃ o, e = .payloadMismatch ∧ rsvField w = 0#20 ∧ opcodeOf (opField w) = some o
        ∧ instLegal o (instField w) = true ∧ withPayload o (ringOf (instField w)) p = none) := by
  unfold decode at h
  split at h
  · simp_all
  · split at h
    · simp_all
    · split at h
      · split at h <;> simp_all
      · simp_all

end Sys2Proof
end

