-- ==== Sys2Proof/Laws/Memory.lean ====
section
/-! SUPPORT. Ring storage: a read after a write, the canonical form, and transfers of many bytes (spec/20_memory.md
R61, R62). -/

namespace Sys2Proof.Machine

/-! ## One byte -/

@[simp] theorem Memory.read_nil (a : Nat) : Memory.read [] a = none := rfl

/-- A read after a write gives the byte written there, and elsewhere what it gave before. -/
theorem Memory.read_write (m : Memory) (a b : Nat) (v : Byte) :
    (m.write a v).read b = if b = a then some v else m.read b := by
  induction m with
  | nil => simp [Memory.write, Memory.read]
  | cons e rest ih =>
    obtain ⟨x, w⟩ := e
    simp only [Memory.write]
    split
    · simp [Memory.read]
    · split
      · rename_i h
        subst h
        by_cases hb : b = a <;> simp [Memory.read, hb]
      · rename_i h1 h2
        simp only [Memory.read, ih]
        by_cases hb : b = a
        · have : b ≠ x := by omega
          simp [hb, h2]
        · simp [hb]

/-- Every entry after a write is the one written or was there before. -/
theorem Memory.mem_write {m : Memory} {a : Nat} {v : Byte} {c : Host.Cell} (h : c ∈ m.write a v) :
    c = (a, v) ∨ c ∈ m := by
  induction m with
  | nil => simpa [Memory.write] using h
  | cons e rest ih =>
    obtain ⟨x, w⟩ := e
    simp only [Memory.write] at h
    split at h
    · simpa using h
    · split at h
      · rcases List.mem_cons.1 h with h | h
        · exact .inl h
        · exact .inr (List.mem_cons_of_mem _ h)
      · rcases List.mem_cons.1 h with h | h
        · exact .inr (h ▸ List.mem_cons_self)
        · rcases ih h with h | h
          · exact .inl h
          · exact .inr (List.mem_cons_of_mem _ h)

/-- The canonical form, as an order of neighbours. -/
theorem Memory.wf_cons_iff (x : Host.Cell) (m : Memory) :
    Memory.wf (x :: m) = true ↔ (∀ y ∈ m.head?, x.1 < y.1) ∧ m.wf = true := by
  cases m <;> simp [Memory.wf]

/-- A write keeps the canonical form. -/
theorem Memory.wf_write {m : Memory} (a : Nat) (v : Byte) (h : m.wf = true) : (m.write a v).wf = true := by
  induction m with
  | nil => rfl
  | cons e rest ih =>
    obtain ⟨x, w⟩ := e
    obtain ⟨hx, hr⟩ := (Memory.wf_cons_iff _ _).1 h
    simp only [Memory.write]
    split
    · exact (Memory.wf_cons_iff _ _).2 ⟨by simpa, h⟩
    · split
      · rename_i h2
        exact (Memory.wf_cons_iff _ _).2 ⟨h2 ▸ hx, hr⟩
      · refine (Memory.wf_cons_iff _ _).2 ⟨?_, ih hr⟩
        intro y hy
        cases rest with
        | nil =>
          simp only [Memory.write, List.head?_cons, Option.mem_some_iff] at hy
          subst hy
          show x < a
          omega
        | cons z rest =>
          obtain ⟨zx, zv⟩ := z
          have hz : x < zx := by simpa using hx
          simp only [Memory.write] at hy
          split at hy
          · simp only [List.head?_cons, Option.mem_some_iff] at hy
            subst hy
            show x < a
            omega
          · split at hy <;>
            · simp only [List.head?_cons, Option.mem_some_iff] at hy
              subst hy
              first | exact hz | (show x < a; omega)

/-! ## Positions -/

/-- Moving on by one and then by `i` is moving on by `i + 1`. -/
theorem position_succ (pos : U64) (i : Nat) :
    pos + 1#64 + BitVec.ofNat 64 i = pos + BitVec.ofNat 64 (i + 1) := by
  apply BitVec.eq_of_toNat_eq
  simp only [BitVec.toNat_add, BitVec.toNat_ofNat]
  omega

theorem position_add (pos : U64) (i j : Nat) :
    pos + BitVec.ofNat 64 i + BitVec.ofNat 64 j = pos + BitVec.ofNat 64 (i + j) := by
  apply BitVec.eq_of_toNat_eq
  simp only [BitVec.toNat_add, BitVec.toNat_ofNat]
  omega

@[simp] theorem position_zero (pos : U64) : pos + BitVec.ofNat 64 0 = pos := by simp

/-- The index of a later position: as `2^64` is a multiple of the capacity, the wrap of the counter does not show
(R61). -/
theorem ringIndex_add (k : BitVec 6) (pos : U64) (i : Nat) :
    ringIndex (2 ^ k.toNat) (pos + BitVec.ofNat 64 i) = (pos.toNat + i) % 2 ^ k.toNat := by
  have hk : k.toNat ≤ 64 := by omega
  have hd : 2 ^ k.toNat ∣ 2 ^ 64 := Nat.pow_dvd_pow 2 hk
  simp only [ringIndex, BitVec.toNat_add, BitVec.toNat_ofNat]
  rw [Nat.mod_mod_of_dvd _ hd, Nat.add_mod, Nat.mod_mod_of_dvd _ hd, ← Nat.add_mod]

/-- Positions less than a capacity apart have different indices. -/
theorem ringIndex_injOn (k : BitVec 6) (pos : U64) {i j : Nat} (hi : i < 2 ^ k.toNat) (hj : j < 2 ^ k.toNat)
    (h : ringIndex (2 ^ k.toNat) (pos + BitVec.ofNat 64 i) = ringIndex (2 ^ k.toNat) (pos + BitVec.ofNat 64 j)) :
    i = j := by
  rw [ringIndex_add, ringIndex_add] at h
  have h' : pos.toNat + i ≡ pos.toNat + j [MOD 2 ^ k.toNat] := h
  exact Nat.ModEq.eq_of_lt_of_lt (Nat.ModEq.add_left_cancel' _ h') hi hj

/-! ## Many bytes -/

/-- Writing some bytes and then others is writing them all. -/
theorem memWrite_append (cap : Nat) (m : Memory) (pos : U64) (xs ys : List Byte) :
    memWrite cap m pos (xs ++ ys) = memWrite cap (memWrite cap m pos xs) (pos + BitVec.ofNat 64 xs.length) ys := by
  induction xs generalizing m pos with
  | nil => simp [memWrite]
  | cons x xs ih => simp only [List.cons_append, memWrite, ih, List.length_cons, position_succ]

/-- A transfer keeps the canonical form. -/
theorem memWrite_wf {m : Memory} (cap : Nat) (pos : U64) (data : List Byte) (h : m.wf = true) :
    (memWrite cap m pos data).wf = true := by
  induction data generalizing m pos with
  | nil => exact h
  | cons b bs ih => exact ih _ (Memory.wf_write _ _ h)

/-- A transfer writes inside the capacity. -/
theorem memWrite_mem_lt {m : Memory} {cap : Nat} (pos : U64) (data : List Byte) (hcap : 0 < cap)
    (h : ∀ c ∈ m, c.1 < cap) : ∀ c ∈ memWrite cap m pos data, c.1 < cap := by
  induction data generalizing m pos with
  | nil => exact h
  | cons b bs ih =>
    refine ih _ fun c hc => ?_
    rcases Memory.mem_write hc with rfl | hc
    · exact Nat.mod_lt _ hcap
    · exact h c hc

/-- A transfer leaves alone every index that none of its positions has. -/
theorem memWrite_read_other (cap : Nat) (m : Memory) (pos : U64) (data : List Byte) (a : Nat)
    (h : ∀ i, i < data.length → a ≠ ringIndex cap (pos + BitVec.ofNat 64 i)) :
    (memWrite cap m pos data).read a = m.read a := by
  induction data generalizing m pos with
  | nil => rfl
  | cons b bs ih =>
    rw [memWrite, ih, Memory.read_write, if_neg]
    · simpa using h 0 (by simp)
    · intro i hi
      rw [position_succ]
      exact h (i + 1) (by simpa using hi)

/-- A transfer of at most a capacity's bytes stores each at its position. -/
theorem memWrite_read_same (k : BitVec 6) (m : Memory) (pos : U64) (data : List Byte)
    (hlen : data.length ≤ 2 ^ k.toNat) (i : Nat) (hi : i < data.length) :
    (memWrite (2 ^ k.toNat) m pos data).read (ringIndex (2 ^ k.toNat) (pos + BitVec.ofNat 64 i)) = data[i]? := by
  induction data generalizing m pos i with
  | nil => simp at hi
  | cons b bs ih =>
    simp only [List.length_cons] at hlen hi
    cases i with
    | zero =>
      rw [memWrite, memWrite_read_other, Memory.read_write]
      · simp
      · intro j hj
        rw [position_succ]
        intro heq
        exact absurd (ringIndex_injOn k pos (by omega) (by omega) heq) (by omega)
    | succ i =>
      have h := ih (m.write (ringIndex (2 ^ k.toNat) pos) b) (pos + 1#64) (by omega) i (by omega)
      rw [position_succ] at h
      simpa [memWrite] using h

/-- Reading is reading each position. -/
theorem memRead_eq_some_iff (cap : Nat) (m : Memory) (pos : U64) (n : Nat) (l : List Byte) :
    memRead cap m pos n = some l ↔
      l.length = n ∧ ∀ i, i < n → m.read (ringIndex cap (pos + BitVec.ofNat 64 i)) = l[i]? := by
  induction n generalizing pos l with
  | zero =>
    simp only [memRead, Option.some.injEq]
    constructor
    · rintro rfl
      simp
    · rintro ⟨h, -⟩
      exact (List.length_eq_zero_iff.1 h).symm
  | succ n ih =>
    simp only [memRead]
    constructor
    · intro h
      split at h
      · rename_i b bs hb hbs
        simp only [Option.some.injEq] at h
        subst h
        obtain ⟨hl, hr⟩ := (ih _ _).1 hbs
        refine ⟨by simp [hl], fun i hi => ?_⟩
        cases i with
        | zero => simpa using hb
        | succ i => simpa [position_succ] using hr i (by omega)
      · exact absurd h (by simp)
    · rintro ⟨hl, hr⟩
      cases l with
      | nil => simp at hl
      | cons b bs =>
        have h0 : m.read (ringIndex cap pos) = some b := by simpa using hr 0 (by omega)
        have hrest : memRead cap m (pos + 1#64) n = some bs := by
          refine (ih _ _).2 ⟨by simpa using hl, fun i hi => ?_⟩
          simpa [position_succ] using hr (i + 1) (by omega)
        simp [h0, hrest]

/-- A read of as many bytes as were read, and more after them. -/
theorem memRead_add {cap : Nat} {m : Memory} {pos : U64} {n k : Nat} {xs ys : List Byte}
    (hx : memRead cap m pos n = some xs) (hy : memRead cap m (pos + BitVec.ofNat 64 n) k = some ys) :
    memRead cap m pos (n + k) = some (xs ++ ys) := by
  rw [memRead_eq_some_iff] at *
  refine ⟨by simp [hx.1, hy.1], fun i hi => ?_⟩
  by_cases h : i < n
  · rw [hx.2 i h, List.getElem?_append_left (by omega)]
  · have := hy.2 (i - n) (by omega)
    rw [position_add, show n + (i - n) = i by omega] at this
    rw [this, List.getElem?_append_right (by omega), hx.1]

/-- The first bytes of a read. -/
theorem memRead_take {cap : Nat} {m : Memory} {pos : U64} {n k : Nat} {xs : List Byte}
    (hx : memRead cap m pos n = some xs) (hk : k ≤ n) : memRead cap m pos k = some (xs.take k) := by
  rw [memRead_eq_some_iff] at *
  refine ⟨by simp [hx.1, hk], fun i hi => ?_⟩
  rw [hx.2 i (by omega), List.getElem?_take_of_lt hi]

/-- The bytes of a read after the first. -/
theorem memRead_drop {cap : Nat} {m : Memory} {pos : U64} {n k : Nat} {xs : List Byte}
    (hx : memRead cap m pos n = some xs) (hk : k ≤ n) :
    memRead cap m (pos + BitVec.ofNat 64 k) (n - k) = some (xs.drop k) := by
  rw [memRead_eq_some_iff] at *
  refine ⟨by simp [hx.1], fun i hi => ?_⟩
  rw [position_add, hx.2 (k + i) (by omega), List.getElem?_drop]

/-- A read that sees the same bytes. -/
theorem memRead_congr {cap : Nat} {m m' : Memory} {pos : U64} {n : Nat} {xs : List Byte}
    (hx : memRead cap m pos n = some xs)
    (h : ∀ i, i < n → m'.read (ringIndex cap (pos + BitVec.ofNat 64 i))
      = m.read (ringIndex cap (pos + BitVec.ofNat 64 i))) :
    memRead cap m' pos n = some xs := by
  rw [memRead_eq_some_iff] at *
  exact ⟨hx.1, fun i hi => by rw [h i hi, hx.2 i hi]⟩

end Sys2Proof.Machine
end

