-- ==== Sys2Proof/Laws/State.lean ====
section
/-! SUPPORT. What each update of the state does to each field: one lemma a field, true by computation. -/

namespace Sys2Proof.Machine

@[simp] theorem setStatus_ring0 (s : State) (x : U32) : (s.setStatus x).ring0 = s.ring0 := rfl

@[simp] theorem setStatus_ring1 (s : State) (x : U32) : (s.setStatus x).ring1 = s.ring1 := rfl

@[simp] theorem setStatus_dm (s : State) (x : U32) : (s.setStatus x).dm = s.dm := rfl

@[simp] theorem setStatus_sp (s : State) (x : U32) : (s.setStatus x).sp = s.sp := rfl

@[simp] theorem setStatus_status (s : State) (x : U32) : (s.setStatus x).status = x := rfl

@[simp] theorem setStatus_params (s : State) (x : U32) : (s.setStatus x).params = s.params := rfl

@[simp] theorem setStatus_inbox (s : State) (x : U32) : (s.setStatus x).inbox = s.inbox := rfl

@[simp] theorem setStatus_issuer (s : State) (x : U32) : (s.setStatus x).issuer = s.issuer := rfl

@[simp] theorem setStatus_draws (s : State) (x : U32) : (s.setStatus x).draws = s.draws := rfl

@[simp] theorem setStatus_drawCount (s : State) (x : U32) : (s.setStatus x).drawCount = s.drawCount := rfl

@[simp] theorem setStatus_results (s : State) (x : U32) : (s.setStatus x).results = s.results := rfl

@[simp] theorem setDm_ring0 (s : State) (dm : DemodState) : (s.setDm dm).ring0 = s.ring0 := rfl

@[simp] theorem setDm_ring1 (s : State) (dm : DemodState) : (s.setDm dm).ring1 = s.ring1 := rfl

@[simp] theorem setDm_dm (s : State) (dm : DemodState) : (s.setDm dm).dm = dm := rfl

@[simp] theorem setDm_sp (s : State) (dm : DemodState) : (s.setDm dm).sp = s.sp := rfl

@[simp] theorem setDm_status (s : State) (dm : DemodState) : (s.setDm dm).status = s.status := rfl

@[simp] theorem setDm_params (s : State) (dm : DemodState) : (s.setDm dm).params = s.params := rfl

@[simp] theorem setDm_inbox (s : State) (dm : DemodState) : (s.setDm dm).inbox = s.inbox := rfl

@[simp] theorem setDm_issuer (s : State) (dm : DemodState) : (s.setDm dm).issuer = s.issuer := rfl

@[simp] theorem setDm_draws (s : State) (dm : DemodState) : (s.setDm dm).draws = s.draws := rfl

@[simp] theorem setDm_drawCount (s : State) (dm : DemodState) : (s.setDm dm).drawCount = s.drawCount := rfl

@[simp] theorem setDm_results (s : State) (dm : DemodState) : (s.setDm dm).results = s.results := rfl

@[simp] theorem setSp_ring0 (s : State) (sp : SpecState) : (s.setSp sp).ring0 = s.ring0 := rfl

@[simp] theorem setSp_ring1 (s : State) (sp : SpecState) : (s.setSp sp).ring1 = s.ring1 := rfl

@[simp] theorem setSp_dm (s : State) (sp : SpecState) : (s.setSp sp).dm = s.dm := rfl

@[simp] theorem setSp_sp (s : State) (sp : SpecState) : (s.setSp sp).sp = sp := rfl

@[simp] theorem setSp_status (s : State) (sp : SpecState) : (s.setSp sp).status = s.status := rfl

@[simp] theorem setSp_params (s : State) (sp : SpecState) : (s.setSp sp).params = s.params := rfl

@[simp] theorem setSp_inbox (s : State) (sp : SpecState) : (s.setSp sp).inbox = s.inbox := rfl

@[simp] theorem setSp_issuer (s : State) (sp : SpecState) : (s.setSp sp).issuer = s.issuer := rfl

@[simp] theorem setSp_draws (s : State) (sp : SpecState) : (s.setSp sp).draws = s.draws := rfl

@[simp] theorem setSp_drawCount (s : State) (sp : SpecState) : (s.setSp sp).drawCount = s.drawCount := rfl

@[simp] theorem setSp_results (s : State) (sp : SpecState) : (s.setSp sp).results = s.results := rfl

@[simp] theorem warn_ring0 (s : State) (b : Bool) (c : Condition) : (s.warn b c).ring0 = s.ring0 := rfl

@[simp] theorem warn_ring1 (s : State) (b : Bool) (c : Condition) : (s.warn b c).ring1 = s.ring1 := rfl

@[simp] theorem warn_dm (s : State) (b : Bool) (c : Condition) : (s.warn b c).dm = s.dm := rfl

@[simp] theorem warn_sp (s : State) (b : Bool) (c : Condition) : (s.warn b c).sp = s.sp := rfl

@[simp] theorem warn_status (s : State) (b : Bool) (c : Condition) : (s.warn b c).status = warnWhen b c s.status := rfl

@[simp] theorem warn_params (s : State) (b : Bool) (c : Condition) : (s.warn b c).params = s.params := rfl

@[simp] theorem warn_inbox (s : State) (b : Bool) (c : Condition) : (s.warn b c).inbox = s.inbox := rfl

@[simp] theorem warn_issuer (s : State) (b : Bool) (c : Condition) : (s.warn b c).issuer = s.issuer := rfl

@[simp] theorem warn_draws (s : State) (b : Bool) (c : Condition) : (s.warn b c).draws = s.draws := rfl

@[simp] theorem warn_drawCount (s : State) (b : Bool) (c : Condition) : (s.warn b c).drawCount = s.drawCount := rfl

@[simp] theorem warn_results (s : State) (b : Bool) (c : Condition) : (s.warn b c).results = s.results := rfl

@[simp] theorem finish_ring0 (s : State) (v : List Value) : (s.finish v).ring0 = s.ring0 := rfl

@[simp] theorem finish_ring1 (s : State) (v : List Value) : (s.finish v).ring1 = s.ring1 := rfl

@[simp] theorem finish_dm (s : State) (v : List Value) : (s.finish v).dm = s.dm := rfl

@[simp] theorem finish_sp (s : State) (v : List Value) : (s.finish v).sp = s.sp := rfl

@[simp] theorem finish_status (s : State) (v : List Value) : (s.finish v).status = s.status := rfl

@[simp] theorem finish_params (s : State) (v : List Value) : (s.finish v).params = s.params := rfl

@[simp] theorem finish_inbox (s : State) (v : List Value) : (s.finish v).inbox = s.inbox := rfl

@[simp] theorem finish_issuer (s : State) (v : List Value) : (s.finish v).issuer = s.issuer := rfl

@[simp] theorem finish_draws (s : State) (v : List Value) : (s.finish v).draws = s.draws := rfl

@[simp] theorem finish_drawCount (s : State) (v : List Value) : (s.finish v).drawCount = s.drawCount := rfl

@[simp] theorem finish_results (s : State) (v : List Value) : (s.finish v).results = s.results ++ [⟨s.issuer, v⟩] := rfl

@[simp] theorem afterDraw_ring0 (s : State) : (s.afterDraw).ring0 = s.ring0 := rfl

@[simp] theorem afterDraw_ring1 (s : State) : (s.afterDraw).ring1 = s.ring1 := rfl

@[simp] theorem afterDraw_dm (s : State) : (s.afterDraw).dm = s.dm := rfl

@[simp] theorem afterDraw_sp (s : State) : (s.afterDraw).sp = s.sp := rfl

@[simp] theorem afterDraw_status (s : State) : (s.afterDraw).status = s.status := rfl

@[simp] theorem afterDraw_params (s : State) : (s.afterDraw).params = s.params := rfl

@[simp] theorem afterDraw_inbox (s : State) : (s.afterDraw).inbox = s.inbox := rfl

@[simp] theorem afterDraw_issuer (s : State) : (s.afterDraw).issuer = s.issuer := rfl

@[simp] theorem afterDraw_draws (s : State) : (s.afterDraw).draws = s.draws.tail := rfl

@[simp] theorem afterDraw_drawCount (s : State) : (s.afterDraw).drawCount = s.drawCount + 1 := rfl

@[simp] theorem afterDraw_results (s : State) : (s.afterDraw).results = s.results := rfl

@[simp] theorem accept_ring0 (s : State) (p : Port) (rest : List Event) : (s.accept p rest).ring0 = s.ring0 := rfl

@[simp] theorem accept_ring1 (s : State) (p : Port) (rest : List Event) : (s.accept p rest).ring1 = s.ring1 := rfl

@[simp] theorem accept_dm (s : State) (p : Port) (rest : List Event) : (s.accept p rest).dm = s.dm := rfl

@[simp] theorem accept_sp (s : State) (p : Port) (rest : List Event) : (s.accept p rest).sp = s.sp := rfl

@[simp] theorem accept_status (s : State) (p : Port) (rest : List Event) : (s.accept p rest).status = s.status := rfl

@[simp] theorem accept_params (s : State) (p : Port) (rest : List Event) : (s.accept p rest).params = s.params := rfl

@[simp] theorem accept_inbox (s : State) (p : Port) (rest : List Event) : (s.accept p rest).inbox = rest := rfl

@[simp] theorem accept_issuer (s : State) (p : Port) (rest : List Event) : (s.accept p rest).issuer = p := rfl

@[simp] theorem accept_draws (s : State) (p : Port) (rest : List Event) : (s.accept p rest).draws = s.draws := rfl

@[simp] theorem accept_drawCount (s : State) (p : Port) (rest : List Event) : (s.accept p rest).drawCount = s.drawCount := rfl

@[simp] theorem accept_results (s : State) (p : Port) (rest : List Event) : (s.accept p rest).results = s.results := rfl

@[simp] theorem resetEvent_ring0 (s : State) (rest : List Event) : (s.resetEvent rest).ring0 = RingState.reset := rfl

@[simp] theorem resetEvent_ring1 (s : State) (rest : List Event) : (s.resetEvent rest).ring1 = RingState.reset := rfl

@[simp] theorem resetEvent_dm (s : State) (rest : List Event) : (s.resetEvent rest).dm = DemodState.reset := rfl

@[simp] theorem resetEvent_sp (s : State) (rest : List Event) : (s.resetEvent rest).sp = SpecState.reset := rfl

@[simp] theorem resetEvent_status (s : State) (rest : List Event) : (s.resetEvent rest).status = 0#32 := rfl

@[simp] theorem resetEvent_params (s : State) (rest : List Event) : (s.resetEvent rest).params = s.params := rfl

@[simp] theorem resetEvent_inbox (s : State) (rest : List Event) : (s.resetEvent rest).inbox = rest := rfl

@[simp] theorem resetEvent_issuer (s : State) (rest : List Event) : (s.resetEvent rest).issuer = s.issuer := rfl

@[simp] theorem resetEvent_draws (s : State) (rest : List Event) : (s.resetEvent rest).draws = s.draws := rfl

@[simp] theorem resetEvent_drawCount (s : State) (rest : List Event) : (s.resetEvent rest).drawCount = s.drawCount := rfl

@[simp] theorem resetEvent_results (s : State) (rest : List Event) : (s.resetEvent rest).results = s.results := rfl

@[simp] theorem setRing_dm (s : State) (r : RingId) (rs : RingState) : (s.setRing r rs).dm = s.dm := by
  cases r <;> rfl

@[simp] theorem setRing_sp (s : State) (r : RingId) (rs : RingState) : (s.setRing r rs).sp = s.sp := by
  cases r <;> rfl

@[simp] theorem setRing_status (s : State) (r : RingId) (rs : RingState) : (s.setRing r rs).status = s.status := by
  cases r <;> rfl

@[simp] theorem setRing_params (s : State) (r : RingId) (rs : RingState) : (s.setRing r rs).params = s.params := by
  cases r <;> rfl

@[simp] theorem setRing_inbox (s : State) (r : RingId) (rs : RingState) : (s.setRing r rs).inbox = s.inbox := by
  cases r <;> rfl

@[simp] theorem setRing_issuer (s : State) (r : RingId) (rs : RingState) : (s.setRing r rs).issuer = s.issuer := by
  cases r <;> rfl

@[simp] theorem setRing_draws (s : State) (r : RingId) (rs : RingState) : (s.setRing r rs).draws = s.draws := by
  cases r <;> rfl

@[simp] theorem setRing_drawCount (s : State) (r : RingId) (rs : RingState) : (s.setRing r rs).drawCount = s.drawCount := by
  cases r <;> rfl

@[simp] theorem setRing_results (s : State) (r : RingId) (rs : RingState) : (s.setRing r rs).results = s.results := by
  cases r <;> rfl

@[simp] theorem ring_r0 (s : State) : s.ring .r0 = s.ring0 := rfl

@[simp] theorem ring_r1 (s : State) : s.ring .r1 = s.ring1 := rfl

@[simp] theorem setRing_ring_same (s : State) (r : RingId) (rs : RingState) : (s.setRing r rs).ring r = rs := by
  cases r <;> rfl

theorem setRing_ring_other (s : State) {r q : RingId} (rs : RingState) (h : q ≠ r) :
    (s.setRing r rs).ring q = s.ring q := by
  cases r <;> cases q <;> first | rfl | exact absurd rfl h

@[simp] theorem setRing_ring_otherRing (s : State) (r : RingId) (rs : RingState) :
    (s.setRing r rs).ring (otherRing r) = s.ring (otherRing r) := by
  cases r <;> rfl

@[simp] theorem setStatus_ring (s : State) (x : U32) (r : RingId) : (s.setStatus x).ring r = s.ring r := by
  cases r <;> rfl

@[simp] theorem warn_ring (s : State) (b : Bool) (c : Condition) (r : RingId) : (s.warn b c).ring r = s.ring r := by
  cases r <;> rfl

@[simp] theorem finish_ring (s : State) (v : List Value) (r : RingId) : (s.finish v).ring r = s.ring r := by
  cases r <;> rfl

@[simp] theorem afterDraw_ring (s : State) (r : RingId) : s.afterDraw.ring r = s.ring r := by
  cases r <;> rfl

@[simp] theorem accept_ring (s : State) (p : Port) (rest : List Event) (r : RingId) :
    (s.accept p rest).ring r = s.ring r := by
  cases r <;> rfl

@[simp] theorem setDm_ring (s : State) (dm : DemodState) (r : RingId) : (s.setDm dm).ring r = s.ring r := by
  cases r <;> rfl

@[simp] theorem setSp_ring (s : State) (sp : SpecState) (r : RingId) : (s.setSp sp).ring r = s.ring r := by
  cases r <;> rfl

@[simp] theorem resetEvent_ring (s : State) (rest : List Event) (r : RingId) :
    (s.resetEvent rest).ring r = RingState.reset := by
  cases r <;> rfl

@[simp] theorem drawBetween_accept (s : State) (p : Port) (rest : List Event) (lo hi : U64) :
    (s.accept p rest).drawBetween lo hi = s.drawBetween lo hi := rfl

/-- The last result is the one just returned. -/
@[simp] theorem finish_lastResult (s : State) (v : List Value) : (s.finish v).lastResult = v := by
  simp [State.lastResult]

end Sys2Proof.Machine
end

