-- ==== Sys2Proof/Laws/Ops.lean ====
section
/-! SUPPORT. What each shared operation can do: ending a command (spec/60_exceptions.md R201, R204), the bits of
`STATUS` (spec/10_state.md R37, R38), draws (spec/20_memory.md R70) and ring transfers (spec/40_ring.md R101, R102). -/

namespace Sys2Proof.Machine

open Host

/-! ## Ending a command -/

@[simp] theorem succeed_eq (result : List Value) (s : State) : succeed result s = .next (s.finish result) := rfl

@[simp] theorem raise_eq (c : Condition) (failure : List Value) (s : State) :
    raise c failure s = .next ((s.setStatus (setCondition c s.status)).finish failure) := rfl

@[simp] theorem require_true (c : Condition) (o : Opcode) (s : State) (go : Unit → Outcome State Fault Refusal) :
    require true c o s go = go () := rfl

@[simp] theorem require_false (c : Condition) (o : Opcode) (s : State) (go : Unit → Outcome State Fault Refusal) :
    require false c o s go = raise c (failResult o) s := rfl

/-- A check that ends in a next state passed, or raised its condition and did nothing else. -/
theorem require_next {ok : Bool} {c : Condition} {o : Opcode} {s t : State}
    {go : Unit → Outcome State Fault Refusal} (h : require ok c o s go = .next t) :
    (ok = true ∧ go () = .next t)
      ∨ (ok = false ∧ t = (s.setStatus (setCondition c s.status)).finish (failResult o)) := by
  cases ok with
  | true => exact .inl ⟨rfl, h⟩
  | false => exact .inr ⟨rfl, by simpa using h.symm⟩

/-- A check that ends in a fault passed. -/
theorem require_fault {ok : Bool} {c : Condition} {o : Opcode} {s : State} {f : Fault}
    {go : Unit → Outcome State Fault Refusal} (h : require ok c o s go = .fault f) : ok = true ∧ go () = .fault f := by
  cases ok with
  | true => exact ⟨rfl, h⟩
  | false => simp at h

/-- A check that ends in a refusal passed. -/
theorem require_refused {ok : Bool} {c : Condition} {o : Opcode} {s : State} {e : Refusal}
    {go : Unit → Outcome State Fault Refusal} (h : require ok c o s go = .refused e) :
    ok = true ∧ go () = .refused e := by
  cases ok with
  | true => exact ⟨rfl, h⟩
  | false => simp at h

/-! ## The bits of `STATUS` -/

/-- Each condition has a bit of its own. -/
theorem conditionBit_injective {a b : Condition} (h : conditionBit a = conditionBit b) : a = b := by
  cases a <;> cases b <;> first | rfl | exact absurd h (by decide)

theorem conditionBit_lt (c : Condition) : conditionBit c < 32 := by cases c <;> decide

@[simp] theorem conditionMask_getLsbD (c : Condition) (b : Nat) :
    (conditionMask c).getLsbD b = decide (b = conditionBit c) := by
  have hc := conditionBit_lt c
  simp only [conditionMask, BitVec.getLsbD_ofNat, Nat.testBit_two_pow]
  by_cases h : b = conditionBit c
  · simp [h, hc]
  · simp [h, Ne.symm h]

/-- Setting a condition sets its bit and keeps every other. -/
@[simp] theorem setCondition_getLsbD (c : Condition) (status : U32) (b : Nat) :
    (setCondition c status).getLsbD b = (status.getLsbD b || decide (b = conditionBit c)) := by
  simp [setCondition]

/-- A warning that applies sets its bit and keeps every other; one that does not changes nothing. -/
@[simp] theorem warnWhen_getLsbD (applies : Bool) (c : Condition) (status : U32) (b : Nat) :
    (warnWhen applies c status).getLsbD b = (status.getLsbD b || (applies && decide (b = conditionBit c))) := by
  cases applies <;> simp [warnWhen]

/-- The warning bits are 7:4. -/
theorem statusWarnings_getLsbD (b : Nat) : statusWarnings.getLsbD b = decide (4 ≤ b ∧ b ≤ 7) := by
  by_cases h : b < 32
  · have : ∀ i : Fin 32, statusWarnings.getLsbD i = decide (4 ≤ i.val ∧ i.val ≤ 7) := by decide
    exact this ⟨b, h⟩
  · rw [BitVec.getLsbD_of_ge _ _ (by omega)]
    simp
    omega

/-- `STATUS_CLEAR` clears the warning bits of its mask and keeps every other bit. -/
@[simp] theorem clearWarnings_getLsbD (mask status : U32) (b : Nat) :
    (clearWarnings mask status).getLsbD b
      = (status.getLsbD b && !(decide (4 ≤ b ∧ b ≤ 7) && mask.getLsbD b)) := by
  simp only [clearWarnings, BitVec.getLsbD_and, BitVec.getLsbD_not, statusWarnings_getLsbD]
  by_cases h : b < 32
  · simp [h, Bool.and_comm]
  · simp [BitVec.getLsbD_of_ge status b (by omega)]

/-- The defined bits are 9:0, and every condition's bit is one of them. -/
theorem conditionMask_defined (c : Condition) : conditionMask c &&& ~~~statusDefined = 0#32 := by
  cases c <;> decide

/-- Setting a condition keeps the reserved bits zero. -/
theorem setCondition_reserved {c : Condition} {status : U32} (h : status &&& ~~~statusDefined = 0#32) :
    setCondition c status &&& ~~~statusDefined = 0#32 := by
  have hm := conditionMask_defined c
  apply BitVec.eq_of_getLsbD_eq
  intro i hi
  have h1 := congrArg (·.getLsbD i) h
  have h2 := congrArg (·.getLsbD i) hm
  simp only [setCondition, BitVec.getLsbD_and, BitVec.getLsbD_or] at *
  rw [Bool.and_or_distrib_right, h1, h2]
  exact Bool.or_self _

/-- A warning keeps the reserved bits zero. -/
theorem warnWhen_reserved {applies : Bool} {c : Condition} {status : U32}
    (h : status &&& ~~~statusDefined = 0#32) : warnWhen applies c status &&& ~~~statusDefined = 0#32 := by
  cases applies
  · exact h
  · exact setCondition_reserved h

/-- `STATUS_CLEAR` keeps the reserved bits zero. -/
theorem clearWarnings_reserved {mask status : U32} (h : status &&& ~~~statusDefined = 0#32) :
    clearWarnings mask status &&& ~~~statusDefined = 0#32 := by
  rw [clearWarnings, BitVec.and_assoc, BitVec.and_comm (~~~(mask &&& statusWarnings)), ← BitVec.and_assoc, h]
  simp

/-! ## Draws -/

/-- A draw is past its lower bound by at most the distance of the bounds. -/
theorem drawBetween_le (s : State) (lo hi : U64) : (s.drawBetween lo hi - lo).toNat ≤ (hi - lo).toNat := by
  unfold State.drawBetween
  split
  · simp_all
  · rw [BitVec.add_comm, BitVec.add_sub_cancel, BitVec.toNat_ofNat]
    exact le_trans (Nat.mod_le _ _) (Nat.min_le_right _ _)

/-- A draw between equal bounds is the bound. -/
@[simp] theorem drawBetween_self (s : State) (x : U64) : s.drawBetween x x = x := by simp [State.drawBetween]

/-! ## Ring transfers -/

theorem RingState.cap_pos (rs : RingState) : 0 < rs.cap := Nat.two_pow_pos _

/-- A push that did not fit changed only `p_tail_seen`; one that did wrote its bytes and moved `head`. -/
theorem RingState.push_cases (rs : RingState) (t : U64) (data : List Byte) :
    (rs.cap < data.length + (rs.head - t).toNat ∧ rs.push t data = ({ rs with pTailSeen := t }, false))
      ∨ (data.length + (rs.head - t).toNat ≤ rs.cap ∧ rs.push t data = ({ rs with
          pTailSeen := t
          buf := memWrite rs.cap rs.buf rs.head data
          head := rs.head + BitVec.ofNat 64 data.length }, true)) := by
  unfold RingState.push
  split
  · exact .inl ⟨by assumption, rfl⟩
  · exact .inr ⟨by omega, rfl⟩

@[simp] theorem RingState.push_valid (rs : RingState) (t : U64) (data : List Byte) :
    (rs.push t data).1.valid = rs.valid := by unfold RingState.push; split <;> rfl

@[simp] theorem RingState.push_k (rs : RingState) (t : U64) (data : List Byte) :
    (rs.push t data).1.k = rs.k := by unfold RingState.push; split <;> rfl

@[simp] theorem RingState.push_tail (rs : RingState) (t : U64) (data : List Byte) :
    (rs.push t data).1.tail = rs.tail := by unfold RingState.push; split <;> rfl

@[simp] theorem RingState.push_cHeadSeen (rs : RingState) (t : U64) (data : List Byte) :
    (rs.push t data).1.cHeadSeen = rs.cHeadSeen := by unfold RingState.push; split <;> rfl

@[simp] theorem RingState.push_pTailSeen (rs : RingState) (t : U64) (data : List Byte) :
    (rs.push t data).1.pTailSeen = t := by unfold RingState.push; split <;> rfl

/-- A push keeps the canonical form of the storage. -/
theorem RingState.push_wf {rs : RingState} (t : U64) (data : List Byte) (h : rs.buf.wf = true) :
    (rs.push t data).1.buf.wf = true := by
  unfold RingState.push
  split
  · exact h
  · exact memWrite_wf _ _ _ h

theorem RingState.popCount_le (rs : RingState) (h : U64) (max : Nat) : rs.popCount h max ≤ max :=
  Nat.min_le_left _ _

theorem RingState.popCount_le_seen (rs : RingState) (h : U64) (max : Nat) :
    rs.popCount h max ≤ (h - rs.tail).toNat := Nat.min_le_right _ _

theorem RingState.popCount_lt (rs : RingState) (h : U64) (max : Nat) : rs.popCount h max < 2 ^ 64 :=
  lt_of_le_of_lt (rs.popCount_le_seen h max) (h - rs.tail).isLt

/-- A pop that answers read as many bytes as it moved `tail`, from `tail` on, and changed nothing else but
`c_head_seen`. -/
theorem RingState.pop_eq_some {rs rs' : RingState} {h : U64} {max : Nat} {data : List Byte}
    (hp : rs.pop h max = some (rs', data)) :
    memRead rs.cap rs.buf rs.tail (rs.popCount h max) = some data ∧ data.length = rs.popCount h max
      ∧ rs' = { rs with cHeadSeen := h, tail := rs.tail + BitVec.ofNat 64 (rs.popCount h max) } := by
  unfold RingState.pop at hp
  rw [Option.map_eq_some_iff] at hp
  obtain ⟨d, hd, he⟩ := hp
  simp only [Prod.mk.injEq] at he
  obtain ⟨rfl, rfl⟩ := he
  exact ⟨hd, ((memRead_eq_some_iff _ _ _ _ _).1 hd).1, rfl⟩

/-- A pop answers where every byte it takes was written. -/
theorem RingState.pop_of_memRead {rs : RingState} {h : U64} {max : Nat} {data : List Byte}
    (hr : memRead rs.cap rs.buf rs.tail (rs.popCount h max) = some data) :
    rs.pop h max = some ({ rs with cHeadSeen := h, tail := rs.tail + BitVec.ofNat 64 (rs.popCount h max) }, data) := by
  simp [RingState.pop, hr]

end Sys2Proof.Machine
end

