-- ==== Sys2Proof/Laws/Demod.lean ====
section
/-! SUPPORT. The demodulator pair by pair: what one pair changes, calls one after the other, and the count of samples
(spec/41_demod.md R135, R136, R137, R139). -/

namespace Sys2Proof.Machine

/-- The configuration of a demodulator: what only `DEMOD_INIT` writes (R30). -/
def DemodState.config (dm : DemodState) : Bool × U32 × U32 × U32 × F32 :=
  (dm.valid, dm.sampleRate, dm.audioRate, dm.D, dm.alpha)

/-- A pair keeps the configuration and leaves its sample as the previous one. -/
theorem demodPair_config (P : Params) (dm : DemodState) (i q : Byte) :
    (demodPair P dm i q).1.config = dm.config ∧ (demodPair P dm i q).1.prev = sampleOf P i q := by
  unfold demodPair
  by_cases h : dm.counter + 1#32 = dm.D
  · simp [h, closeWindow, DemodState.config]
  · simp [h, DemodState.config]

/-- A pair below the end of its window emits nothing and counts one more; the pair that ends the window emits one
sample and starts the count again. -/
theorem demodPair_count (P : Params) (dm : DemodState) (i q : Byte) (h : dm.counter.toNat < dm.D.toNat) :
    (dm.counter.toNat + 1 = dm.D.toNat ∧ (demodPair P dm i q).1.counter = 0#32
        ∧ (demodPair P dm i q).2.length = 1)
      ∨ (dm.counter.toNat + 1 < dm.D.toNat ∧ (demodPair P dm i q).1.counter.toNat = dm.counter.toNat + 1
        ∧ (demodPair P dm i q).2 = []) := by
  have hD := dm.D.isLt
  have hc : (dm.counter + 1#32).toNat = dm.counter.toNat + 1 := by
    rw [BitVec.toNat_add]
    simp only [BitVec.toNat_ofNat]
    omega
  by_cases he : dm.counter + 1#32 = dm.D
  · have : dm.counter.toNat + 1 = dm.D.toNat := by rw [← hc, he]
    exact .inl ⟨this, by simp [demodPair, he, closeWindow], by simp [demodPair, he]⟩
  · have : dm.counter.toNat + 1 ≠ dm.D.toNat := fun h => he (BitVec.eq_of_toNat_eq (by rw [hc, h]))
    exact .inr ⟨by omega, by simp [demodPair, he, hc], by simp [demodPair, he]⟩

@[simp] theorem demodBytes_nil (P : Params) (dm : DemodState) : demodBytes P dm [] = (dm, []) := rfl

@[simp] theorem demodBytes_single (P : Params) (dm : DemodState) (b : Byte) : demodBytes P dm [b] = (dm, []) := rfl

theorem demodBytes_cons (P : Params) (dm : DemodState) (i q : Byte) (rest : List Byte) :
    demodBytes P dm (i :: q :: rest)
      = ((demodBytes P (demodPair P dm i q).1 rest).1,
        (demodPair P dm i q).2 ++ (demodBytes P (demodPair P dm i q).1 rest).2) := rfl

/-- Whole pairs and then more bytes are demodulated one after the other. -/
theorem demodBytes_append (P : Params) (dm : DemodState) (xs ys : List Byte) (h : xs.length % 2 = 0) :
    demodBytes P dm (xs ++ ys)
      = ((demodBytes P (demodBytes P dm xs).1 ys).1,
        (demodBytes P dm xs).2 ++ (demodBytes P (demodBytes P dm xs).1 ys).2) := by
  induction xs using List.twoStepInduction generalizing dm with
  | nil => simp
  | singleton x => simp at h
  | cons_cons x y xs ih _ =>
    have := ih (demodPair P dm x y).1 (by simp only [List.length_cons] at h; omega)
    simp only [List.cons_append, demodBytes_cons, this, List.append_assoc]

/-- A payload keeps the configuration. -/
theorem demodBytes_config (P : Params) (dm : DemodState) (iq : List Byte) :
    (demodBytes P dm iq).1.config = dm.config := by
  induction iq using List.twoStepInduction generalizing dm with
  | nil => rfl
  | singleton x => rfl
  | cons_cons x y xs ih _ => rw [demodBytes_cons, ih, (demodPair_config P dm x y).1]

/-- After a payload the previous sample is the old one or that of two bytes. -/
theorem demodBytes_prev (P : Params) (dm : DemodState) (iq : List Byte) :
    (demodBytes P dm iq).1.prev = dm.prev ∨ ∃ i q, (demodBytes P dm iq).1.prev = sampleOf P i q := by
  induction iq using List.twoStepInduction generalizing dm with
  | nil => exact .inl rfl
  | singleton x => exact .inl rfl
  | cons_cons x y xs ih _ =>
    rw [demodBytes_cons]
    rcases ih (demodPair P dm x y).1 with h | h
    · exact .inr ⟨x, y, by rw [h, (demodPair_config P dm x y).2]⟩
    · exact .inr h

/-- From a counter below `D`, the samples and the counter are the quotient and the remainder of the pairs counted. -/
theorem demodBytes_count (P : Params) (dm : DemodState) (iq : List Byte) (h : dm.counter.toNat < dm.D.toNat) :
    (demodBytes P dm iq).2.length = (dm.counter.toNat + iq.length / 2) / dm.D.toNat
      ∧ (demodBytes P dm iq).1.counter.toNat = (dm.counter.toNat + iq.length / 2) % dm.D.toNat := by
  induction iq using List.twoStepInduction generalizing dm with
  | nil => simp [Nat.div_eq_of_lt h, Nat.mod_eq_of_lt h]
  | singleton x => simp [Nat.div_eq_of_lt h, Nat.mod_eq_of_lt h]
  | cons_cons x y xs ih _ =>
    have hl : (x :: y :: xs).length / 2 = xs.length / 2 + 1 := by simp only [List.length_cons]; omega
    have hD : (demodPair P dm x y).1.D = dm.D := by
      have := (demodPair_config P dm x y).1
      simp only [DemodState.config, Prod.mk.injEq] at this
      exact this.2.2.2.1
    rw [demodBytes_cons, hl, List.length_append]
    rcases demodPair_count P dm x y h with ⟨he, hc, hs⟩ | ⟨he, hc, hs⟩
    · obtain ⟨h1, h2⟩ := ih (demodPair P dm x y).1 (by rw [hc, hD]; simp; omega)
      rw [hD, hc] at h1 h2
      simp only [BitVec.toNat_ofNat, Nat.zero_mod, Nat.zero_add] at h1 h2
      rw [h1, h2, hs, show dm.counter.toNat + (xs.length / 2 + 1) = xs.length / 2 + dm.D.toNat by omega,
        Nat.add_div_right _ (by omega), Nat.add_mod_right]
      exact ⟨by omega, rfl⟩
    · obtain ⟨h1, h2⟩ := ih (demodPair P dm x y).1 (by rw [hc, hD]; omega)
      rw [hD, hc] at h1 h2
      rw [h1, h2, hs, show dm.counter.toNat + 1 + xs.length / 2 = dm.counter.toNat + (xs.length / 2 + 1) by omega]
      simp

/-- The padded bytes are as many as needed. -/
theorem padded_length (P : Params) (need : Nat) (got : List Byte) (h : got.length ≤ need) :
    (padded P need got).length = need := by
  simp only [padded, List.length_append, List.length_replicate]
  omega

end Sys2Proof.Machine
end

