-- ==== Sys2Proof/Laws/Exec.lean ====
section
/-! SUPPORT. What a command can do, said once: it raised one condition and did nothing else, or it was issued on an
allowed port and had its effect (spec/60_exceptions.md R201, R204, R205). -/

namespace Sys2Proof.Machine

open Host

/-- The state after a command that raised `c` (R201). -/
def State.failed (s : State) (c : Condition) (o : Opcode) : State :=
  (s.setStatus (setCondition c s.status)).finish (failResult o)

/-- The state that a command which runs to its end reaches. -/
def Effect : Instr → State → State → Prop
  | .nop, s, t => t = s.finish []
  | .regRead num, s, t =>
    ∃ reg v, regOf s.sp.N num = some reg ∧ readReg s reg = some v ∧ t = s.finish [.u64 v]
  | .statusClear mask, s, t => t = (s.setStatus (clearWarnings mask s.status)).finish []
  | .ringInit r capacity, s, t =>
    capacityLegal s.params capacity = true
      ∧ t = (s.setRing r (RingState.constructed (BitVec.ofNat 6 (Nat.log2 capacity.toNat)))).finish [.bool true]
  | .ringPush r data, s, t =>
    (s.ring r).valid = true ∧ ∃ seen out, seen = s.drawBetween (s.ring r).pTailSeen (s.ring r).tail
      ∧ out = (s.ring r).push seen data ∧ t = (s.afterDraw.setRing r out.1).finish [.bool out.2]
  | .ringPop r max, s, t =>
    (s.ring r).valid = true ∧ ∃ seen ring data, seen = s.drawBetween (s.ring r).cHeadSeen (s.ring r).head
      ∧ (s.ring r).pop seen max.toNat = some (ring, data) ∧ t = (s.afterDraw.setRing r ring).finish [.bytes data]
  | .demodInit sampleRate audioRate, s, t =>
    audioRate ≠ 0#32 ∧ ∃ dm, dm = DemodState.constructed s.params sampleRate audioRate
      ∧ t = ((s.setDm dm).warn (ratesMismatch sampleRate audioRate) .rateWarn).finish [.u32 dm.D]
  | .demodProcess iq, s, t =>
    s.dm.valid = true ∧ ∃ dm pcm, demodBytes s.params s.dm iq = (dm, pcm)
      ∧ t = ((s.setDm dm).warn (iq.length % 2 == 1) .oddDrop).finish [.i16s pcm]
  | .audioPull r frames, s, t =>
    (s.ring r).valid = true ∧ s.dm.valid = true ∧ bytesNeeded frames s.dm.D < 2 ^ 64
      ∧ ∃ seen ring got dm pcm, seen = s.drawBetween (s.ring r).cHeadSeen (s.ring r).head
        ∧ (s.ring r).pop seen (bytesNeeded frames s.dm.D) = some (ring, got)
        ∧ demodBytes s.params s.dm (padded s.params (bytesNeeded frames s.dm.D) got) = (dm, pcm)
        ∧ pcm.length = frames.toNat
        ∧ t = (((s.afterDraw.setRing r ring).setDm dm).warn
            (decide (got.length < bytesNeeded frames s.dm.D)) .underflow).finish [.i16s pcm]
  | .specInit n winSel table, s, t =>
    specOperandsLegal s.params n winSel table = true
      ∧ t = (s.setSp (SpecState.configured s.params n winSel table)).finish [.bool true]
  | .specWindow iq, s, t =>
    s.sp.valid = true ∧ s.sp.N.toNat ≤ s.sp.win.length
      ∧ t = ((s.warn (iq.length % 2 == 1) .oddDrop).warn (decide (iq.length / 2 < s.sp.N.toNat))
          .shortFrame).finish [.cf32s (windowFrame s.params s.sp iq)]
  | .specMagdb bins, s, t =>
    s.sp.valid = true ∧ bins.length = s.sp.N.toNat
      ∧ t = s.finish [.f32s (magnitudes s.params s.sp.N.toNat bins)]

/-- The one cause of `PULL_MISMATCH`: a pull whose padded bytes gave another number of samples (R155). -/
def Mismatched (i : Instr) (s : State) : Prop :=
  ∃ r frames ring got, i = .audioPull r frames ∧ (s.ring r).valid = true ∧ s.dm.valid = true
    ∧ (s.ring r).pop (s.drawBetween (s.ring r).cHeadSeen (s.ring r).head) (bytesNeeded frames s.dm.D)
      = some (ring, got)
    ∧ (demodBytes s.params s.dm (padded s.params (bytesNeeded frames s.dm.D) got)).2.length ≠ frames.toNat

theorem failed_eq (s : State) (c : Condition) (o : Opcode) :
    s.failed c o = { s with
      status := s.status ||| BitVec.ofNat 32 (2 ^ conditionBit c)
      results := s.results ++ [⟨s.issuer, failResult o⟩] } := rfl

@[simp] theorem failed_ring (s : State) (c : Condition) (o : Opcode) (r : RingId) :
    (s.failed c o).ring r = s.ring r := by cases r <;> rfl

@[simp] theorem failed_dm (s : State) (c : Condition) (o : Opcode) : (s.failed c o).dm = s.dm := rfl

@[simp] theorem failed_sp (s : State) (c : Condition) (o : Opcode) : (s.failed c o).sp = s.sp := rfl

@[simp] theorem failed_status (s : State) (c : Condition) (o : Opcode) :
    (s.failed c o).status = setCondition c s.status := rfl

@[simp] theorem failed_params (s : State) (c : Condition) (o : Opcode) : (s.failed c o).params = s.params := rfl

@[simp] theorem failed_inbox (s : State) (c : Condition) (o : Opcode) : (s.failed c o).inbox = s.inbox := rfl

@[simp] theorem failed_issuer (s : State) (c : Condition) (o : Opcode) : (s.failed c o).issuer = s.issuer := rfl

@[simp] theorem failed_results (s : State) (c : Condition) (o : Opcode) :
    (s.failed c o).results = s.results ++ [⟨s.issuer, failResult o⟩] := rfl

@[simp] theorem failed_lastResult (s : State) (c : Condition) (o : Opcode) :
    (s.failed c o).lastResult = failResult o := finish_lastResult _ _

/-- A command that ends in a next state raised one condition and did nothing else, or had its effect on an allowed
port. -/
theorem exec_next {i : Instr} {s t : State} (h : exec i s = .next t) :
    (∃ c, conditionClass c ≠ .warning ∧ (c = .pullMismatch → Mismatched i s) ∧ t = s.failed c i.opcode)
      ∨ (portAllowed i s.issuer = true ∧ Effect i s t) := by
  have fail : ∀ c, conditionClass c ≠ .warning ∧ c ≠ .pullMismatch →
      t = (s.setStatus (setCondition c s.status)).finish (failResult i.opcode) →
      ∃ c, conditionClass c ≠ .warning ∧ (c = .pullMismatch → Mismatched i s) ∧ t = s.failed c i.opcode :=
    fun c hc ht => ⟨c, hc.1, fun h => absurd h hc.2, ht⟩
  cases i with
  | nop =>
    simp only [exec, execNop, onPort] at h
    rcases require_next h with ⟨hp, h⟩ | ⟨-, h⟩
    · exact .inr ⟨hp, by simpa [Effect, eq_comm] using h⟩
    · exact .inl (fail _ (by decide) h)
  | regRead num =>
    simp only [exec, execRegRead, onPort] at h
    rcases require_next h with ⟨hp, h⟩ | ⟨-, h⟩
    · split at h
      · exact .inl (fail .badOperand (by decide) (by simpa [Instr.opcode, eq_comm] using h))
      · rename_i reg hreg
        split at h
        · rename_i v hv
          exact .inr ⟨hp, reg, v, hreg, hv, by simpa [eq_comm] using h⟩
        · cases h
    · exact .inl (fail _ (by decide) h)
  | statusClear mask =>
    simp only [exec, execStatusClear, onPort] at h
    rcases require_next h with ⟨hp, h⟩ | ⟨-, h⟩
    · exact .inr ⟨hp, by simpa [Effect, eq_comm] using h⟩
    · exact .inl (fail _ (by decide) h)
  | ringInit r capacity =>
    simp only [exec, execRingInit, onPort] at h
    rcases require_next h with ⟨hp, h⟩ | ⟨-, h⟩
    · rcases require_next h with ⟨hc, h⟩ | ⟨-, h⟩
      · exact .inr ⟨hp, hc, by simpa [eq_comm] using h⟩
      · exact .inl (fail _ (by decide) h)
    · exact .inl (fail _ (by decide) h)
  | ringPush r data =>
    simp only [exec, execRingPush, onPort] at h
    rcases require_next h with ⟨hp, h⟩ | ⟨-, h⟩
    · rcases require_next h with ⟨hc, h⟩ | ⟨-, h⟩
      · exact .inr ⟨hp, hc, _, _, rfl, rfl, by simpa [eq_comm] using h⟩
      · exact .inl (fail _ (by decide) h)
    · exact .inl (fail _ (by decide) h)
  | ringPop r max =>
    simp only [exec, execRingPop, onPort] at h
    rcases require_next h with ⟨hp, h⟩ | ⟨-, h⟩
    · rcases require_next h with ⟨hc, h⟩ | ⟨-, h⟩
      · split at h
        · rename_i out hout
          exact .inr ⟨hp, hc, _, out.1, out.2, rfl, hout, by simpa [eq_comm] using h⟩
        · cases h
      · exact .inl (fail _ (by decide) h)
    · exact .inl (fail _ (by decide) h)
  | demodInit sampleRate audioRate =>
    simp only [exec, execDemodInit, onPort] at h
    rcases require_next h with ⟨hp, h⟩ | ⟨-, h⟩
    · rcases require_next h with ⟨hc, h⟩ | ⟨-, h⟩
      · exact .inr ⟨hp, by simpa using hc, _, rfl, by simpa [eq_comm] using h⟩
      · exact .inl (fail _ (by decide) h)
    · exact .inl (fail _ (by decide) h)
  | demodProcess iq =>
    simp only [exec, execDemodProcess, onPort] at h
    rcases require_next h with ⟨hp, h⟩ | ⟨-, h⟩
    · rcases require_next h with ⟨hc, h⟩ | ⟨-, h⟩
      · exact .inr ⟨hp, hc, _, _, rfl, by simpa [eq_comm] using h⟩
      · exact .inl (fail _ (by decide) h)
    · exact .inl (fail _ (by decide) h)
  | audioPull r frames =>
    simp only [exec, execAudioPull, onPort] at h
    rcases require_next h with ⟨hp, h⟩ | ⟨-, h⟩
    · rcases require_next h with ⟨hc, h⟩ | ⟨-, h⟩
      · rw [Bool.and_eq_true] at hc
        rcases require_next h with ⟨hn, h⟩ | ⟨-, h⟩
        · split at h
          · cases h
          · rename_i ring got hpop
            rcases require_next h with ⟨hl, h⟩ | ⟨hl, h⟩
            · exact .inr ⟨hp, hc.1, hc.2, of_decide_eq_true hn, _, ring, got, _, _, rfl, hpop, rfl, by simpa using hl,
                by simpa [eq_comm] using h⟩
            · exact .inl ⟨.pullMismatch, by decide, fun _ => ⟨r, frames, ring, got, rfl, hc.1, hc.2, hpop, by simpa using hl⟩,
                h⟩
        · exact .inl (fail _ (by decide) h)
      · exact .inl (fail _ (by decide) h)
    · exact .inl (fail _ (by decide) h)
  | specInit n winSel table =>
    simp only [exec, execSpecInit, onPort] at h
    rcases require_next h with ⟨hp, h⟩ | ⟨-, h⟩
    · rcases require_next h with ⟨hc, h⟩ | ⟨-, h⟩
      · exact .inr ⟨hp, hc, by simpa [eq_comm] using h⟩
      · exact .inl (fail _ (by decide) h)
    · exact .inl (fail _ (by decide) h)
  | specWindow iq =>
    simp only [exec, execSpecWindow, onPort] at h
    rcases require_next h with ⟨hp, h⟩ | ⟨-, h⟩
    · rcases require_next h with ⟨hc, h⟩ | ⟨-, h⟩
      · split at h
        · cases h
        · exact .inr ⟨hp, hc, by omega, by simpa [eq_comm] using h⟩
      · exact .inl (fail _ (by decide) h)
    · exact .inl (fail _ (by decide) h)
  | specMagdb bins =>
    simp only [exec, execSpecMagdb, onPort] at h
    rcases require_next h with ⟨hp, h⟩ | ⟨-, h⟩
    · rcases require_next h with ⟨hc, h⟩ | ⟨-, h⟩
      · rcases require_next h with ⟨hl, h⟩ | ⟨-, h⟩
        · exact .inr ⟨hp, hc, by simpa using hl, by simpa [eq_comm] using h⟩
        · exact .inl (fail _ (by decide) h)
      · exact .inl (fail _ (by decide) h)
    · exact .inl (fail _ (by decide) h)

/-! ## Steps -/

/-- An illegal word sets its bit and does nothing else; the command that a word and its payload stand for is run. -/
theorem runCommand_next {w : U32} {p : List Value} {s t : State} (h : runCommand w p s = .next t) :
    (∃ i, decode w p = .ok i ∧ exec i s = .next t)
      ∨ ((∃ e, decode w p = .error e ∧ e ≠ .payloadMismatch)
        ∧ t = (s.setStatus (setCondition .illegal s.status)).finish (illegalResult w)) := by
  unfold runCommand at h
  split at h
  · exact .inl ⟨_, by assumption, h⟩
  · cases h
  all_goals exact .inr ⟨⟨_, by assumption, by simp⟩, by simpa [raiseIllegal, eq_comm] using h⟩

/-- What a step can do: nothing with no event pending, the reset event, or the first command. -/
theorem step_next {s t : State} (h : step s = .next t) :
    (s.inbox = [] ∧ t = s) ∨ (∃ rest, s.inbox = .reset :: rest ∧ t = s.resetEvent rest)
      ∨ ∃ port w p rest, s.inbox = .command port w p :: rest ∧ runCommand w p (s.accept port rest) = .next t := by
  unfold step at h
  split at h
  · exact .inl ⟨by assumption, by simpa [eq_comm] using h⟩
  · exact .inr (.inl ⟨_, by assumption, by simpa [eq_comm] using h⟩)
  · exact .inr (.inr ⟨_, _, _, _, by assumption, h⟩)

end Sys2Proof.Machine
end

