-- ==== Sys2Proof/Laws/Float.lean ====
section
/-! SUPPORT. Rounding (spec/00_scope.md R11): how near the rounded whole number is, that rounding keeps order, what
value the encoding of a rounded magnitude has, and which operations a NaN choice cannot show in. -/

namespace Sys2Proof.Machine

/-! ## The nearest whole number -/

theorem roundHalfEven_ge (num den : Nat) : num / den ≤ roundHalfEven num den := by
  simp only [roundHalfEven]
  split <;> omega

theorem roundHalfEven_le (num den : Nat) : roundHalfEven num den ≤ num / den + 1 := by
  simp only [roundHalfEven]
  split <;> omega

/-- A whole number is its own rounding. -/
theorem roundHalfEven_mul (q : Nat) {den : Nat} (h : 0 < den) : roundHalfEven (q * den) den = q := by
  simp only [roundHalfEven, Nat.mul_mod_left, Nat.mul_div_cancel _ h]
  rw [if_neg]
  rintro (h1 | ⟨h1, -⟩) <;> omega

/-- Rounding keeps the order of two quotients. -/
theorem roundHalfEven_mono {a b c d : Nat} (hb : 0 < b) (hd : 0 < d) (h : a * d ≤ c * b) :
    roundHalfEven a b ≤ roundHalfEven c d := by
  have hq : a / b ≤ c / d := by
    rw [Nat.le_div_iff_mul_le hd, ← Nat.mul_le_mul_right_iff hb]
    calc a / b * d * b = a / b * b * d := by ring
      _ ≤ a * d := Nat.mul_le_mul_right _ (Nat.div_mul_le_self _ _)
      _ ≤ c * b := h
  rcases Nat.lt_or_ge (a / b) (c / d) with hlt | hge
  · have h1 := roundHalfEven_le a b
    have h2 := roundHalfEven_ge c d
    omega
  · have he : a / b = c / d := by omega
    have ha := Nat.div_add_mod a b
    have hc := Nat.div_add_mod c d
    have hr : a % b * d ≤ c % d * b := by
      rw [he] at ha
      have e1 : a * d = b * (c / d) * d + a % b * d := by rw [← Nat.add_mul, ha]
      have e2 : c * b = b * (c / d) * d + c % d * b := by
        calc c * b = (d * (c / d) + c % d) * b := by rw [hc]
          _ = _ := by ring
      omega
    simp only [roundHalfEven, he]
    split
    · rename_i h1
      rw [if_pos]
      rcases h1 with h1 | ⟨h1, h2⟩
      · left
        by_contra hle
        have h3 : b * d < 2 * (a % b) * d := Nat.mul_lt_mul_of_pos_right h1 hd
        have h4 : 2 * (c % d) * b ≤ d * b := Nat.mul_le_mul_right _ (by omega)
        nlinarith
      · rcases Nat.lt_or_ge d (2 * (c % d)) with h3 | h3
        · exact .inl h3
        · refine .inr ⟨?_, h2⟩
          have h4 : b * d = 2 * (a % b) * d := by rw [h1]
          have h5 : 2 * (c % d) * b ≤ d * b := Nat.mul_le_mul_right _ h3
          have h6 : d * b ≤ 2 * (c % d) * b := by nlinarith
          exact Nat.le_antisymm h3 (Nat.le_of_mul_le_mul_right h6 hb)
    · split <;> omega

/-! ## Magnitudes -/

/-- The scale of a rounding: how many low bits of the quotient, in smallest units, a format drops. -/
def roundShift (f : Format) (num den : Nat) : Nat := Nat.log2 (num * 2 ^ f.unit / den) - (f.prec - 1)

/-- The significand of a rounding before the exponent is put above it. -/
def roundSig (f : Format) (num den : Nat) : Nat :=
  roundHalfEven (num * 2 ^ f.unit) (den * 2 ^ roundShift f num den)

theorem roundMag_eq (f : Format) (num den : Nat) :
    roundMag f num den = min (roundSig f num den + roundShift f num den * 2 ^ (f.prec - 1)) (infBits f) := rfl

theorem roundMag_le (f : Format) (num den : Nat) : roundMag f num den ≤ infBits f := Nat.min_le_right _ _

/-- The quotient lies in the range of its scale: below `2^prec` scaled units, and at least half of that where any low
bit is dropped. -/
theorem quotient_range (f : Format) (hp : 0 < f.prec) (num den : Nat) :
    num * 2 ^ f.unit / den < 2 ^ (f.prec + roundShift f num den)
      ∧ (0 < roundShift f num den → 2 ^ (f.prec - 1 + roundShift f num den) ≤ num * 2 ^ f.unit / den) := by
  generalize hq : num * 2 ^ f.unit / den = q
  have hs : roundShift f num den = Nat.log2 q - (f.prec - 1) := by rw [roundShift, hq]
  constructor
  · have h1 : q < 2 ^ (Nat.log2 q + 1) := Nat.lt_log2_self
    exact lt_of_lt_of_le h1 (Nat.pow_le_pow_right (by omega) (by omega))
  · intro h0
    have hne : q ≠ 0 := by
      rintro rfl
      simp [hs] at h0
    have h1 := Nat.log2_self_le hne
    exact le_trans (Nat.pow_le_pow_right (by omega) (by omega)) h1

/-- The significand fills at most `prec` bits, and reaches the hidden one where any low bit is dropped. -/
theorem roundSig_range (f : Format) (hp : 0 < f.prec) (num den : Nat) :
    roundSig f num den ≤ 2 ^ f.prec
      ∧ (0 < roundShift f num den → 2 ^ (f.prec - 1) ≤ roundSig f num den) := by
  obtain ⟨h1, h2⟩ := quotient_range f hp num den
  have hq : num * 2 ^ f.unit / (den * 2 ^ roundShift f num den)
      = num * 2 ^ f.unit / den / 2 ^ roundShift f num den := (Nat.div_div_eq_div_mul _ _ _).symm
  have hge := roundHalfEven_ge (num * 2 ^ f.unit) (den * 2 ^ roundShift f num den)
  have hle := roundHalfEven_le (num * 2 ^ f.unit) (den * 2 ^ roundShift f num den)
  rw [hq] at hge hle
  constructor
  · have : num * 2 ^ f.unit / den / 2 ^ roundShift f num den < 2 ^ f.prec := by
      rw [Nat.div_lt_iff_lt_mul (Nat.two_pow_pos _), ← Nat.pow_add]
      exact h1
    exact le_trans hle this
  · intro h0
    refine le_trans ?_ hge
    rw [Nat.le_div_iff_mul_le (Nat.two_pow_pos _), ← Nat.pow_add]
    exact h2 h0

/-- Rounding keeps order. -/
theorem roundMag_mono (f : Format) (hp : 0 < f.prec) {a b c d : Nat} (hb : 0 < b) (hd : 0 < d) (h : a * d ≤ c * b) :
    roundMag f a b ≤ roundMag f c d := by
  have hscale : a * 2 ^ f.unit * d ≤ c * 2 ^ f.unit * b := by
    calc a * 2 ^ f.unit * d = a * d * 2 ^ f.unit := by ring
      _ ≤ c * b * 2 ^ f.unit := Nat.mul_le_mul_right _ h
      _ = c * 2 ^ f.unit * b := by ring
  have hq : a * 2 ^ f.unit / b ≤ c * 2 ^ f.unit / d := by
    rw [Nat.le_div_iff_mul_le hd, ← Nat.mul_le_mul_right_iff hb]
    calc a * 2 ^ f.unit / b * d * b = a * 2 ^ f.unit / b * b * d := by ring
      _ ≤ a * 2 ^ f.unit * d := Nat.mul_le_mul_right _ (Nat.div_mul_le_self _ _)
      _ ≤ c * 2 ^ f.unit * b := hscale
  have hs : roundShift f a b ≤ roundShift f c d := by
    have : Nat.log2 (a * 2 ^ f.unit / b) ≤ Nat.log2 (c * 2 ^ f.unit / d) := by
      rw [Nat.log2_eq_log_two, Nat.log2_eq_log_two]
      exact Nat.log_mono_right hq
    simp only [roundShift]
    omega
  obtain ⟨h1, -⟩ := roundSig_range f hp a b
  obtain ⟨-, h4⟩ := roundSig_range f hp c d
  have hpow : 2 ^ f.prec = 2 * 2 ^ (f.prec - 1) := by rw [← Nat.pow_succ', Nat.succ_eq_add_one, Nat.sub_add_cancel hp]
  rw [roundMag_eq, roundMag_eq]
  refine min_le_min_right _ ?_
  rcases Nat.lt_or_ge (roundShift f a b) (roundShift f c d) with hlt | hge
  · have h5 := h4 (by omega)
    have h6 : (roundShift f a b + 1) * 2 ^ (f.prec - 1) ≤ roundShift f c d * 2 ^ (f.prec - 1) :=
      Nat.mul_le_mul_right _ hlt
    rw [Nat.add_mul, Nat.one_mul] at h6
    omega
  · have he : roundShift f a b = roundShift f c d := by omega
    have : roundSig f a b ≤ roundSig f c d := by
      unfold roundSig
      rw [he]
      refine roundHalfEven_mono (Nat.mul_pos hb (Nat.two_pow_pos _)) (Nat.mul_pos hd (Nat.two_pow_pos _)) ?_
      calc a * 2 ^ f.unit * (d * 2 ^ roundShift f c d) = a * 2 ^ f.unit * d * 2 ^ roundShift f c d := by ring
        _ ≤ c * 2 ^ f.unit * b * 2 ^ roundShift f c d := Nat.mul_le_mul_right _ hscale
        _ = c * 2 ^ f.unit * (b * 2 ^ roundShift f c d) := by ring
    rw [he]
    omega

/-- The value of a significand below an exponent: the significand scaled. -/
theorem exactOf_sig (f : Format) (hp : 0 < f.prec) {sig shift : Nat} (h1 : sig ≤ 2 ^ f.prec)
    (h2 : 0 < shift → 2 ^ (f.prec - 1) ≤ sig) (h3 : sig + shift * 2 ^ (f.prec - 1) < infBits f) :
    exactOf f (sig + shift * 2 ^ (f.prec - 1)) = .fin false (sig * 2 ^ shift) (2 ^ f.unit) := by
  have hpow : 2 ^ f.prec = 2 * 2 ^ (f.prec - 1) := by rw [← Nat.pow_succ', Nat.succ_eq_add_one, Nat.sub_add_cancel hp]
  have htop : 2 ^ (f.ebits + f.prec - 1) = 2 ^ f.ebits * 2 ^ (f.prec - 1) := by
    rw [← Nat.pow_add]
    congr 1
    omega
  have hneg : (sig + shift * 2 ^ (f.prec - 1)).testBit (f.ebits + f.prec - 1) = false := by
    apply Nat.testBit_lt_two_pow
    rw [htop]
    exact lt_of_lt_of_le h3 (Nat.mul_le_mul_right _ (Nat.sub_le _ _))
  have hE := Nat.two_pow_pos f.ebits
  simp only [infBits] at h3
  simp only [exactOf, hneg]
  generalize 2 ^ (f.prec - 1) = A at *
  generalize 2 ^ f.ebits = E at *
  have hA : 0 < A := by
    rcases Nat.eq_zero_or_pos A with h | h
    · subst h
      simp at h3
    · exact h
  have key : ∀ q r, r < A → sig + shift * A = r + q * A →
      (sig + shift * A) / A % E = q ∧ (sig + shift * A) % A = r ∧ q ≠ E - 1 := by
    intro q r hr he
    have hq : q < E - 1 := by
      by_contra hge
      have : (E - 1) * A ≤ q * A := Nat.mul_le_mul_right _ (by omega)
      omega
    rw [he, Nat.add_mul_div_right _ _ hA, Nat.div_eq_of_lt hr, Nat.zero_add, Nat.add_mul_mod_self_right,
      Nat.mod_eq_of_lt hr, Nat.mod_eq_of_lt (by omega)]
    exact ⟨rfl, rfl, by omega⟩
  rcases Nat.lt_or_ge sig A with hlt | hge
  · have h0 : shift = 0 := by
      by_contra h
      have := h2 (by omega)
      omega
    subst h0
    obtain ⟨k1, k2, k3⟩ := key 0 sig hlt rfl
    rw [k1, k2, if_neg k3]
    simp
  · rcases Nat.lt_or_ge sig (2 * A) with hlt | hge2
    · obtain ⟨k1, k2, k3⟩ := key (shift + 1) (sig - A) (by omega) (by rw [Nat.add_mul, Nat.one_mul]; omega)
      rw [k1, k2, if_neg k3, if_neg (by omega), Nat.add_sub_cancel, show A + (sig - A) = sig by omega]
    · obtain ⟨k1, k2, k3⟩ := key (shift + 2) 0 hA (by rw [Nat.add_mul]; omega)
      have hs : sig = 2 * A := by omega
      rw [k1, k2, if_neg k3, if_neg (by omega), hs]
      congr 1
      rw [show shift + 2 - 1 = shift + 1 by omega, Nat.pow_succ]
      ring

/-- The value of a rounded magnitude below infinity. -/
theorem exactOf_roundMag (f : Format) (hp : 0 < f.prec) {num den : Nat} (h : roundMag f num den < infBits f) :
    exactOf f (roundMag f num den)
      = .fin false (roundSig f num den * 2 ^ roundShift f num den) (2 ^ f.unit) := by
  obtain ⟨h1, h2⟩ := roundSig_range f hp num den
  rw [roundMag_eq] at *
  have hlt : roundSig f num den + roundShift f num den * 2 ^ (f.prec - 1) < infBits f := by omega
  rw [Nat.min_eq_left (by omega)]
  exact exactOf_sig f hp h1 h2 hlt

/-! ## Encodings -/

/-- The infinite magnitude is infinity. -/
theorem exactOf_infBits : exactOf binary32 (infBits binary32) = .inf false ∧ exactOf binary64 (infBits binary64) = .inf false := by
  decide +kernel

/-- A binary32 value is no number, an infinity, or a whole number of smallest units. -/
theorem val32_cases (x : F32) :
    val32 x = .nan ∨ (∃ s, val32 x = .inf s) ∨ ∃ s k, val32 x = .fin s k (2 ^ 149) := by
  unfold val32 exactOf
  simp only
  split
  · split
    · exact .inr (.inl ⟨_, rfl⟩)
    · exact .inl rfl
  · split
    · exact .inr (.inr ⟨_, _, rfl⟩)
    · exact .inr (.inr ⟨_, _, rfl⟩)

/-- A binary64 value is no number, an infinity, or a whole number of smallest units. -/
theorem val64_cases (x : F64) :
    val64 x = .nan ∨ (∃ s, val64 x = .inf s) ∨ ∃ s k, val64 x = .fin s k (2 ^ binary64.unit) := by
  unfold val64 exactOf
  simp only
  split
  · split
    · exact .inr (.inl ⟨_, rfl⟩)
    · exact .inl rfl
  · split
    · exact .inr (.inr ⟨_, _, rfl⟩)
    · exact .inr (.inr ⟨_, _, rfl⟩)

/-- The sign bit changes the sign and nothing else. -/
theorem exactOf_sign (f : Format) (hp : 0 < f.prec) {x : Nat} (hx : x < 2 ^ (f.ebits + f.prec - 1)) :
    exactOf f (2 ^ (f.ebits + f.prec - 1) + x) = exactNeg (exactOf f x) := by
  have htop : 2 ^ (f.ebits + f.prec - 1) = 2 ^ (f.prec - 1) * 2 ^ f.ebits := by
    rw [← Nat.pow_add]
    congr 1
    omega
  have h1 : (2 ^ (f.ebits + f.prec - 1) + x).testBit (f.ebits + f.prec - 1) = true := by
    rw [Nat.testBit_two_pow_add_eq, Nat.testBit_lt_two_pow hx]
    rfl
  have h2 : x.testBit (f.ebits + f.prec - 1) = false := Nat.testBit_lt_two_pow hx
  have h3 : (2 ^ (f.ebits + f.prec - 1) + x) / 2 ^ (f.prec - 1) % 2 ^ f.ebits = x / 2 ^ (f.prec - 1) % 2 ^ f.ebits := by
    rw [htop, Nat.mul_add_div (Nat.two_pow_pos _), Nat.add_mod_left]
  have h4 : (2 ^ (f.ebits + f.prec - 1) + x) % 2 ^ (f.prec - 1) = x % 2 ^ (f.prec - 1) := by
    rw [htop, Nat.mul_add_mod]
  simp only [exactOf, h1, h2, h3, h4]
  split
  · split <;> rfl
  · split <;> rfl

/-- An encoding without a sign bit and at most infinity's is a nonnegative number or infinity. -/
theorem exactOf_nonneg (f : Format) {x : Nat} (hx : x ≤ infBits f) (hp : 0 < f.prec) :
    exactOf f x = .inf false ∨ ∃ k, exactOf f x = .fin false k (2 ^ f.unit) := by
  have htop : 2 ^ (f.ebits + f.prec - 1) = 2 ^ f.ebits * 2 ^ (f.prec - 1) := by
    rw [← Nat.pow_add]
    congr 1
    omega
  have hA := Nat.two_pow_pos (f.prec - 1)
  have hE := Nat.two_pow_pos f.ebits
  have hlt : x < 2 ^ (f.ebits + f.prec - 1) := by
    rw [htop]
    refine lt_of_le_of_lt hx ?_
    exact Nat.mul_lt_mul_of_pos_right (by omega) hA
  have h2 : x.testBit (f.ebits + f.prec - 1) = false := Nat.testBit_lt_two_pow hlt
  have hq : x / 2 ^ (f.prec - 1) < 2 ^ f.ebits := by rw [Nat.div_lt_iff_lt_mul hA, ← htop]; exact hlt
  simp only [exactOf, h2, Nat.mod_eq_of_lt hq]
  split
  · rename_i he
    have hm : x % 2 ^ (f.prec - 1) = 0 := by
      have h5 := Nat.div_add_mod x (2 ^ (f.prec - 1))
      rw [he, Nat.mul_comm] at h5
      simp only [infBits] at hx
      omega
    rw [if_pos hm]
    exact .inl rfl
  · split
    · exact .inr ⟨_, rfl⟩
    · exact .inr ⟨_, rfl⟩

/-- A finite value is a significand scaled, with the hidden one wherever it is scaled up. -/
theorem exactOf_fin_sig (f : Format) {x num den : Nat} {neg : Bool} (h : exactOf f x = .fin neg num den) :
    den = 2 ^ f.unit ∧ ∃ sig e, num = sig * 2 ^ e ∧ sig < 2 * 2 ^ (f.prec - 1) ∧ (0 < e → 2 ^ (f.prec - 1) ≤ sig) := by
  have hm : x % 2 ^ (f.prec - 1) < 2 ^ (f.prec - 1) := Nat.mod_lt _ (Nat.two_pow_pos _)
  simp only [exactOf] at h
  split at h
  · split at h <;> cases h
  · split at h
    · simp only [Exact.fin.injEq] at h
      obtain ⟨-, rfl, rfl⟩ := h
      exact ⟨rfl, _, 0, by rw [Nat.pow_zero, Nat.mul_one], by omega, by omega⟩
    · simp only [Exact.fin.injEq] at h
      obtain ⟨-, rfl, rfl⟩ := h
      exact ⟨rfl, _, _, rfl, by omega, by omega⟩

/-- Infinity's magnitude leaves the sign bit clear. -/
theorem infBits_lt (f : Format) (hp : 0 < f.prec) : infBits f < 2 ^ (f.ebits + f.prec - 1) := by
  have htop : 2 ^ (f.ebits + f.prec - 1) = 2 ^ f.ebits * 2 ^ (f.prec - 1) := by
    rw [← Nat.pow_add]
    congr 1
    omega
  have hE := Nat.two_pow_pos f.ebits
  rw [htop]
  exact Nat.mul_lt_mul_of_pos_right (by omega) (Nat.two_pow_pos _)

/-- A rounded number is a number or an infinity, of the same sign, and fits the format's bits. -/
theorem exactOf_fl (f : Format) (hp : 0 < f.prec) (nan : Nat) (s : Bool) (num den : Nat) :
    fl f nan (.fin s num den) < 2 ^ (f.ebits + f.prec)
      ∧ (exactOf f (fl f nan (.fin s num den)) = .inf s
        ∨ ∃ k, exactOf f (fl f nan (.fin s num den)) = .fin s k (2 ^ f.unit)) := by
  have hle := roundMag_le f num den
  have hinf := infBits_lt f hp
  have hbits : 2 ^ (f.ebits + f.prec) = 2 * 2 ^ (f.ebits + f.prec - 1) := by
    rw [← Nat.pow_succ', Nat.succ_eq_add_one, Nat.sub_add_cancel (by omega)]
  have h := exactOf_nonneg f hle hp
  cases s with
  | false =>
    simp only [fl, packSign]
    exact ⟨by simp only [Bool.false_eq_true, if_false]; omega, h⟩
  | true =>
    simp only [fl, packSign, if_true]
    rw [exactOf_sign f hp (lt_of_le_of_lt hle hinf)]
    refine ⟨by omega, ?_⟩
    rcases h with h | ⟨k, h⟩ <;> rw [h]
    · exact .inl rfl
    · exact .inr ⟨k, rfl⟩

/-- Rounding a number to binary64 gives a number or an infinity, of the same sign. -/
theorem val64_fl64 (s : Bool) (num den : Nat) :
    val64 (fl64 (.fin s num den)) = .inf s ∨ ∃ k, val64 (fl64 (.fin s num den)) = .fin s k (2 ^ binary64.unit) := by
  obtain ⟨h1, h2⟩ := exactOf_fl binary64 (by decide) nan64.toNat s num den
  unfold val64 fl64
  rw [BitVec.toNat_ofNat, Nat.mod_eq_of_lt (by exact h1)]
  exact h2

/-- Rounding a number to binary32 gives a number or an infinity, of the same sign. -/
theorem val32_fl32 (nan : F32) (s : Bool) (num den : Nat) :
    val32 (fl32 nan (.fin s num den)) = .inf s
      ∨ ∃ k, val32 (fl32 nan (.fin s num den)) = .fin s k (2 ^ binary32.unit) := by
  obtain ⟨h1, h2⟩ := exactOf_fl binary32 (by decide) nan.toNat s num den
  unfold val32 fl32
  rw [BitVec.toNat_ofNat, Nat.mod_eq_of_lt (by exact h1)]
  exact h2

/-- Rounding keeps an infinity. -/
theorem val64_fl64_inf (s : Bool) : val64 (fl64 (.inf s)) = .inf s := by cases s <;> decide +kernel

/-- A nonnegative number rounds to its rounded magnitude. -/
theorem fl_fin_false (f : Format) (nan num den : Nat) : fl f nan (.fin false num den) = roundMag f num den := by
  simp [fl, packSign]

/-- Below infinity, a larger encoding without a sign bit is of a value at least as large. -/
theorem exactOf_mono (f : Format) (hp : 0 < f.prec) {x y : Nat} (hxy : x ≤ y) (hy : y < infBits f) :
    ∃ a b, exactOf f x = .fin false a (2 ^ f.unit) ∧ exactOf f y = .fin false b (2 ^ f.unit) ∧ a ≤ b := by
  have htop : 2 ^ (f.ebits + f.prec - 1) = 2 ^ f.ebits * 2 ^ (f.prec - 1) := by
    rw [← Nat.pow_add]
    congr 1
    omega
  have hA := Nat.two_pow_pos (f.prec - 1)
  have hfin : ∀ z, z < infBits f → exactOf f z = .fin false
      (if z / 2 ^ (f.prec - 1) = 0 then z % 2 ^ (f.prec - 1)
        else (2 ^ (f.prec - 1) + z % 2 ^ (f.prec - 1)) * 2 ^ (z / 2 ^ (f.prec - 1) - 1)) (2 ^ f.unit) := by
    intro z hz
    have hq : z / 2 ^ (f.prec - 1) < 2 ^ f.ebits - 1 := by rw [Nat.div_lt_iff_lt_mul hA]; exact hz
    have hneg : z.testBit (f.ebits + f.prec - 1) = false :=
      Nat.testBit_lt_two_pow (lt_trans hz (infBits_lt f hp))
    have hmod := Nat.mod_eq_of_lt (lt_of_lt_of_le hq (Nat.sub_le _ _))
    simp only [exactOf, hneg, hmod, if_neg (Nat.ne_of_lt hq)]
    by_cases h0 : z / 2 ^ (f.prec - 1) = 0
    · rw [if_pos h0, if_pos h0]
    · rw [if_neg h0, if_neg h0]
  refine ⟨_, _, hfin x (by omega), hfin y hy, ?_⟩
  have hx := Nat.div_add_mod x (2 ^ (f.prec - 1))
  have hy := Nat.div_add_mod y (2 ^ (f.prec - 1))
  have hqq : x / 2 ^ (f.prec - 1) ≤ y / 2 ^ (f.prec - 1) := Nat.div_le_div_right hxy
  have hr := Nat.mod_lt x hA
  have hs := Nat.mod_lt y hA
  generalize x / 2 ^ (f.prec - 1) = q at *
  generalize y / 2 ^ (f.prec - 1) = p at *
  generalize x % 2 ^ (f.prec - 1) = r at *
  generalize y % 2 ^ (f.prec - 1) = s at *
  generalize 2 ^ (f.prec - 1) = A at *
  rcases Nat.eq_or_lt_of_le hqq with rfl | hlt
  · have : r ≤ s := by omega
    split
    · exact this
    · exact Nat.mul_le_mul_right _ (by omega)
  · rw [if_neg (show p ≠ 0 by omega)]
    have hone : 1 ≤ 2 ^ (p - 1) := Nat.two_pow_pos _
    split
    · calc r ≤ (A + s) * 1 := by omega
        _ ≤ _ := Nat.mul_le_mul_left _ hone
    · have hsp : 2 ^ (p - 1) = 2 ^ (p - 1 - q) * 2 * 2 ^ (q - 1) := by
        rw [← Nat.pow_succ, ← Nat.pow_add]
        congr 1
        omega
      have h1 : 1 ≤ 2 ^ (p - 1 - q) := Nat.two_pow_pos _
      rw [hsp, ← Nat.mul_assoc]
      apply Nat.mul_le_mul_right
      calc A + r ≤ (A + s) * (1 * 2) := by omega
        _ ≤ _ := Nat.mul_le_mul_left _ (Nat.mul_le_mul_right _ h1)

/-- A number between two others rounds between their roundings, with its sign kept. -/
theorem fl_between (f : Format) (hp : 0 < f.prec) (nan : Nat) (s : Bool)
    {num den a b c d lo hi : Nat} (hden : 0 < den) (hb : 0 < b) (hd : 0 < d) (h1 : a * den ≤ num * b)
    (h2 : num * d ≤ c * den) (hinf : roundMag f c d < infBits f)
    (hlo : exactOf f (roundMag f a b) = .fin false lo (2 ^ f.unit))
    (hhi : exactOf f (roundMag f c d) = .fin false hi (2 ^ f.unit)) :
    ∃ k, lo ≤ k ∧ k ≤ hi ∧ fl f nan (.fin s num den) < 2 ^ (f.ebits + f.prec)
      ∧ exactOf f (fl f nan (.fin s num den)) = .fin s k (2 ^ f.unit) := by
  have m1 := roundMag_mono f hp (a := a) (b := b) (c := num) (d := den) hb hden h1
  have m2 := roundMag_mono f hp (a := num) (b := den) (c := c) (d := d) hden hd h2
  obtain ⟨x, y, hx, hy, hxy⟩ := exactOf_mono f hp m1 (lt_of_le_of_lt m2 hinf)
  obtain ⟨y', z, hy', hz, hyz⟩ := exactOf_mono f hp m2 hinf
  rw [hlo, Exact.fin.injEq] at hx
  rw [hhi, Exact.fin.injEq] at hz
  rw [hy, Exact.fin.injEq] at hy'
  have hbits := infBits_lt f hp
  refine ⟨y, by omega, by omega, (exactOf_fl f hp nan s num den).1, ?_⟩
  cases s with
  | false => rw [fl_fin_false, hy]
  | true =>
    simp only [fl, packSign, if_true]
    rw [exactOf_sign f hp (by omega), hy, exactNeg, Bool.not_false]

/-- `fl_between` for binary64. -/
theorem val64_between (s : Bool) {num den a b c d lo hi : Nat} (hden : 0 < den) (hb : 0 < b) (hd : 0 < d)
    (h1 : a * den ≤ num * b) (h2 : num * d ≤ c * den) (hinf : roundMag binary64 c d < infBits binary64)
    (hlo : exactOf binary64 (roundMag binary64 a b) = .fin false lo (2 ^ binary64.unit))
    (hhi : exactOf binary64 (roundMag binary64 c d) = .fin false hi (2 ^ binary64.unit)) :
    ∃ k, lo ≤ k ∧ k ≤ hi ∧ val64 (fl64 (.fin s num den)) = .fin s k (2 ^ binary64.unit) := by
  obtain ⟨k, hk1, hk2, hlt, h⟩ := fl_between binary64 (by decide) nan64.toNat s hden hb hd h1 h2 hinf hlo hhi
  refine ⟨k, hk1, hk2, ?_⟩
  unfold val64 fl64
  rw [BitVec.toNat_ofNat, Nat.mod_eq_of_lt (by exact hlt)]
  exact h

/-- `fl_between` for binary32. -/
theorem val32_between (nan : F32) (s : Bool) {num den a b c d lo hi : Nat} (hden : 0 < den) (hb : 0 < b) (hd : 0 < d)
    (h1 : a * den ≤ num * b) (h2 : num * d ≤ c * den) (hinf : roundMag binary32 c d < infBits binary32)
    (hlo : exactOf binary32 (roundMag binary32 a b) = .fin false lo (2 ^ binary32.unit))
    (hhi : exactOf binary32 (roundMag binary32 c d) = .fin false hi (2 ^ binary32.unit)) :
    ∃ k, lo ≤ k ∧ k ≤ hi ∧ val32 (fl32 nan (.fin s num den)) = .fin s k (2 ^ binary32.unit) := by
  obtain ⟨k, hk1, hk2, hlt, h⟩ := fl_between binary32 (by decide) nan.toNat s hden hb hd h1 h2 hinf hlo hhi
  refine ⟨k, hk1, hk2, ?_⟩
  unfold val32 fl32
  rw [BitVec.toNat_ofNat, Nat.mod_eq_of_lt (by exact hlt)]
  exact h

/-- A number of `[0, 1]` rounds to one of `[0, 1]`. -/
theorem roundMag_unit (f : Format) (hp : 0 < f.prec) {num den : Nat} (hd : 0 < den) (h : num ≤ den)
    (h1 : roundMag f 1 1 < infBits f) :
    roundMag f num den < infBits f
      ∧ ∃ k, k ≤ 2 ^ f.unit ∧ exactOf f (roundMag f num den) = .fin false k (2 ^ f.unit) := by
  have hm := roundMag_mono f hp (a := num) (b := den) (c := 1) (d := 1) hd (by omega) (by omega)
  have hlt : roundMag f num den < infBits f := by omega
  refine ⟨hlt, _, ?_, exactOf_roundMag f hp hlt⟩
  have hq : num * 2 ^ f.unit / den ≤ 2 ^ f.unit := by
    apply Nat.div_le_of_le_mul
    exact Nat.mul_le_mul_right _ h
  have ht : roundShift f num den ≤ f.unit := by
    unfold roundShift
    have : Nat.log2 (num * 2 ^ f.unit / den) ≤ Nat.log2 (2 ^ f.unit) := by
      rw [Nat.log2_eq_log_two, Nat.log2_eq_log_two]
      exact Nat.log_mono_right hq
    rw [Nat.log2_two_pow] at this
    omega
  unfold roundSig
  generalize roundShift f num den = t at *
  have hsplit : 2 ^ (f.unit - t) * 2 ^ t = 2 ^ f.unit := by rw [← Nat.pow_add, Nat.sub_add_cancel ht]
  have hs := roundHalfEven_mono (a := num * 2 ^ f.unit) (b := den * 2 ^ t) (c := 2 ^ (f.unit - t) * 1) (d := 1)
    (Nat.mul_pos hd (Nat.two_pow_pos _)) (by omega)
    (by
      calc num * 2 ^ f.unit * 1 ≤ den * 2 ^ f.unit := by rw [Nat.mul_one]; exact Nat.mul_le_mul_right _ h
        _ = den * (2 ^ (f.unit - t) * 2 ^ t) := by rw [hsplit]
        _ = 2 ^ (f.unit - t) * 1 * (den * 2 ^ t) := by ring)
  rw [roundHalfEven_mul _ (by omega)] at hs
  calc _ ≤ 2 ^ (f.unit - t) * 2 ^ t := Nat.mul_le_mul_right _ hs
    _ = 2 ^ f.unit := hsplit

/-- The exclusive or with a bit above a number adds the bit. -/
theorem xor_two_pow_of_lt {x n : Nat} (h : x < 2 ^ n) : x ^^^ 2 ^ n = 2 ^ n + x := by
  have hor : 2 ^ n + x = 2 ^ n ||| x := by
    have := Nat.two_pow_add_eq_or_of_lt h 1
    simpa using this
  rw [hor]
  apply Nat.eq_of_testBit_eq
  intro i
  rw [Nat.testBit_xor, Nat.testBit_or, Nat.testBit_two_pow]
  by_cases hi : n = i
  · subst hi
    rw [Nat.testBit_lt_two_pow h]
    simp
  · simp [hi]

theorem exactNeg_exactNeg (x : Exact) : exactNeg (exactNeg x) = x := by cases x <;> simp [exactNeg]

/-- Changing the sign bit of an encoding changes the sign of its value. -/
theorem exactOf_xor_sign (f : Format) (hp : 0 < f.prec) {x : Nat} (hx : x < 2 * 2 ^ (f.ebits + f.prec - 1)) :
    exactOf f (x ^^^ 2 ^ (f.ebits + f.prec - 1)) = exactNeg (exactOf f x) := by
  rcases Nat.lt_or_ge x (2 ^ (f.ebits + f.prec - 1)) with h | h
  · rw [xor_two_pow_of_lt h, exactOf_sign f hp h]
  · obtain ⟨y, rfl⟩ := Nat.exists_eq_add_of_le h
    have hy : y < 2 ^ (f.ebits + f.prec - 1) := by omega
    rw [exactOf_sign f hp hy, exactNeg_exactNeg, ← xor_two_pow_of_lt hy, Nat.xor_assoc, Nat.xor_self, Nat.xor_zero]

/-- The sign change of binary64. -/
theorem val64_f64Neg (x : F64) : val64 (f64Neg x) = exactNeg (val64 x) := by
  unfold val64 f64Neg
  rw [BitVec.toNat_xor]
  exact exactOf_xor_sign binary64 (by decide) x.isLt

/-- The sign change of binary32. -/
theorem val32_f32Neg (x : F32) : val32 (f32Neg x) = exactNeg (val32 x) := by
  unfold val32 f32Neg
  rw [BitVec.toNat_xor]
  exact exactOf_xor_sign binary32 (by decide) x.isLt

/-- The NaN chosen for an operation shows only where its result is no number. -/
theorem fl32_congr (a b : F32) {x : Exact} (h : x ≠ .nan) : fl32 a x = fl32 b x := by
  cases x with
  | nan => exact absurd rfl h
  | inf neg => rfl
  | fin neg num den => rfl

/-- Whatever the numerics, the NaN of an operation is no number. -/
theorem nan32_isNaN (P : Params) (a b : BitVec 64) : f32IsNaN (nan32 P a b) = true := by
  unfold nan32
  split
  · assumption
  · decide +kernel

/-! ## Bounds of the numerics functions -/

theorem exactLt_irrefl (x : Exact) : exactLt x x = false := by
  cases x with
  | nan => rfl
  | inf neg => cases neg <;> rfl
  | fin neg num den => cases neg <;> simp [exactLt]

theorem exactLt_asymm {x y : Exact} (h : exactLt x y = true) : exactLt y x = false := by
  cases x <;> cases y <;> simp_all [exactLt]
  case fin.fin s m d t n e =>
    cases s <;> cases t <;> simp_all <;> omega

/-- A value kept between two bounds is neither below the one nor above the other. -/
theorem f64Within_range (lo hi r : F64) (h : f64Lt hi lo = false) :
    f64Lt (f64Within lo hi r) lo = false ∧ f64Lt hi (f64Within lo hi r) = false := by
  unfold f64Within
  split
  · rename_i hlo
    split
    · exact ⟨h, exactLt_irrefl _⟩
    · rename_i hhi
      exact ⟨exactLt_asymm hlo, by simpa using hhi⟩
  · exact ⟨exactLt_irrefl _, h⟩

/-- A value kept between two bounds is a number, where the bounds are. -/
theorem f64Within_ne_nan (lo hi r : F64) (hlo : val64 lo ≠ .nan) (hhi : val64 hi ≠ .nan) :
    val64 (f64Within lo hi r) ≠ .nan := by
  unfold f64Within
  split
  · rename_i h
    split
    · exact hhi
    · intro hr
      unfold f64Lt at h
      rw [hr] at h
      cases hv : val64 lo <;> rw [hv] at h <;> simp [exactLt] at h
  · exact hlo

/-- What the exponential of a value that is not positive can be, whatever the numerics. -/
theorem exp_cases (P : Params) (t : F64) (h : f64Lt 0#64 t = false) (hn : val64 t ≠ .nan) :
    (f64Lt t expUnderflow = true ∧ exp P t = 0#64)
      ∨ (f64Lt t expUnderflow = false
        ∧ ∃ r, exp P t = f64Within 0#64 (if f64Lt t expNearZero then belowOneF64 else oneF64) r) := by
  have hnb : (val64 t == .nan) = false := by simpa using hn
  cases hu : f64Lt t expUnderflow with
  | true =>
    refine .inl ⟨rfl, ?_⟩
    simp only [exp, h, hnb, hu, Bool.or_self, Bool.false_eq_true, if_false, if_true]
  | false =>
    refine .inr ⟨rfl, chosen P (refExp t) (Config.exp t), ?_⟩
    simp only [exp, h, hnb, hu, Bool.or_self, Bool.false_eq_true, if_false]

/-- What the logarithm of a finite positive value can be, whatever the numerics. -/
theorem log10_cases (P : Params) (p : F64) (h : f64Lt 0#64 p = true) :
    (f64Lt p subnormalPower = true ∧ ∃ r, log10 P p = f64Within subnormalLog.1 subnormalLog.2 r)
      ∨ (f64Lt p subnormalPower = false ∧ f64IsFinite (log10 P p) = true) := by
  cases hu : f64Lt p subnormalPower with
  | true =>
    refine .inl ⟨rfl, chosen P (refLog10 p) (Config.log10 p), ?_⟩
    simp only [log10, h, hu, Bool.and_self, if_true]
  | false =>
    refine .inr ⟨rfl, ?_⟩
    simp only [log10, h, hu, Bool.and_false, Bool.false_eq_true, if_false]
    split
    · rename_i hf
      exact hf
    · decide +kernel

end Sys2Proof.Machine
end

