-- ==== Sys2Proof/Laws/PerInstr.lean ====
section
/-! SUPPORT. Per-instruction families. `LegalWord`: the word of every command passes the three word checks of the
decoder (spec/60_exceptions.md R204, steps 1 to 3), and names its own operation and ring. -/

namespace Sys2Proof.Laws

/-- The word of the command has `RSV` zero, its own `OP`, an `INST` in range, and the ring it was written for. -/
def LegalWord.Statement (i : Instr) : Prop :=
  rsvField (encodeWord i) = 0#20 ∧ opcodeOf (opField (encodeWord i)) = some i.opcode
    ∧ instLegal i.opcode (instField (encodeWord i)) = true
    ∧ ∀ r, i.ring? = some r → ringOf (instField (encodeWord i)) = r

theorem LegalWord.of_ring (i : Instr) (h : instLegal i.opcode (instOf i.ring?) = true)
    (hr : ∀ r, i.ring? = some r → ringOf (instOf i.ring?) = r) : LegalWord.Statement i :=
  ⟨rsvField_encodeWord i, by rw [opField_encodeWord]; exact opcodeOf_opValue _, by rw [instField_encodeWord]; exact h,
    by rw [instField_encodeWord]; exact hr⟩

theorem LegalWord.nop : LegalWord.Statement .nop := of_ring _ rfl (by simp [Instr.ring?])

theorem LegalWord.regRead (num : U32) : LegalWord.Statement (.regRead num) := of_ring _ rfl (by simp [Instr.ring?])

theorem LegalWord.statusClear (mask : U32) : LegalWord.Statement (.statusClear mask) :=
  of_ring _ rfl (by simp [Instr.ring?])

theorem LegalWord.ringInit (r : RingId) (capacity : U64) : LegalWord.Statement (.ringInit r capacity) := by
  cases r <;> exact of_ring _ rfl (by rintro _ ⟨⟩; rfl)

theorem LegalWord.ringPush (r : RingId) (data : List Byte) : LegalWord.Statement (.ringPush r data) := by
  cases r <;> exact of_ring _ rfl (by rintro _ ⟨⟩; rfl)

theorem LegalWord.ringPop (r : RingId) (max : U64) : LegalWord.Statement (.ringPop r max) := by
  cases r <;> exact of_ring _ rfl (by rintro _ ⟨⟩; rfl)

theorem LegalWord.demodInit (sampleRate audioRate : U32) : LegalWord.Statement (.demodInit sampleRate audioRate) :=
  of_ring _ rfl (by simp [Instr.ring?])

theorem LegalWord.demodProcess (iq : List Byte) : LegalWord.Statement (.demodProcess iq) :=
  of_ring _ rfl (by simp [Instr.ring?])

theorem LegalWord.audioPull (r : RingId) (frames : U32) : LegalWord.Statement (.audioPull r frames) := by
  cases r <;> exact of_ring _ rfl (by rintro _ ⟨⟩; rfl)

theorem LegalWord.specInit (n winSel : U32) (table : List F32) : LegalWord.Statement (.specInit n winSel table) :=
  of_ring _ rfl (by simp [Instr.ring?])

theorem LegalWord.specWindow (iq : List Byte) : LegalWord.Statement (.specWindow iq) :=
  of_ring _ rfl (by simp [Instr.ring?])

theorem LegalWord.specMagdb (bins : List CF32) : LegalWord.Statement (.specMagdb bins) :=
  of_ring _ rfl (by simp [Instr.ring?])

end Sys2Proof.Laws
end

