-- ==== Sys2Proof/Laws/Ring.lean ====
section
/-! SUPPORT. A ring as the queue of the bytes between its counters: distances of counters, and what a push and a pop do
to the order of the counters and to the bytes held (spec/10_state.md R29, spec/40_ring.md R101, R102). -/

namespace Sys2Proof.Machine

/-! ## Distances -/

/-- The distance from a later start is the rest of the distance. -/
theorem distance_sub {p q y : U64} (h : (q - p).toNat ≤ (y - p).toNat) :
    (y - q).toNat = (y - p).toNat - (q - p).toNat := by
  have e : y - q = (y - p) - (q - p) := by
    apply BitVec.eq_of_toNat_eq
    have := y.isLt
    have := p.isLt
    have := q.isLt
    simp only [BitVec.toNat_sub]
    omega
  rw [e, BitVec.toNat_sub_of_le (by exact h)]

/-- The distance to a later end is the sum of the distances. -/
theorem distance_add {p y : U64} {n : Nat} (h : (y - p).toNat + n < 2 ^ 64) :
    (y + BitVec.ofNat 64 n - p).toNat = (y - p).toNat + n := by
  have e : y + BitVec.ofNat 64 n - p = (y - p) + BitVec.ofNat 64 n := by
    apply BitVec.eq_of_toNat_eq
    have := y.isLt
    have := p.isLt
    simp only [BitVec.toNat_sub, BitVec.toNat_add, BitVec.toNat_ofNat]
    omega
  rw [e, BitVec.toNat_add, BitVec.toNat_ofNat, Nat.mod_eq_of_lt (a := n) (by omega), Nat.mod_eq_of_lt (by omega)]

/-- Moving a start on by part of a distance leaves the rest. -/
theorem distance_of_add {p y : U64} {n : Nat} (h : n ≤ (y - p).toNat) :
    (y - (p + BitVec.ofNat 64 n)).toNat = (y - p).toNat - n := by
  have hn : n < 2 ^ 64 := lt_of_le_of_lt h (y - p).isLt
  have e : (p + BitVec.ofNat 64 n - p).toNat = n := by
    have := distance_add (p := p) (y := p) (n := n) (by simpa using hn)
    simpa using this
  have := distance_sub (p := p) (q := p + BitVec.ofNat 64 n) (y := y) (by omega)
  omega

theorem RingState.cap_le (rs : RingState) : rs.cap ≤ 2 ^ 63 :=
  Nat.pow_le_pow_right (by omega) (by have := rs.k.isLt; omega)

/-! ## The order of the counters -/

/-- A ring whose counters are in order holds at most its capacity, however far back the producer looks. -/
theorem RingState.ordered_used {rs : RingState} (h : rs.ordered) :
    rs.used.toNat = (rs.head - rs.pTailSeen).toNat - (rs.tail - rs.pTailSeen).toNat ∧ rs.used.toNat ≤ rs.cap := by
  obtain ⟨h1, h2, h3⟩ := h
  have := distance_sub (p := rs.pTailSeen) (q := rs.tail) (y := rs.head) (by omega)
  exact ⟨this, by rw [RingState.used, this]; omega⟩

/-- A push keeps the order of the counters. -/
theorem RingState.push_ordered {rs : RingState} {t : U64} (data : List Byte) (h : rs.ordered)
    (ht : (t - rs.pTailSeen).toNat ≤ (rs.tail - rs.pTailSeen).toNat) : (rs.push t data).1.ordered := by
  obtain ⟨h1, h2, h3⟩ := h
  have e1 := distance_sub (p := rs.pTailSeen) (q := t) (y := rs.tail) (by omega)
  have e2 := distance_sub (p := rs.pTailSeen) (q := t) (y := rs.cHeadSeen) (by omega)
  have e3 := distance_sub (p := rs.pTailSeen) (q := t) (y := rs.head) (by omega)
  have hc := rs.cap_le
  rcases rs.push_cases t data with ⟨-, h⟩ | ⟨hfit, h⟩
  · rw [h]
    exact ⟨by simp only; omega, by simp only; omega, by simp only [RingState.cap] at *; omega⟩
  · have e4 := distance_add (p := t) (y := rs.head) (n := data.length) (by omega)
    rw [h]
    exact ⟨by simp only; omega, by simp only; omega, by simp only [RingState.cap] at *; omega⟩

/-- A pop keeps the order of the counters. -/
theorem RingState.pop_ordered {rs rs' : RingState} {t : U64} {max : Nat} {data : List Byte} (h : rs.ordered)
    (ht : (t - rs.cHeadSeen).toNat ≤ (rs.head - rs.cHeadSeen).toNat) (hp : rs.pop t max = some (rs', data)) :
    rs'.ordered := by
  obtain ⟨h1, h2, h3⟩ := h
  obtain ⟨-, -, rfl⟩ := RingState.pop_eq_some hp
  have hn := rs.popCount_le_seen t max
  have hc := rs.cap_le
  have e0 := distance_sub (p := rs.pTailSeen) (q := rs.cHeadSeen) (y := rs.head) (by omega)
  have e1 : (t - rs.pTailSeen).toNat = (rs.cHeadSeen - rs.pTailSeen).toNat + (t - rs.cHeadSeen).toNat := by
    have := distance_add (p := rs.pTailSeen) (y := rs.cHeadSeen) (n := (t - rs.cHeadSeen).toNat) (by omega)
    rwa [BitVec.ofNat_toNat, BitVec.setWidth_eq, BitVec.add_comm, BitVec.sub_add_cancel] at this
  have e2 := distance_sub (p := rs.pTailSeen) (q := rs.tail) (y := t) (by omega)
  have e3 := distance_add (p := rs.pTailSeen) (y := rs.tail) (n := rs.popCount t max) (by omega)
  exact ⟨by simp only; omega, by simp only; omega, by simp only [RingState.cap] at *; omega⟩

/-! ## The bytes held -/

/-- A push that did not fit leaves the bytes held; one that did adds its data at the end. -/
theorem RingState.push_contents {rs : RingState} {t : U64} {data held : List Byte} (h : rs.ordered)
    (ht : (t - rs.pTailSeen).toNat ≤ (rs.tail - rs.pTailSeen).toNat) (hh : rs.contents = some held) :
    (rs.push t data).1.contents = some (if (rs.push t data).2 then held ++ data else held) := by
  obtain ⟨hu, -⟩ := RingState.ordered_used h
  obtain ⟨h1, h2, h3⟩ := h
  have e3 := distance_sub (p := rs.pTailSeen) (q := t) (y := rs.head) (by omega)
  have hc := rs.cap_le
  rcases rs.push_cases t data with ⟨-, he⟩ | ⟨hfit, he⟩
  · rw [he]
    exact hh
  · have hlen : rs.used.toNat + data.length ≤ 2 ^ rs.k.toNat := by
      simp only [RingState.cap] at *
      omega
    have hend : rs.tail + BitVec.ofNat 64 rs.used.toNat = rs.head := by
      rw [BitVec.ofNat_toNat, BitVec.setWidth_eq, RingState.used, BitVec.add_comm, BitVec.sub_add_cancel]
    have hused : (rs.head + BitVec.ofNat 64 data.length - rs.tail).toNat = rs.used.toNat + data.length :=
      distance_add (by simp only [RingState.cap, RingState.used] at *; omega)
    rw [he]
    simp only [RingState.contents, RingState.used, RingState.cap, if_true] at *
    rw [hused]
    refine memRead_add (memRead_congr hh fun i hi => memWrite_read_other _ _ _ _ _ fun j hj heq => ?_) ?_
    · rw [← hend, position_add] at heq
      have := ringIndex_injOn rs.k rs.tail (by omega) (by omega) heq
      omega
    · rw [memRead_eq_some_iff]
      refine ⟨rfl, fun i hi => ?_⟩
      rw [hend]
      exact memWrite_read_same _ _ _ _ (by omega) _ hi

/-- A pop takes the oldest bytes and leaves the rest. -/
theorem RingState.pop_contents {rs rs' : RingState} {t : U64} {max : Nat} {data held : List Byte} (h : rs.ordered)
    (ht : (t - rs.cHeadSeen).toNat ≤ (rs.head - rs.cHeadSeen).toNat) (hh : rs.contents = some held)
    (hp : rs.pop t max = some (rs', data)) :
    rs.popCount t max ≤ held.length ∧ data = held.take (rs.popCount t max)
      ∧ rs'.contents = some (held.drop (rs.popCount t max)) := by
  obtain ⟨hu, -⟩ := RingState.ordered_used h
  obtain ⟨h1, h2, h3⟩ := h
  obtain ⟨hr, -, rfl⟩ := RingState.pop_eq_some hp
  have hc := rs.cap_le
  have hn := rs.popCount_le_seen t max
  have e0 := distance_sub (p := rs.pTailSeen) (q := rs.cHeadSeen) (y := rs.head) (by omega)
  have e1 : (t - rs.pTailSeen).toNat = (rs.cHeadSeen - rs.pTailSeen).toNat + (t - rs.cHeadSeen).toNat := by
    have := distance_add (p := rs.pTailSeen) (y := rs.cHeadSeen) (n := (t - rs.cHeadSeen).toNat) (by omega)
    rwa [BitVec.ofNat_toNat, BitVec.setWidth_eq, BitVec.add_comm, BitVec.sub_add_cancel] at this
  have e2 := distance_sub (p := rs.pTailSeen) (q := rs.tail) (y := t) (by omega)
  have hle : rs.popCount t max ≤ rs.used.toNat := by omega
  have hlen : held.length = rs.used.toNat := ((memRead_eq_some_iff _ _ _ _ _).1 hh).1
  refine ⟨by omega, ?_, ?_⟩
  · have := memRead_take hh hle
    rw [hr] at this
    exact Option.some.inj this
  · have := memRead_drop hh hle
    rw [RingState.contents, RingState.used] at *
    simp only at *
    rw [distance_of_add (by omega)]
    exact this

/-- From a ring whose counters are in order and whose bytes were all written, a pop answers. -/
theorem RingState.pop_isSome {rs : RingState} {t : U64} (max : Nat) {held : List Byte} (h : rs.ordered)
    (ht : (t - rs.cHeadSeen).toNat ≤ (rs.head - rs.cHeadSeen).toNat) (hh : rs.contents = some held) :
    ∃ rs' data, rs.pop t max = some (rs', data) := by
  obtain ⟨hu, -⟩ := RingState.ordered_used h
  obtain ⟨h1, h2, h3⟩ := h
  have hc := rs.cap_le
  have hn := rs.popCount_le_seen t max
  have e0 := distance_sub (p := rs.pTailSeen) (q := rs.cHeadSeen) (y := rs.head) (by omega)
  have e1 : (t - rs.pTailSeen).toNat = (rs.cHeadSeen - rs.pTailSeen).toNat + (t - rs.cHeadSeen).toNat := by
    have := distance_add (p := rs.pTailSeen) (y := rs.cHeadSeen) (n := (t - rs.cHeadSeen).toNat) (by omega)
    rwa [BitVec.ofNat_toNat, BitVec.setWidth_eq, BitVec.add_comm, BitVec.sub_add_cancel] at this
  have e2 := distance_sub (p := rs.pTailSeen) (q := rs.tail) (y := t) (by omega)
  exact ⟨_, _, RingState.pop_of_memRead (memRead_take hh (by omega))⟩

end Sys2Proof.Machine
end

