-- ==== Sys2Proof/Laws/Spectrum.lean ====
section
/-! SUPPORT. What the display order says of each element (spec/42_spectrum.md R176, R178, R182). -/

namespace Sys2Proof.Machine

/-- A display element shows a bin of the frame. -/
theorem displayBin_lt {N i : Nat} (h : i < N) : displayBin N i < N := Nat.mod_lt _ (by omega)

/-- The bin that a display element shows has the element's signed index. -/
theorem binIndex_displayBin {N i : Nat} (h : i < N) : binIndex N (displayBin N i) = displayIndex N i := by
  unfold binIndex displayBin displayIndex
  rcases Nat.lt_or_ge i (N / 2) with hlt | hge
  · rw [Nat.mod_eq_of_lt (by omega)]
    split <;> omega
  · rw [show i + N - N / 2 = i - N / 2 + N by omega, Nat.add_mod_right, Nat.mod_eq_of_lt (by omega)]
    split <;> omega

/-- A display element stands for the frequency of the bin it shows. -/
theorem elementFrequency_eq_bin (center rate : ℚ) {N i : Nat} (h : i < N) :
    elementFrequency center rate N i = center + binIndex N (displayBin N i) * rate / N := by
  rw [binIndex_displayBin h, elementFrequency]

/-- A frame has one magnitude for each element, that of the bin the element shows. -/
theorem magnitudes_getElem? (P : Params) (bins : List CF32) {N i : Nat} (h : i < N) :
    (magnitudes P N bins)[i]? = some (magDb P (bins.getD (displayBin N i) ⟨0#32, 0#32⟩)) := by
  simp [magnitudes, h]

end Sys2Proof.Machine
end

