-- ==== Sys2Proof/Machine/Assembler.lean ====
section
/-! DEFINITION. The written form of commands and the pseudo-instructions (spec/30_encoding.md R90, R91). Nothing here
is part of a step: an agent writes and issues commands, and the block sees words and payloads. -/

namespace Sys2Proof.Machine

/-- The mnemonic of an operation, without its ring (R83). -/
def mnemonicText : Opcode → String
  | .nop => "NOP"
  | .regRead => "REG_READ"
  | .statusClear => "STATUS_CLEAR"
  | .ringInit => "RING_INIT"
  | .ringPush => "RING_PUSH"
  | .ringPop => "RING_POP"
  | .demodInit => "DEMOD_INIT"
  | .demodProcess => "DEMOD_PROCESS"
  | .audioPull => "AUDIO_PULL"
  | .specInit => "SPEC_INIT"
  | .specWindow => "SPEC_WINDOW"
  | .specMagdb => "SPEC_MAGDB"

/-- `@PORT` (R90). -/
def portText : Port → String
  | .ctrl => "@CTRL"
  | .prod0 => "@PROD0"
  | .prod1 => "@PROD1"
  | .cons0 => "@CONS0"
  | .cons1 => "@CONS1"

/-- The `.r` suffix of a ring-addressed command (R90). -/
def ringText : Option RingId → String
  | none => ""
  | some .r0 => ".0"
  | some .r1 => ".1"

/-- Values between braces, separated by commas (R90). -/
def braced (items : List String) : String :=
  String.singleton (Char.ofNat 123) ++ String.intercalate ", " items ++ String.singleton (Char.ofNat 125)

/-- A binary32 value by its encoding. -/
def f32Text (x : F32) : String := "0x" ++ x.toHex

/-- An operand (R90). -/
def valueText : Value → String
  | .u32 v => toString v.toNat
  | .u64 v => toString v.toNat
  | .bytes v => "[" ++ String.intercalate " " (v.map fun b => toString b.toNat) ++ "]"
  | .f32s v => braced (v.map f32Text)
  | .cf32s v => braced (v.map fun x => "(" ++ f32Text x.re ++ ", " ++ f32Text x.im ++ ")")
  | .i16s v => "[" ++ String.intercalate " " (v.map fun x => toString x.toInt) ++ "]"
  | .bool v => if v then "1" else "0"

/-- A command as R90 writes it: `@PORT MNEMONIC[.r] operand, operand, …`. -/
def commandText (p : Port) (i : Instr) : String :=
  portText p ++ " " ++ mnemonicText i.opcode ++ ringText i.ring? ++
    (match encodePayload i with
      | [] => ""
      | operands => " " ++ String.intercalate ", " (operands.map valueText))

/-- The register names that `REG_READ` also accepts (R40, R90), but for `SP_WIN[k]`. -/
def registerNames : List (String × Nat) :=
  [("ID", 0x00), ("STATUS", 0x01),
   ("RING0_CFG", 0x10), ("RING0_HEAD", 0x11), ("RING0_TAIL", 0x12), ("RING0_USED", 0x13),
   ("RING1_CFG", 0x18), ("RING1_HEAD", 0x19), ("RING1_TAIL", 0x1A), ("RING1_USED", 0x1B),
   ("DM_CFG", 0x20), ("DM_SAMPLE_RATE", 0x21), ("DM_AUDIO_RATE", 0x22), ("DM_D", 0x23), ("DM_ALPHA", 0x24),
   ("DM_PREV_RE", 0x25), ("DM_PREV_IM", 0x26), ("DM_COUNTER", 0x27), ("DM_SUM", 0x28), ("DM_YPREV", 0x29),
   ("SP_CFG", 0x30), ("SP_N", 0x31)]

/-- The `win_sel` names that `SPEC_INIT` accepts (R90). -/
def windowNames : List (String × Nat) := [("RECT", 0), ("HANN", 1), ("USER", 2)]

/-- The pseudo-instructions (R91). -/
inductive Pseudo where
  | pushRetry (r : RingId) (data : List Byte)
  | pushBestEffort (r : RingId) (data : List Byte)
  | readStatus
  | clearWarnings
deriving DecidableEq, Repr

/-- The command a pseudo-instruction issues; `PUSH_RETRY` issues it anew at every try (R91). -/
def pseudoCommand : Pseudo → Instr
  | .pushRetry r data => .ringPush r data
  | .pushBestEffort r data => .ringPush r data
  | .readStatus => .regRead 0x1#32
  | .clearWarnings => .statusClear 0xF0#32

/-- Whether the agent issues the command again after this result: `PUSH_RETRY` does until it returns `ok = 1` (R91).
When the agent waits, and when it gives up, is the agent's own (spec/00_scope.md R6). -/
def pseudoAgain : Pseudo → List Value → Bool
  | .pushRetry _ _, result => result != [.bool true]
  | .pushBestEffort _ _, _ => false
  | .readStatus, _ => false
  | .clearWarnings, _ => false

end Sys2Proof.Machine
end

