-- ==== Sys2Proof/Tests/Slice0.lean ====
section
/-! SUPPORT. Tests: words written out from spec/30_encoding.md, ill-formed commands, one-step runs whose results are
those of spec/95_test_vectors.md, and for each statement with hypotheses a state and operands that meet them. -/

namespace Sys2Proof.Tests

open Sys2Proof Sys2Proof.Machine

/-! ## States -/

/-- A command pending alone. -/
def given (s : State) (p : Port) (w : U32) (payload : List Value) : State := { s with inbox := [.command p w payload] }

/-- The state an outcome goes on in; reset where it does not. -/
def after : Host.Outcome State Fault Refusal → State
  | .next t => t
  | .fault _ => State.reset
  | .refused _ => State.reset

/-- Ring 0 of program P6: capacity 8, holding 1 to 5. -/
def ringFive : RingState where
  valid := true
  k := 3#6
  buf := [(0, 1#8), (1, 2#8), (2, 3#8), (3, 4#8), (4, 5#8)]
  head := 5#64
  tail := 0#64
  pTailSeen := 0#64
  cHeadSeen := 0#64

/-- Ring 1 after step 3 of program P2: capacity 8, empty, six bytes in. -/
def ringWrapped : RingState where
  valid := true
  k := 3#6
  buf := [(0, 10#8), (1, 11#8), (2, 12#8), (3, 13#8), (4, 14#8), (5, 15#8)]
  head := 6#64
  tail := 6#64
  pTailSeen := 0#64
  cHeadSeen := 6#64

/-- A demodulator with windows of two pairs, at the start of a window. -/
def demodTwo : DemodState where
  valid := true
  sampleRate := 96000#32
  audioRate := 48000#32
  D := 2#32
  alpha := 0x3EAE7803#32
  prev := initialSample
  counter := 0#32
  sum := 0#32
  yprev := 0#32

/-- The Hann window of four samples (SV1). -/
def spectrumFour : SpecState where
  valid := true
  N := 4#32
  winSel := 1#2
  win := [0x00000000#32, 0x3F000000#32, 0x3F800000#32, 0x3F000000#32]

/-- Every unit constructed, the next draws fresh, commands taken as from port `p`. -/
def busy (p : Port) : State :=
  { State.reset with
    ring0 := ringFive
    ring1 := ringWrapped
    dm := demodTwo
    sp := spectrumFour
    issuer := p
    draws := [8, 8, 8, 8] }

theorem ringFive_inv : ringFive.Inv Params.table :=
  ⟨fun h => (by cases h), fun _ => ⟨by decide, by decide, by decide, by unfold RingState.ordered; decide, by decide⟩⟩

theorem ringWrapped_inv : ringWrapped.Inv Params.table :=
  ⟨fun h => (by cases h), fun _ => ⟨by decide, by decide, by decide, by unfold RingState.ordered; decide, by decide⟩⟩

theorem demodTwo_inv : demodTwo.Inv Params.table :=
  ⟨fun h => (by cases h), fun _ => ⟨by decide, .inl rfl, by decide +kernel⟩⟩

theorem spectrumFour_inv : spectrumFour.Inv Params.table :=
  ⟨fun h => (by cases h), fun _ => ⟨by decide, by decide, by decide, by decide⟩⟩

/-- The busy state keeps the invariant. -/
theorem busy_inv (p : Port) : (busy p).Inv :=
  ⟨ringFive_inv, ringWrapped_inv, demodTwo_inv, spectrumFour_inv, (by decide : 0#32 &&& ~~~statusDefined = 0#32)⟩

/-- The memories right after reset are in canonical form. -/
theorem test_reset_memories_wf : State.reset.ring0.buf.wf = true ∧ State.reset.ring1.buf.wf = true := by decide

/-! ## Words (spec/30_encoding.md R80, R83): `RSV`, `INST`, `OP` written out -/

theorem test_decode_nop : decode 0b00000000000000000000_0000_00000000#32 [] = .ok .nop := by decide

theorem test_decode_regRead :
    decode 0b00000000000000000000_0000_00000001#32 [.u32 0x22#32] = .ok (.regRead 0x22#32) := by decide

theorem test_decode_statusClear :
    decode 0b00000000000000000000_0000_00000010#32 [.u32 0xF0#32] = .ok (.statusClear 0xF0#32) := by decide

theorem test_decode_ringInit :
    decode 0b00000000000000000000_0000_00010000#32 [.u64 1024#64] = .ok (.ringInit .r0 1024#64)
      ∧ decode 0b00000000000000000000_0001_00010000#32 [.u64 8#64] = .ok (.ringInit .r1 8#64) := by decide

theorem test_decode_ringPush :
    decode 0b00000000000000000000_0000_00010001#32 [.bytes [1#8]] = .ok (.ringPush .r0 [1#8])
      ∧ decode 0b00000000000000000000_0001_00010001#32 [.bytes []] = .ok (.ringPush .r1 []) := by decide

theorem test_decode_ringPop :
    decode 0b00000000000000000000_0000_00010010#32 [.u64 16#64] = .ok (.ringPop .r0 16#64)
      ∧ decode 0b00000000000000000000_0001_00010010#32 [.u64 6#64] = .ok (.ringPop .r1 6#64) := by decide

theorem test_decode_demodInit :
    decode 0b00000000000000000000_0000_00100000#32 [.u32 1920000#32, .u32 48000#32]
      = .ok (.demodInit 1920000#32 48000#32) := by decide

theorem test_decode_demodProcess :
    decode 0b00000000000000000000_0000_00100001#32 [.bytes [255#8, 127#8]] = .ok (.demodProcess [255#8, 127#8]) := by
  decide

theorem test_decode_audioPull :
    decode 0b00000000000000000000_0000_00100010#32 [.u32 48#32] = .ok (.audioPull .r0 48#32)
      ∧ decode 0b00000000000000000000_0001_00100010#32 [.u32 48#32] = .ok (.audioPull .r1 48#32) := by decide

theorem test_decode_specInit :
    decode 0b00000000000000000000_0000_00110000#32 [.u32 4#32, .u32 1#32, .f32s []] = .ok (.specInit 4#32 1#32 []) := by
  decide

theorem test_decode_specWindow :
    decode 0b00000000000000000000_0000_00110001#32 [.bytes [255#8]] = .ok (.specWindow [255#8]) := by decide

theorem test_decode_specMagdb :
    decode 0b00000000000000000000_0000_00110010#32 [.cf32s [⟨1#32, 2#32⟩]] = .ok (.specMagdb [⟨1#32, 2#32⟩]) := by
  decide

/-- The illegal words of spec/95_test_vectors.md 2.1, by the check that catches each. -/
theorem test_decode_illegal :
    ([0x1000#32, 0x80000011#32, 0x1012#32].map fun w => decode w []) = List.replicate 3 (.error .reservedBits)
      ∧ ([0x03#32, 0x0F#32, 0x13#32, 0x2F#32, 0x33#32, 0xFF#32].map fun w => decode w [])
        = List.replicate 6 (.error .unassignedOpcode)
      ∧ ([0x210#32, 0x120#32].map fun w => decode w []) = List.replicate 2 (.error .badInst) := by decide +kernel

/-- Operands in the wrong order or number are outside the interface (R85). -/
theorem test_decode_mismatch :
    decode 0x30#32 [.u32 4#32, .f32s [], .u32 1#32] = .error .payloadMismatch
      ∧ decode 0x10#32 [.u32 8#32] = .error .payloadMismatch ∧ decode 0x0#32 [.u32 0#32] = .error .payloadMismatch := by
  decide

/-- The table's words, with zero operands. -/
theorem test_tableWords :
    decodeTableWord 32 0x0 = some .nop ∧ decodeTableWord 32 0x110 = some (.ringInit .r1 0#64)
      ∧ decodeTableWord 32 0x32 = some (.specMagdb []) ∧ decodeTableWord 32 0x3 = none := by decide

/-! ## Ill-formed commands: a `BYTES` operand of `2^64` bytes (R85) -/

/-- A payload one byte too long. -/
def tooLong : List Byte := List.replicate (2 ^ 64) 0#8

theorem bytesFit_tooLong : bytesFit tooLong = false := by
  simp only [bytesFit, tooLong, List.length_replicate, lt_self_iff_false, decide_false]

theorem test_illFormed_ringPush : (Instr.ringPush .r0 tooLong).wellFormed = false := bytesFit_tooLong

theorem test_illFormed_demodProcess : (Instr.demodProcess tooLong).wellFormed = false := bytesFit_tooLong

theorem test_illFormed_specWindow : (Instr.specWindow tooLong).wellFormed = false := bytesFit_tooLong

theorem test_illFormed_refused : decode 0x11#32 [.bytes tooLong] = .error .payloadMismatch := by
  have h : withPayload .ringPush (ringOf (instField 0x11#32)) [.bytes tooLong] = none := by
    simp only [withPayload, bytesFit_tooLong, Bool.false_eq_true, if_false]
  have h0 : rsvField 0x11#32 = 0#20 := by decide
  have h1 : opcodeOf (opField 0x11#32) = some .ringPush := by decide
  have h2 : instLegal .ringPush (instField 0x11#32) = true := by decide
  simp only [decode, h0, h1, h2, h, ne_eq, not_true_eq_false, if_false, if_true]

/-! ## One step each, from the vectors -/

/-- `@CONS0 NOP` from reset: unchanged (2.2). -/
theorem test_nop : step (given State.reset .cons0 0x0#32 [])
    = .next { State.reset with issuer := .cons0, results := [⟨.cons0, []⟩] } := rfl

/-- `REG_READ ID` (2.2). -/
theorem test_regRead_id :
    (after (step (given State.reset .ctrl 0x1#32 [.u32 0x0#32]))).lastResult = [.u64 0x464D4431#64] := by decide

/-- `REG_READ 0x2` from reset: `BAD_OPERAND`, result 0 (2.2). -/
theorem test_regRead_unassigned :
    (after (step (given State.reset .ctrl 0x1#32 [.u32 0x2#32]))).lastResult = [.u64 0#64]
      ∧ (after (step (given State.reset .ctrl 0x1#32 [.u32 0x2#32]))).status = 0x2#32 := by decide

/-- `STATUS = 0x3F6`: only the warning bits clear (2.2). -/
theorem test_statusClear :
    (after (step (given { State.reset with status := 0x3F6#32 } .ctrl 0x2#32 [.u32 0xFFFFFFFF#32]))).status
      = 0x306#32 := by decide

/-- `STATUS = 0x10`, mask 0x20: bit 4 is not in the mask (2.2). -/
theorem test_statusClear_mask :
    (after (step (given { State.reset with status := 0x10#32 } .ctrl 0x2#32 [.u32 0x20#32]))).status = 0x10#32 := by
  decide

/-- RV1: `RING_INIT.0 1024` gives `k = 10`. -/
theorem test_ringInit : (after (step (given State.reset .ctrl 0x10#32 [.u64 1024#64]))).ring0.k = 10#6
    ∧ (after (step (given State.reset .ctrl 0x10#32 [.u64 1024#64]))).lastResult = [.bool true] := by decide

/-- RV1: a failed `RING_INIT.0 3` leaves a valid ring as it was. -/
theorem test_ringInit_bad : (after (step (given (busy .ctrl) .ctrl 0x10#32 [.u64 3#64]))).ring0 = ringFive
    ∧ (after (step (given (busy .ctrl) .ctrl 0x10#32 [.u64 3#64]))).status = 0x8#32 := by decide

/-- P2, step 4: six bytes from position 6 on go to indices 6, 7, 0, 1, 2, 3. -/
theorem test_ringPush_wraps :
    (after (step (given (busy .prod1) .prod1 0x111#32
      [.bytes [20#8, 21#8, 22#8, 23#8, 24#8, 25#8]]))).ring1.buf
      = [(0, 22#8), (1, 23#8), (2, 24#8), (3, 25#8), (4, 14#8), (5, 15#8), (6, 20#8), (7, 21#8)] := by decide

/-- P6, schedule A, step 1: six bytes do not fit behind five. -/
theorem test_ringPush_full :
    (after (step (given (busy .prod0) .prod0 0x11#32 [.bytes [6#8, 7#8, 8#8, 9#8, 10#8, 11#8]]))).lastResult
      = [.bool false] := by decide

/-- P6, schedule A, step 2: `RING_POP.0 4` gives the four oldest. -/
theorem test_ringPop :
    (after (step (given (busy .cons0) .cons0 0x12#32 [.u64 4#64]))).lastResult = [.bytes [1#8, 2#8, 3#8, 4#8]]
      ∧ (after (step (given (busy .cons0) .cons0 0x12#32 [.u64 4#64]))).ring0.tail = 4#64 := by decide

/-- P3, step 2: `D = 40`, `α = 0x3EAE7803`, no warning. -/
theorem test_demodInit :
    (after (step (given State.reset .ctrl 0x20#32 [.u32 1920000#32, .u32 48000#32]))).dm.alpha = 0x3EAE7803#32
      ∧ (after (step (given State.reset .ctrl 0x20#32 [.u32 1920000#32, .u32 48000#32]))).lastResult = [.u32 40#32]
      ∧ (after (step (given State.reset .ctrl 0x20#32 [.u32 1920000#32, .u32 48000#32]))).status = 0#32 := by
  decide +kernel

/-- V1: a fresh demodulator of `D = 40` makes −321 of forty neutral pairs. -/
theorem test_demodProcess :
    (after (step (given { State.reset with dm := { demodTwo with D := 40#32 } } .cons0 0x21#32
      [.bytes (List.replicate 80 127#8)]))).lastResult = [.i16s [BitVec.ofInt 16 (-321)]] := by decide +kernel

/-- P5, step 4: the pair (255, 255) against `1 + 0j` has the phase π/4. -/
theorem test_demodProcess_sum :
    (after (step (given { State.reset with dm := { demodTwo with D := 40#32 } } .cons0 0x21#32
      [.bytes [255#8, 255#8]]))).dm.sum = 0x3F490FDB#32 := by decide +kernel

/-- V2, its first sample: an empty ring is padded with the neutral byte, and `UNDERFLOW` is set. -/
theorem test_audioPull :
    (after (step (given { busy .cons0 with
      ring0 := RingState.constructed 3#6, dm := { demodTwo with D := 40#32 } } .cons0 0x22#32 [.u32 1#32]))).lastResult
      = [.i16s [BitVec.ofInt 16 (-321)]]
      ∧ (after (step (given { busy .cons0 with
        ring0 := RingState.constructed 3#6, dm := { demodTwo with D := 40#32 } } .cons0 0x22#32 [.u32 1#32]))).status
        = 0x40#32 := by decide +kernel

/-- `AUDIO_PULL.1` is allowed on no port (2.1). -/
theorem test_audioPull_one :
    (after (step (given (busy .cons1) .cons1 0x122#32 [.u32 48#32]))).status = 0x200#32 := by decide

/-- SV1: the Hann window of four samples. -/
theorem test_specInit :
    (after (step (given State.reset .ctrl 0x30#32 [.u32 4#32, .u32 1#32, .f32s []]))).sp = spectrumFour := by
  decide +kernel

/-- SV1: a user table of the wrong length. -/
theorem test_specInit_bad :
    (after (step (given State.reset .ctrl 0x30#32 [.u32 4#32, .u32 2#32, .f32s [0#32, 0#32]]))).status = 0x2#32 := by
  decide

/-- SV2. -/
theorem test_specWindow :
    (after (step (given (busy .cons1) .cons1 0x31#32
      [.bytes [255#8, 255#8, 0#8, 0#8, 128#8, 127#8, 255#8, 0#8]]))).lastResult
      = [.cf32s [⟨0x00000000#32, 0x00000000#32⟩, ⟨0xBF000000#32, 0xBF000000#32⟩, ⟨0x3B808081#32, 0xBB808081#32⟩,
          ⟨0x3F000000#32, 0xBF000000#32⟩]] := by decide +kernel

/-- SV3: a short and odd payload sets both warnings. -/
theorem test_specWindow_short :
    (after (step (given (busy .cons1) .cons1 0x31#32 [.bytes [255#8, 0#8, 7#8]]))).status = 0xA0#32 := by
  decide +kernel

/-- SV6. -/
theorem test_specMagdb :
    (after (step (given (busy .cons1) .cons1 0x32#32
      [.cf32s [⟨0x40800000#32, 0#32⟩, ⟨0#32, 0#32⟩, ⟨0x40400000#32, 0x40800000#32⟩, ⟨0#32, 0#32⟩]]))).lastResult
      = [.f32s [0x415FAB9F#32, 0xFF800000#32, 0x4140A8C1#32, 0xFF800000#32]] := by decide +kernel

/-- SV9: a length that is not `sp.N`. -/
theorem test_specMagdb_bad :
    (after (step (given (busy .cons1) .cons1 0x32#32 [.cf32s [⟨0#32, 0#32⟩]]))).status = 0x2#32 := by decide

/-- The check order of 2.1: wrong port before `NOT_INIT`, and an illegal word before both. -/
theorem test_checkOrder :
    (after (step (given State.reset .cons0 0x11#32 [.bytes [1#8]]))).status = 0x200#32
      ∧ (after (step (given State.reset .prod0 0x1012#32 [.u64 0#64]))).status = 0x1#32
      ∧ (after (step (given State.reset .cons1 0x32#32 [.cf32s []]))).status = 0x4#32 := by decide

/-- The reference values of R171, R132 and R177 that the numerics functions give. -/
theorem test_numerics :
    hann Params.table 8#32 1 = 0x3E15F61A#32 ∧ alphaOf Params.table 44100#32 = 0x3EBAAE08#32
      ∧ magDb Params.table ⟨0x00000001#32, 0#32⟩ = 0xC4604471#32
      ∧ atan2 Params.table 0xBB808081#32 0xBB808081#32 = 0xC016CBE4#32 := by decide +kernel

/-! ## For each statement with hypotheses, a state and operands that meet them -/

/-- The busy state with events pending. -/
def pending (events : List Event) : State := { busy .ctrl with inbox := events }

theorem witness_DecodeEncodeAgree : (Instr.ringPush .r1 [7#8]).wellFormed = true := by decide

theorem witness_DecodedWordIsEncoding : decode 0x111#32 [.bytes [7#8]] = .ok (.ringPush .r1 [7#8]) := by decide

/-- A word for each clause, at the ends of its range. -/
theorem witness_IllegalWordOnlySetsIllegal :
    (pending [.command .ctrl 0x1000#32 []]).inbox = .command .ctrl 0x1000#32 [] :: []
      ∧ (0x1000#32).toNat / 2 ^ 12 ≠ 0 ∧ (0x80000011#32).toNat / 2 ^ 12 ≠ 0
      ∧ (0x03 ≤ (0x03#32).toNat % 256 ∧ (0x0F#32).toNat % 256 ≤ 0x0F)
      ∧ (0x13 ≤ (0x13#32).toNat % 256 ∧ (0x1F#32).toNat % 256 ≤ 0x1F)
      ∧ (0x23 ≤ (0x23#32).toNat % 256 ∧ (0x2F#32).toNat % 256 ≤ 0x2F) ∧ 0x33 ≤ (0x33#32).toNat % 256
      ∧ ((0x210#32).toNat % 256 = 0x10 ∧ 2 ≤ (0x210#32).toNat / 256)
      ∧ (¬ ((0x120#32).toNat % 256 = 0x10 ∨ (0x120#32).toNat % 256 = 0x11 ∨ (0x120#32).toNat % 256 = 0x12
        ∨ (0x120#32).toNat % 256 = 0x22) ∧ 1 ≤ (0x120#32).toNat / 256) := by
  refine ⟨rfl, ?_⟩
  decide

theorem witness_StepRunsDecodedInstr :
    (pending [.command .cons0 0x12#32 [.u64 4#64]]).inbox = .command .cons0 0x12#32 [.u64 4#64] :: []
      ∧ decode 0x12#32 [.u64 4#64] = .ok (.ringPop .r0 4#64) ∧ (Instr.ringPop .r0 4#64).wellFormed = true := by
  refine ⟨rfl, ?_⟩
  decide

theorem witness_OnlyMismatchedPayloadRefused :
    (pending [.command .ctrl 0x10#32 []]).inbox = .command .ctrl 0x10#32 [] :: []
      ∧ decode 0x10#32 [] = .error .payloadMismatch
      ∧ step (pending [.command .ctrl 0x10#32 []]) = .refused .payloadMismatch :=
  ⟨rfl, by decide, rfl⟩

theorem witness_IdleBlockKeepsState : (busy .ctrl).inbox = [] := rfl

theorem witness_ResetEventRestoresResetValues : (pending [.reset]).inbox = .reset :: [] := rfl

theorem witness_InvariantKeptByStep :
    (pending [.command .prod0 0x11#32 [.bytes [6#8]]]).params.admissible
      ∧ (pending [.command .prod0 0x11#32 [.bytes [6#8]]]).Inv
      ∧ step (pending [.command .prod0 0x11#32 [.bytes [6#8]]])
        = .next (after (step (pending [.command .prod0 0x11#32 [.bytes [6#8]]]))) :=
  ⟨⟨by decide, by decide⟩, busy_inv .ctrl, rfl⟩

theorem witness_NoStepFaults : (pending [.command .cons0 0x12#32 [.u64 4#64]]).Inv := busy_inv .ctrl

theorem witness_PullMismatchNeverRaised :
    (pending [.command .cons0 0x22#32 [.u32 0#32]]).Inv
      ∧ step (pending [.command .cons0 0x22#32 [.u32 0#32]])
        = .next (after (step (pending [.command .cons0 0x22#32 [.u32 0#32]])))
      ∧ hasCondition .pullMismatch (pending [.command .cons0 0x22#32 [.u32 0#32]]).status = false :=
  ⟨busy_inv .ctrl, rfl, by decide⟩

theorem witness_StorageStaysCanonical :
    (pending [.command .prod0 0x11#32 [.bytes [6#8]]]).ring0.buf.wf = true
      ∧ (pending [.command .prod0 0x11#32 [.bytes [6#8]]]).ring1.buf.wf = true
      ∧ step (pending [.command .prod0 0x11#32 [.bytes [6#8]]])
        = .next (after (step (pending [.command .prod0 0x11#32 [.bytes [6#8]]]))) :=
  ⟨by decide, by decide, rfl⟩

/-- Every fault and refusal bit set, and a command that clears what it can. -/
def allFaults : State := { pending [.command .ctrl 0x2#32 [.u32 0xFFFFFFFF#32]] with status := 0x3FF#32 }

theorem witness_FaultBitsSticky :
    allFaults.inbox.head? ≠ some .reset ∧ step allFaults = .next (after (step allFaults))
      ∧ ([0, 1, 2, 3, 8, 9].all fun b => allFaults.status.getLsbD b) = true :=
  ⟨by decide, rfl, by decide⟩

theorem witness_WarningsClearedOnlyByStatusClear :
    (∀ mask, Instr.nop ≠ .statusClear mask) ∧ exec .nop allFaults = .next (after (exec .nop allFaults))
      ∧ allFaults.status.getLsbD 4 = true :=
  ⟨fun _ h => (by cases h), rfl, by decide⟩

theorem witness_OneResultPerCommand :
    (pending [.command .ctrl 0x0#32 []]).inbox = .command .ctrl 0x0#32 [] :: []
      ∧ step (pending [.command .ctrl 0x0#32 []]) = .next (after (step (pending [.command .ctrl 0x0#32 []]))) :=
  ⟨rfl, rfl⟩

theorem witness_FaultHasNoOtherEffect :
    conditionClass .qci ≠ .warning ∧ conditionClass .portViolation ≠ .warning
      ∧ exec (.ringInit .r0 3#64) (busy .ctrl) = .next (after (exec (.ringInit .r0 3#64) (busy .ctrl)))
      ∧ hasCondition .qci (busy .ctrl).status = false
      ∧ hasCondition .qci (after (exec (.ringInit .r0 3#64) (busy .ctrl))).status = true :=
  ⟨by decide, by decide, rfl, by decide, by decide⟩

theorem witness_WrongPortHasNoEffect : portAllowed (.ringPush .r0 [1#8]) (busy .cons0).issuer = false := by decide

/-- The state after reset, commands taken as from port `p`. -/
def bare (p : Port) : State := { State.reset with issuer := p }

theorem witness_DataCommandNeedsItsUnit :
    (portAllowed (.ringPush .r0 []) (bare .prod0).issuer = true ∧ ((bare .prod0).ring .r0).valid = false)
      ∧ (portAllowed (.ringPop .r1 0#64) (bare .cons1).issuer = true ∧ ((bare .cons1).ring .r1).valid = false)
      ∧ (portAllowed (.demodProcess []) (bare .cons0).issuer = true ∧ (bare .cons0).dm.valid = false)
      ∧ (portAllowed (.audioPull .r0 1#32) (bare .cons0).issuer = true ∧ ((bare .cons0).ring .r0).valid = false)
      ∧ (portAllowed (.audioPull .r0 1#32) { busy .cons0 with dm := DemodState.reset }.issuer = true
        ∧ { busy .cons0 with dm := DemodState.reset }.dm.valid = false)
      ∧ (portAllowed (.specWindow []) (bare .cons1).issuer = true ∧ (bare .cons1).sp.valid = false)
      ∧ (portAllowed (.specMagdb []) (bare .cons1).issuer = true ∧ (bare .cons1).sp.valid = false) := by decide

theorem witness_UnitsTouchedOnlyByOwners :
    (exec (.demodProcess [1#8, 2#8]) (busy .cons0) = .next (after (exec (.demodProcess [1#8, 2#8]) (busy .cons0)))
        ∧ (after (exec (.demodProcess [1#8, 2#8]) (busy .cons0))).dm ≠ (busy .cons0).dm)
      ∧ (exec (.specInit 1#32 0#32 []) (busy .ctrl) = .next (after (exec (.specInit 1#32 0#32 []) (busy .ctrl)))
        ∧ (after (exec (.specInit 1#32 0#32 []) (busy .ctrl))).sp ≠ (busy .ctrl).sp) :=
  ⟨⟨rfl, by decide +kernel⟩, rfl, by decide +kernel⟩

theorem witness_RingCountersHaveOneWriter :
    (∀ capacity, Instr.ringPop .r0 4#64 ≠ .ringInit .r0 capacity)
      ∧ exec (.ringPop .r0 4#64) (busy .cons0) = .next (after (exec (.ringPop .r0 4#64) (busy .cons0)))
      ∧ ((after (exec (.ringPop .r0 4#64) (busy .cons0))).ring .r0).tail ≠ ((busy .cons0).ring .r0).tail
      ∧ (∀ capacity, Instr.ringPush .r0 [6#8] ≠ .ringInit .r0 capacity)
      ∧ exec (.ringPush .r0 [6#8]) (busy .prod0) = .next (after (exec (.ringPush .r0 [6#8]) (busy .prod0)))
      ∧ ((after (exec (.ringPush .r0 [6#8]) (busy .prod0))).ring .r0).head ≠ ((busy .prod0).ring .r0).head :=
  ⟨fun _ h => (by cases h), rfl, by decide, fun _ h => (by cases h), rfl, by decide⟩

theorem witness_ParametersFixed :
    step (pending [.reset]) = .next (after (step (pending [.reset]))) := rfl

/-- The first and the last number, in the statement's own list. -/
theorem witness_RegReadReturnsContent : ∃ s : State, ∀ e ∈ [(0x00, 0x464D4431), (0x31, 4)],
    e ∈ [
      (0x00, 0x464D4431), (0x01, s.status.toNat % 2 ^ 10),
      (0x10, if s.ring0.valid then 1 + 2 ^ 8 * s.ring0.k.toNat else 0), (0x11, s.ring0.head.toNat),
      (0x12, s.ring0.tail.toNat), (0x13, (2 ^ 64 + s.ring0.head.toNat - s.ring0.tail.toNat) % 2 ^ 64),
      (0x18, if s.ring1.valid then 1 + 2 ^ 8 * s.ring1.k.toNat else 0), (0x19, s.ring1.head.toNat),
      (0x1A, s.ring1.tail.toNat), (0x1B, (2 ^ 64 + s.ring1.head.toNat - s.ring1.tail.toNat) % 2 ^ 64),
      (0x20, if s.dm.valid then 1 else 0), (0x21, s.dm.sampleRate.toNat), (0x22, s.dm.audioRate.toNat),
      (0x23, s.dm.D.toNat), (0x24, s.dm.alpha.toNat), (0x25, s.dm.prev.re.toNat), (0x26, s.dm.prev.im.toNat),
      (0x27, s.dm.counter.toNat), (0x28, s.dm.sum.toNat), (0x29, s.dm.yprev.toNat),
      (0x30, (if s.sp.valid then 1 else 0) + 2 ^ 8 * s.sp.winSel.toNat), (0x31, s.sp.N.toNat)] :=
  ⟨busy .ctrl, by decide +kernel⟩

/-- The first and the last coefficient. -/
theorem witness_RegReadReturnsWindow :
    ((0x10000#32).toNat = 0x10000 + 0 ∧ 0 < (busy .ctrl).sp.N.toNat ∧ (busy .ctrl).sp.win[0]? = some 0x00000000#32)
      ∧ ((0x10003#32).toNat = 0x10000 + 3 ∧ 3 < (busy .ctrl).sp.N.toNat
        ∧ (busy .ctrl).sp.win[3]? = some 0x3F000000#32) := by decide

/-- Numbers beside the assigned ones. -/
theorem witness_RegReadUnassignedFaults :
    ([0x02, 0x0F, 0x14, 0x17, 0x1C, 0x2A, 0x32, 0xFFFF, 0x10004, 0xFFFFFFFF].all fun n =>
      !([0x00, 0x01, 0x10, 0x11, 0x12, 0x13, 0x18, 0x19, 0x1A, 0x1B, 0x20, 0x21, 0x22, 0x23, 0x24, 0x25, 0x26, 0x27, 0x28,
        0x29, 0x30, 0x31].contains n) && !(decide (0x10000 ≤ n) && decide (n - 0x10000 < (busy .ctrl).sp.N.toNat)))
      = true := by decide

theorem witness_StatusClearClearsWarnings : (busy .ctrl).issuer = .ctrl := rfl

/-- The least and the greatest capacity. -/
theorem witness_RingInitConstructs :
    ((busy .ctrl).issuer = .ctrl ∧ 0 ≤ (busy .ctrl).params.ringMaxLog2.val ∧ (1#64).toNat = 2 ^ 0)
      ∧ 20 ≤ (busy .ctrl).params.ringMaxLog2.val ∧ (1048576#64).toNat = 2 ^ 20 := by decide

theorem witness_RingInitRejectsBadCapacity :
    (busy .ctrl).issuer = .ctrl
      ∧ ([0#64, 3#64, 1000#64, 2097152#64, 0xFFFFFFFFFFFFFFFF#64].all fun c =>
        (List.range ((busy .ctrl).params.ringMaxLog2.val + 1)).all fun k => c.toNat != 2 ^ k) = true := by decide +kernel

theorem witness_DrawsCoverTheirRange : (7#64 - 4#64).toNat ≤ (9#64 - 4#64).toNat := by decide

/-- Three bytes fill the ring. -/
theorem witness_RingPushAccepts :
    (busy .prod0).issuer = Port.producer .r0 ∧ ((busy .prod0).ring .r0).valid = true
      ∧ 0#64 = (busy .prod0).drawBetween ((busy .prod0).ring .r0).pTailSeen ((busy .prod0).ring .r0).tail
      ∧ [6#8, 7#8, 8#8].length + (((busy .prod0).ring .r0).head - 0#64).toNat ≤ 2 ^ ((busy .prod0).ring .r0).k.toNat := by
  decide

/-- Four bytes are one too many. -/
theorem witness_RingPushFullChangesNothing :
    (busy .prod0).issuer = Port.producer .r0 ∧ ((busy .prod0).ring .r0).valid = true
      ∧ 0#64 = (busy .prod0).drawBetween ((busy .prod0).ring .r0).pTailSeen ((busy .prod0).ring .r0).tail
      ∧ 2 ^ ((busy .prod0).ring .r0).k.toNat
        < [6#8, 7#8, 8#8, 9#8].length + (((busy .prod0).ring .r0).head - 0#64).toNat := by
  decide

theorem witness_RingPopDelivers :
    (busy .cons0).issuer = Port.consumer .r0 ∧ ((busy .cons0).ring .r0).valid = true
      ∧ ((busy .cons0).ring .r0).Inv (busy .cons0).params
      ∧ ((busy .cons0).ring .r0).contents = some [1#8, 2#8, 3#8, 4#8, 5#8]
      ∧ 5#64 = (busy .cons0).drawBetween ((busy .cons0).ring .r0).cHeadSeen ((busy .cons0).ring .r0).head
      ∧ 4 = min (4#64).toNat (5#64 - ((busy .cons0).ring .r0).tail).toNat :=
  ⟨rfl, rfl, ringFive_inv, by decide, by decide, by decide⟩

theorem witness_RingIsAQueue :
    ((busy .prod0).ring .r0).Inv (busy .prod0).params
      ∧ ((busy .prod0).ring .r0).contents = some [1#8, 2#8, 3#8, 4#8, 5#8]
      ∧ exec (.ringPush .r0 [6#8]) (busy .prod0) = .next (after (exec (.ringPush .r0 [6#8]) (busy .prod0)))
      ∧ exec (.ringPop .r0 4#64) (busy .cons0) = .next (after (exec (.ringPop .r0 4#64) (busy .cons0))) :=
  ⟨ringFive_inv, by decide, rfl, rfl⟩

/-- A push and a pop of ring 1, from empty. -/
def streamEvents : List Event :=
  [.command .prod1 0x111#32 [.bytes [20#8, 21#8, 22#8]], .command .cons1 0x112#32 [.u64 2#64]]

/-- The run of the two. -/
def streamOut : Option (State × List Byte × List Byte) := streamRun .r1 2 (pending streamEvents)

theorem witness_RingStreamEquality :
    (pending streamEvents).params.admissible ∧ (pending streamEvents).Inv
      ∧ (∀ e ∈ (pending streamEvents).inbox, e.leavesRing .r1) ∧ ((pending streamEvents).ring .r1).contents = some []
      ∧ ∃ u, streamRun .r1 2 (pending streamEvents) = some (u, [20#8, 21#8, 22#8], [20#8, 21#8]) := by
  refine ⟨⟨by decide, by decide⟩, busy_inv .ctrl, ?_, by decide, _, rfl⟩
  intro e he
  rcases List.mem_cons.1 he with rfl | he
  · exact ⟨fun h => (by cases h), fun _ h => (by cases h)⟩
  · rcases List.mem_cons.1 he with rfl | he
    · exact ⟨fun h => (by cases h), fun _ h => (by cases h)⟩
    · cases he

theorem witness_RingsIndependent :
    (Instr.ringPop .r0 4#64).ring? ≠ some .r1
      ∧ exec (.ringPop .r0 4#64) (busy .cons0) = .next (after (exec (.ringPop .r0 4#64) (busy .cons0))) :=
  ⟨by decide, rfl⟩

theorem witness_DemodInitConstructs : (busy .ctrl).issuer = .ctrl ∧ 48000#32 ≠ 0#32 ∧ 1#32 ≠ 0#32 := by decide

theorem witness_DemodInitZeroRateFaults : (busy .ctrl).issuer = .ctrl := rfl

theorem witness_AlphaInUnitInterval :
    Params.table.sourceLiterals = true ∧ { Params.table with tau := Params.alternativeTau }.sourceLiterals = true
      ∧ 1#32 ≠ 0#32 ∧ 0xFFFFFFFF#32 ≠ 0#32 := by decide

theorem witness_DemodProcessCount :
    (busy .cons0).issuer = .cons0 ∧ (busy .cons0).dm.valid = true
      ∧ (busy .cons0).dm.counter.toNat < (busy .cons0).dm.D.toNat := by decide

/-- A pair before the end of its window, and one at it. -/
theorem witness_DemodPairThroughStages :
    (busy .cons0).issuer = .cons0 ∧ (busy .cons0).dm.valid = true
      ∧ (busy .cons0).dm.counter + 1#32 ≠ (busy .cons0).dm.D
      ∧ { demodTwo with counter := 1#32 }.counter + 1#32 = { demodTwo with counter := 1#32 }.D := by decide

theorem witness_DemodProcessSpansCalls :
    (busy .cons0).issuer = .cons0 ∧ (busy .cons0).dm.valid = true ∧ [1#8, 2#8].length % 2 = 0 := by decide

theorem witness_OddByteDiscarded :
    (busy .cons0).issuer = .cons0 ∧ (busy .cons0).dm.valid = true ∧ [1#8, 2#8].length % 2 = 0 := by decide

theorem witness_DemodProcessDeterministic :
    (busy .cons0).dm = { busy .cons0 with draws := [] }.dm
      ∧ (busy .cons0).params = { busy .cons0 with draws := [] }.params ∧ (busy .cons0).issuer = .cons0
      ∧ { busy .cons0 with draws := [] }.issuer = .cons0
      ∧ exec (.demodProcess []) (busy .cons0) = .next (after (exec (.demodProcess []) (busy .cons0)))
      ∧ exec (.demodProcess []) { busy .cons0 with draws := [] }
        = .next (after (exec (.demodProcess []) { busy .cons0 with draws := [] })) :=
  ⟨rfl, rfl, rfl, rfl, rfl, rfl⟩

theorem witness_ConvNeverZero : Params.table.sourceLiterals = true := by decide

theorem witness_FirstDifferenceIsSample : Params.table.sourceLiterals = true := by decide

theorem witness_EqualSamplesHaveZeroPhase : Params.table.sourceLiterals = true := by decide

theorem witness_PhaseWithinPi :
    f32Lt 0#32 0x3F800000#32 = true ∧ f32Lt 0xBF800000#32 0#32 = true := by decide +kernel

theorem witness_QuantisedSampleFits : f32IsNaN (f32Mul Params.table 0xC0400000#32 Params.table.gain) = false := by
  decide +kernel

/-- A pull of two frames needs eight bytes, and the ring holds five. -/
theorem witness_AudioPullReturnsFrames :
    (busy .cons0).issuer = .cons0 ∧ (busy .cons0).ring0.valid = true ∧ (busy .cons0).dm.valid = true
      ∧ (busy .cons0).ring0.Inv (busy .cons0).params ∧ (busy .cons0).dm.counter.toNat < (busy .cons0).dm.D.toNat
      ∧ 8 = (2#32).toNat * (busy .cons0).dm.D.toNat * 2 ∧ 8 < 2 ^ 64
      ∧ (busy .cons0).ring0.contents = some [1#8, 2#8, 3#8, 4#8, 5#8]
      ∧ 5#64 = (busy .cons0).drawBetween (busy .cons0).ring0.cHeadSeen (busy .cons0).ring0.head
      ∧ 5 = min 8 (5#64 - (busy .cons0).ring0.tail).toNat
      ∧ [1#8, 2#8, 3#8, 4#8, 5#8] = [1#8, 2#8, 3#8, 4#8, 5#8].take 5
      ∧ [1#8, 2#8, 3#8, 4#8, 5#8, 127#8, 127#8, 127#8]
        = [1#8, 2#8, 3#8, 4#8, 5#8] ++ List.replicate (8 - 5) (busy .cons0).params.padByte :=
  ⟨rfl, rfl, rfl, ringFive_inv, by decide, by decide, by decide, by decide, by decide, by decide, by decide, by decide⟩

/-- The least number of frames that is too many for the greatest `D`. -/
theorem witness_AudioPullTooLargeFaults :
    { busy .cons0 with dm := { demodTwo with D := 0xFFFFFFFF#32 } }.issuer = .cons0
      ∧ { busy .cons0 with dm := { demodTwo with D := 0xFFFFFFFF#32 } }.ring0.valid = true
      ∧ { busy .cons0 with dm := { demodTwo with D := 0xFFFFFFFF#32 } }.dm.valid = true
      ∧ 2 ^ 64 ≤ (0x80000001#32).toNat * { busy .cons0 with dm := { demodTwo with D := 0xFFFFFFFF#32 } }.dm.D.toNat * 2 := by
  decide

/-- The three windows, the least and the greatest frame. -/
theorem witness_SpecInitConfigures :
    (busy .ctrl).issuer = .ctrl ∧ 1 ≤ (1#32).toNat ∧ (1024#32).toNat ≤ (busy .ctrl).params.fftNMax
      ∧ (0#32 = 0#32 ∧ ([] : List F32) = []) ∧ (1#32 = 1#32 ∧ ([] : List F32) = [])
      ∧ (2#32 = 2#32 ∧ [0x40000000#32].length = (1#32).toNat) := by decide

/-- An operand for each failing check. -/
theorem witness_SpecInitRejects :
    (busy .ctrl).issuer = .ctrl ∧ (0#32).toNat = 0 ∧ (busy .ctrl).params.fftNMax < (1025#32).toNat ∧ 2 < (3#32).toNat
      ∧ ((2#32).toNat = 2 ∧ ([] : List F32).length ≠ (1#32).toNat)
      ∧ ((1#32).toNat ≠ 2 ∧ [0x3F800000#32] ≠ []) := by decide

/-- Coefficients 0 and 1: a payload of one sample has the first and not the second. -/
theorem witness_SpecWindowForms :
    (busy .cons1).issuer = .cons1 ∧ (busy .cons1).sp.valid = true ∧ (busy .cons1).sp.Inv (busy .cons1).params
      ∧ ((busy .cons1).sp.win[0]? = some 0x00000000#32 ∧ [255#8, 0#8][2 * 0]? = some 255#8
        ∧ [255#8, 0#8][2 * 0 + 1]? = some 0#8)
      ∧ ((busy .cons1).sp.win[1]? = some 0x3F000000#32 ∧ [255#8, 0#8].length / 2 ≤ 1) :=
  ⟨rfl, rfl, spectrumFour_inv, by decide, by decide⟩

/-- Element 0 shows bin 2, and element 2 shows bin 0. -/
theorem witness_SpecMagdbInDisplayOrder :
    (busy .cons1).issuer = .cons1 ∧ (busy .cons1).sp.valid = true
      ∧ (List.replicate 4 (⟨0#32, 0#32⟩ : CF32)).length = (busy .cons1).sp.N.toNat
      ∧ 0 < (busy .cons1).sp.N.toNat
      ∧ ((2 : Nat) : Int) = ((0 : Nat) : Int) - ((busy .cons1).sp.N.toNat / 2 : Nat) + (busy .cons1).sp.N.toNat
      ∧ ((0 : Nat) : Int) = ((2 : Nat) : Int) - ((busy .cons1).sp.N.toNat / 2 : Nat)
      ∧ (List.replicate 4 (⟨0#32, 0#32⟩ : CF32))[2]? = some ⟨0#32, 0#32⟩ := by decide

theorem witness_SpecMagdbLengthFaults :
    (busy .cons1).issuer = .cons1 ∧ (busy .cons1).sp.valid = true
      ∧ ([] : List CF32).length ≠ (busy .cons1).sp.N.toNat := by decide

/-- A bin for each clause: an ordinary one beside the zero, and the least and the greatest subnormal. -/
theorem witness_MagDbSpecialValues :
    f32IsNaN 0x7FC00000#32 = true
      ∧ (f32IsNaN 0x7F800000#32 = false ∧ f32IsNaN 0#32 = false ∧ f32IsFinite 0x7F800000#32 = false)
      ∧ (f32IsZero 0#32 = true ∧ f32IsZero 0x80000000#32 = true)
      ∧ (f32IsFinite 0x7F7FFFFF#32 = true ∧ f32IsFinite 0#32 = true ∧ f32IsZero 0x7F7FFFFF#32 = false)
      ∧ ((0x807FFFFF#32).toNat % 2 ^ 31 < 2 ^ 23 ∧ (0x00000001#32).toNat % 2 ^ 31 < 2 ^ 23
        ∧ f32IsZero 0x807FFFFF#32 = false ∧ f32IsZero 0x00000001#32 = false) := by decide +kernel

/-- The first value that rounds to infinity, the last that does not, and a finite binary32 value. -/
theorem witness_RoundingToNearestEven :
    0 < 1 ∧ (2 ^ 128 - 2 ^ 103) * 1 ≤ 2 ^ 128 - 2 ^ 103 ∧ 2 ^ 128 - 2 ^ 103 - 1 < (2 ^ 128 - 2 ^ 103) * 1
      ∧ val32 0x3F800000#32 = .fin false (2 ^ 149) (2 ^ 149) := by decide +kernel

end Sys2Proof.Tests
end

section
/-! `REG_READ` of the registers below the window (spec/10_state.md R40 to R44, spec/43_control.md R191): what each
register reads as a number, which number names which register, and the command's effect. -/

namespace Sys2Proof.Machine

/-! ## The content of a register as a number -/

/-- R41, R44: a flag in bit 0 and a field from bit 8 on do not overlap, so the word is their sum. -/
theorem bitWord_or_field {w : Nat} (hw : w ≤ 56) (b : Bool) (field : BitVec w) :
    bitWord b ||| (field.setWidth 64 <<< 8) = BitVec.ofNat 64 ((if b then 1 else 0) + 2 ^ 8 * field.toNat) := by
  have hfield : field.toNat < 2 ^ 56 := field.isLt.trans_le (Nat.pow_le_pow_right (by decide) hw)
  have hflag : (bitWord b).toNat = if b then 1 else 0 := by cases b <;> rfl
  have hlow : (if b then 1 else 0) < 2 ^ 8 := by cases b <;> decide
  have hshift : (field.setWidth 64 <<< 8).toNat = field.toNat <<< 8 := by
    rw [BitVec.toNat_shiftLeft, BitVec.toNat_setWidth_of_le (by omega), Nat.shiftLeft_eq,
      Nat.mod_eq_of_lt (by omega)]
  apply BitVec.eq_of_toNat_eq
  rw [BitVec.toNat_or, hflag, hshift, Nat.or_comm, ← Nat.shiftLeft_add_eq_or_of_lt hlow, BitVec.toNat_ofNat,
    Nat.shiftLeft_eq, Nat.mod_eq_of_lt (by omega)]
  omega

/-- R41: `K` reads 0 while `VALID` is 0. -/
theorem ringCfg_eq_ofNat (rs : RingState) :
    ringCfg rs = BitVec.ofNat 64 (if rs.valid then 1 + 2 ^ 8 * rs.k.toNat else 0) := by
  cases hv : rs.valid with
  | false => simp [ringCfg, hv]
  | true => simpa [ringCfg, hv, bitWord] using bitWord_or_field (by decide) true rs.k

/-- R44: unlike `K`, `WIN_SEL` is read whether or not `VALID` is set. -/
theorem specCfg_eq_ofNat (sp : SpecState) :
    specCfg sp = BitVec.ofNat 64 ((if sp.valid then 1 else 0) + 2 ^ 8 * sp.winSel.toNat) :=
  bitWord_or_field (by decide) sp.valid sp.winSel

/-- R37: of `STATUS`, bits 9:0 are read. -/
theorem statusRead_eq_ofNat (status : U32) :
    (statusRead status).setWidth 64 = BitVec.ofNat 64 (status.toNat % 2 ^ 10) := by
  have hmask : (statusRead status).toNat = status.toNat % 2 ^ 10 := Nat.and_two_pow_sub_one_eq_mod status.toNat 10
  rw [← hmask, BitVec.ofNat_toNat]

/-- R29: `used` is the distance from the tail to the head, counted modulo `2^64`. -/
theorem used_eq_ofNat (rs : RingState) :
    rs.used = BitVec.ofNat 64 ((2 ^ 64 + rs.head.toNat - rs.tail.toNat) % 2 ^ 64) := by
  unfold RingState.used
  bv_omega

/-- What R40 to R44 say a register holds, as a number; none for a window entry the table does not hold. -/
def regContent (s : State) : Reg → Option Nat
  | .id => some 0x464D4431
  | .status => some (s.status.toNat % 2 ^ 10)
  | .ringCfg r => some (if (s.ring r).valid then 1 + 2 ^ 8 * (s.ring r).k.toNat else 0)
  | .ringHead r => some (s.ring r).head.toNat
  | .ringTail r => some (s.ring r).tail.toNat
  | .ringUsed r => some ((2 ^ 64 + (s.ring r).head.toNat - (s.ring r).tail.toNat) % 2 ^ 64)
  | .dmCfg => some (if s.dm.valid then 1 else 0)
  | .dmSampleRate => some s.dm.sampleRate.toNat
  | .dmAudioRate => some s.dm.audioRate.toNat
  | .dmD => some s.dm.D.toNat
  | .dmAlpha => some s.dm.alpha.toNat
  | .dmPrevRe => some s.dm.prev.re.toNat
  | .dmPrevIm => some s.dm.prev.im.toNat
  | .dmCounter => some s.dm.counter.toNat
  | .dmSum => some s.dm.sum.toNat
  | .dmYprev => some s.dm.yprev.toNat
  | .spCfg => some ((if s.sp.valid then 1 else 0) + 2 ^ 8 * s.sp.winSel.toNat)
  | .spN => some s.sp.N.toNat
  | .spWin k => s.sp.win[k]?.map BitVec.toNat

/-- The model's register read is the content of R40 to R44, for every register. -/
theorem readReg_eq_regContent (s : State) (reg : Reg) :
    readReg s reg = (regContent s reg).map (BitVec.ofNat 64) := by
  cases reg with
  | id => rfl
  | status => simp only [readReg, regContent, statusRead_eq_ofNat, Option.map_some]
  | ringCfg r => simp only [readReg, regContent, ringCfg_eq_ofNat, Option.map_some]
  | ringUsed r => simp only [readReg, regContent, used_eq_ofNat, Option.map_some]
  | spCfg => simp only [readReg, regContent, specCfg_eq_ofNat, Option.map_some]
  | dmCfg => cases h : s.dm.valid <;> simp [readReg, regContent, bitWord, h]
  | spWin k => simp [readReg, regContent, Function.comp_def]
  | ringHead | ringTail | dmSampleRate | dmAudioRate | dmD | dmAlpha | dmPrevRe | dmPrevIm | dmCounter | dmSum
  | dmYprev | spN => simp [readReg, regContent]

/-! ## The command -/

/-- R40: below the window, the number of each entry of the map names that entry's register, whatever `sp.N` is. -/
theorem regOf_of_mem_regNumbers (spN : U32) {num : Nat} {reg : Reg} (h : (num, reg) ∈ regNumbers) :
    regOf spN (BitVec.ofNat 32 num) = some reg := by
  have entries : ∀ e ∈ regNumbers, (BitVec.ofNat 32 e.1).toNat < winBase
      ∧ (regNumbers.find? fun d => d.1 == (BitVec.ofNat 32 e.1).toNat) = some e := by decide
  obtain ⟨hbelow, hfind⟩ := entries _ h
  rw [regOf, if_neg (Nat.not_le.mpr hbelow), hfind, Option.map_some]

/-- R205: `REG_READ` is allowed on every port. -/
@[simp] theorem portAllowed_regRead (num : U32) (p : Port) : portAllowed (.regRead num) p = true := by
  cases p <;> rfl

/-- R191, R69: `REG_READ` of an assigned register returns what it reads, on any port, and does nothing else. -/
theorem exec_regRead_of_readReg {s : State} {num : U32} {reg : Reg} {v : U64} (hreg : regOf s.sp.N num = some reg)
    (hv : readReg s reg = some v) : exec (.regRead num) s = .next (s.finish [.u64 v]) := by
  simp [exec, execRegRead, onPort, require, succeed, hreg, hv]

/-- Settles O25. The statement's list is the register map with each register's content, entry by entry. -/
theorem regReadReturnsContent : Obligations.RegReadReturnsContent := by
  unfold Obligations.RegReadReturnsContent
  intro s num value hmem
  have hmap : (num, some value) ∈ regNumbers.map fun e => (e.1, regContent s e.2) :=
    List.mem_map_of_mem (f := fun e => (e.1, some e.2)) hmem
  obtain ⟨⟨_, reg⟩, hentry, heq⟩ := List.mem_map.mp hmap
  obtain ⟨rfl, hcontent⟩ := Prod.mk.inj heq
  have hread : readReg s reg = some (BitVec.ofNat 64 value) := by
    rw [readReg_eq_regContent, hcontent, Option.map_some]
  exact exec_regRead_of_readReg (regOf_of_mem_regNumbers s.sp.N hentry) hread

end Sys2Proof.Machine
end

section
/-! The encoding of commands (spec/30_encoding.md R80 to R86): which words are legal, which payload goes with which
operation, and that the decoder and the encoder are inverse to each other on well-formed commands. -/

namespace Sys2Proof

/-! ## Legal words -/

/-- The word passes the three word checks of R204, steps 1 to 3, as the word of operation `o`. -/
def IsWordOf (o : Opcode) (w : U32) : Prop :=
  rsvField w = 0#20 ∧ opcodeOf (opField w) = some o ∧ instLegal o (instField w) = true

/-- A command is decoded from a word of its operation and that operation's operand list. -/
theorem decode_ok_iff_isWordOf {w : U32} {p : List Value} {i : Instr} :
    decode w p = .ok i ↔ ∃ o, IsWordOf o w ∧ withPayload o (ringOf (instField w)) p = some i := by
  rw [decode_ok_iff]
  constructor
  · rintro ⟨hrsv, o, hop, hinst, hpayload⟩
    exact ⟨o, ⟨hrsv, hop, hinst⟩, hpayload⟩
  · rintro ⟨o, ⟨hrsv, hop, hinst⟩, hpayload⟩
    exact ⟨hrsv, o, hop, hinst, hpayload⟩

/-- Every command's word passes the word checks and names the command's ring. -/
theorem legalWord (i : Instr) : Laws.LegalWord.Statement i := by
  cases i with
  | nop => exact Laws.LegalWord.nop
  | regRead num => exact Laws.LegalWord.regRead num
  | statusClear mask => exact Laws.LegalWord.statusClear mask
  | ringInit r capacity => exact Laws.LegalWord.ringInit r capacity
  | ringPush r data => exact Laws.LegalWord.ringPush r data
  | ringPop r max => exact Laws.LegalWord.ringPop r max
  | demodInit sampleRate audioRate => exact Laws.LegalWord.demodInit sampleRate audioRate
  | demodProcess iq => exact Laws.LegalWord.demodProcess iq
  | audioPull r frames => exact Laws.LegalWord.audioPull r frames
  | specInit n winSel table => exact Laws.LegalWord.specInit n winSel table
  | specWindow iq => exact Laws.LegalWord.specWindow iq
  | specMagdb bins => exact Laws.LegalWord.specMagdb bins

/-- R82: the ring-addressed operations are those whose commands name a ring. -/
theorem ringAddressed_opcode (i : Instr) : ringAddressed i.opcode = i.ring?.isSome := by cases i <;> rfl

/-- R82: an `INST` value in range for the command's operation that selects the command's ring is the one the encoder
writes. -/
theorem instOf_eq_of_instLegal {i : Instr} {inst : BitVec 4} (hlegal : instLegal i.opcode inst = true)
    (hring : ∀ r, i.ring? = some r → ringOf inst = r) : instOf i.ring? = inst := by
  rw [instLegal, ringAddressed_opcode] at hlegal
  cases h : i.ring? with
  | none =>
    have hzero : inst = 0#4 := by simpa [h] using hlegal
    rw [hzero, instOf]
  | some r =>
    have hcases : inst = 0#4 ∨ inst = 1#4 := by simpa [h] using hlegal
    rw [← hring r h]
    rcases hcases with rfl | rfl <;> rfl

/-! ## Payloads -/

/-- R85, R86: a payload read as the operands of operation `o` with ring `r` gives exactly the well-formed command of
that operation and payload, on ring `r` where it names one. -/
theorem withPayload_eq_some_iff {o : Opcode} {r : RingId} {p : List Value} {i : Instr} :
    withPayload o r p = some i ↔
      i.opcode = o ∧ encodePayload i = p ∧ i.wellFormed = true ∧ ∀ q, i.ring? = some q → r = q := by
  constructor
  · intro h
    unfold withPayload at h
    split at h
    -- The last row takes every other payload; rows 5, 8 and 11 are those with a `BYTES` operand, which must fit.
    case h_13 => cases h
    case h_5 | h_8 | h_11 =>
      split at h
      · cases h
        exact ⟨rfl, rfl, by assumption, by simp [Instr.ring?]⟩
      · cases h
    all_goals
      cases h
      exact ⟨rfl, rfl, rfl, by simp [Instr.ring?]⟩
  · rintro ⟨rfl, rfl, hwf, hring⟩
    cases i with
    | ringInit q _ | ringPop q _ | audioPull q _ =>
      obtain rfl := hring q rfl
      rfl
    | ringPush q _ =>
      obtain rfl := hring q rfl
      exact if_pos hwf
    | demodProcess | specWindow => exact if_pos hwf
    | nop | regRead | statusClear | demodInit | specInit | specMagdb => rfl

/-! ## The round trips -/

/-- R80, R85: the decoder answers a command exactly on the word and payload that the encoder writes for it, and only
for well-formed commands. -/
theorem decode_eq_ok_iff {w : U32} {p : List Value} {i : Instr} :
    decode w p = .ok i ↔ encode i = (w, p) ∧ i.wellFormed = true := by
  constructor
  · intro h
    obtain ⟨o, ⟨hrsv, hop, hinst⟩, hpayload⟩ := decode_ok_iff_isWordOf.mp h
    obtain ⟨rfl, rfl, hwf, hring⟩ := withPayload_eq_some_iff.mp hpayload
    have hword : encodeWord i = w := by
      rw [encodeWord, ← hrsv, instOf_eq_of_instLegal hinst hring, opValue_of_opcodeOf hop, fields_append]
    exact ⟨by rw [encode, hword], hwf⟩
  · rintro ⟨hencode, hwf⟩
    obtain ⟨rfl, rfl⟩ := Prod.mk.inj hencode
    obtain ⟨hrsv, hop, hinst, hring⟩ := legalWord i
    exact decode_ok_iff_isWordOf.mpr
      ⟨i.opcode, ⟨hrsv, hop, hinst⟩, withPayload_eq_some_iff.mpr ⟨rfl, rfl, hwf, hring⟩⟩

/-- Settles O1, the reading half of the round trip. -/
theorem decodeEncodeAgree : Obligations.DecodeEncodeAgree := by
  unfold Obligations.DecodeEncodeAgree
  intro i hwf
  exact decode_eq_ok_iff.mpr ⟨rfl, hwf⟩

/-- Settles O2, the writing half of the round trip. -/
theorem decodedWordIsEncoding : Obligations.DecodedWordIsEncoding := by
  unfold Obligations.DecodedWordIsEncoding
  intro w p i h
  exact decode_eq_ok_iff.mp h

/-- Settles O3. Each word and payload is compared with what the encoder writes for the command. -/
theorem writtenWordsDecode : Obligations.WrittenWordsDecode := by
  unfold Obligations.WrittenWordsDecode
  simp only [decode_eq_ok_iff]
  decide

end Sys2Proof

namespace Sys2Proof.Machine

/-! ## Illegal words -/

/-- R80: the value of each field in the number of the word. -/
theorem toNat_fields (w : U32) :
    (rsvField w).toNat = w.toNat / 2 ^ 12 ∧ (instField w).toNat = w.toNat / 256 % 16
      ∧ (opField w).toNat = w.toNat % 256 := by
  have hw := w.isLt
  refine ⟨?_, ?_, ?_⟩
  · simp only [rsvField, BitVec.extractLsb'_toNat, Nat.shiftRight_eq_div_pow]
    omega
  · simp only [instField, BitVec.extractLsb'_toNat, Nat.shiftRight_eq_div_pow]
  · simp only [opField, BitVec.extractLsb'_toNat, Nat.shiftRight_zero]

/-- R82: an `INST` value in range is below the number of instances of its operation. -/
theorem toNat_lt_of_instLegal {o : Opcode} {inst : BitVec 4} (h : instLegal o inst = true) :
    inst.toNat < if ringAddressed o then 2 else 1 := by
  unfold instLegal at h
  split at h
  case isTrue haddr =>
    have hcases : inst = 0#4 ∨ inst = 1#4 := by simpa using h
    rcases hcases with rfl | rfl <;> simp [haddr]
  case isFalse haddr =>
    have hzero : inst = 0#4 := by simpa using h
    simp [hzero, haddr]

/-- R80, R82, R83: a legal word as a number, its low byte the operation's `OP` and the rest its `INST`. -/
theorem toNat_of_isWordOf {o : Opcode} {w : U32} (h : IsWordOf o w) :
    w.toNat / 2 ^ 12 = 0 ∧ w.toNat % 256 = (opValue o).toNat
      ∧ w.toNat / 256 < if ringAddressed o then 2 else 1 := by
  obtain ⟨hrsv, hop, hinst⟩ := h
  obtain ⟨ersv, einst, eop⟩ := toNat_fields w
  have hlt := toNat_lt_of_instLegal hinst
  rw [hrsv] at ersv
  rw [← opValue_of_opcodeOf hop] at eop
  have hzero : w.toNat / 2 ^ 12 = 0 := ersv.symm
  have hsmall : w.toNat / 256 % 16 = w.toNat / 256 := Nat.mod_eq_of_lt (by omega)
  exact ⟨hzero, eop.symm, by rwa [einst, hsmall] at hlt⟩

/-- R81, R82, R84: a word that is no operation's raises `ILLEGAL`, whatever its payload. -/
theorem runCommand_of_not_isWordOf {w : U32} (h : ∀ o, ¬ IsWordOf o w) (p : List Value) (s : State) :
    runCommand w p s = raiseIllegal w s := by
  unfold runCommand
  cases hd : decode w p with
  | ok i =>
    obtain ⟨o, hword, -⟩ := decode_ok_iff_isWordOf.mp hd
    exact absurd hword (h o)
  | error e =>
    rcases decode_error_cases hd with
      ⟨rfl, -⟩ | ⟨rfl, -⟩ | ⟨_, rfl, -⟩ | ⟨o, rfl, hrsv, hop, hinst, -⟩
    · rfl
    · rfl
    · rfl
    · exact absurd ⟨hrsv, hop, hinst⟩ (h o)

/-- R211: a step with a command first in the inbox runs it. -/
theorem step_of_command {s : State} {port : Port} {w : U32} {p : List Value} {rest : List Event}
    (h : s.inbox = .command port w p :: rest) : step s = runCommand w p (s.accept port rest) := by
  simp only [step, h]

/-- R201: what `ILLEGAL` changes when the word is taken from the inbox. -/
theorem raiseIllegal_accept (w : U32) (s : State) (port : Port) (rest : List Event) :
    raiseIllegal w (s.accept port rest) = .next { s with
      inbox := rest
      issuer := port
      status := s.status ||| 0x1#32
      results := s.results ++ [⟨port, illegalResult w⟩] } := rfl

/-- Settles O4. A word of any operation meets none of the statement's ranges, so the word is no operation's. -/
theorem illegalWordOnlySetsIllegal : Obligations.IllegalWordOnlySetsIllegal := by
  unfold Obligations.IllegalWordOnlySetsIllegal
  intro s port w p rest hinbox hillegal
  have hno : ∀ o, ¬ IsWordOf o w := by
    intro o hword
    obtain ⟨hrsv, hop, hinst⟩ := toNat_of_isWordOf hword
    cases o <;>
      simp only [opValue, ringAddressed, BitVec.toNat_ofNat, Bool.false_eq_true, if_false, if_true] at hop hinst <;>
      omega
  exact ⟨illegalResult w, by rw [step_of_command hinbox, runCommand_of_not_isWordOf hno, raiseIllegal_accept]⟩

end Sys2Proof.Machine
end

section
/-! A ring as the queue of the bytes it holds (spec/40_ring.md R104, R105): what a pop hands over, and what passes
through a ring over a step and over a run. -/

namespace Sys2Proof.Machine

/-! ## The queue -/

/-- The ring's counters are in order (R29) and `held` are the bytes between them, oldest first. -/
structure RingState.Holds (rs : RingState) (held : List Byte) : Prop where
  ordered : rs.ordered
  contents : rs.contents = some held

/-- R29, R45: the invariant orders the counters of an invalid ring too, which are all zero. -/
theorem RingState.Inv.ordered {P : Params} {rs : RingState} (h : rs.Inv P) : rs.ordered := by
  obtain ⟨hreset, hlive⟩ := h
  cases hv : rs.valid with
  | false =>
    rw [hreset hv]
    unfold RingState.ordered
    decide
  | true =>
    obtain ⟨-, -, -, hordered, -⟩ := hlive hv
    exact hordered

/-- R29: a ring's invariant is part of the block's. -/
theorem State.Inv.ring {s : State} (h : s.Inv) (r : RingId) : (s.ring r).Inv s.params := by
  obtain ⟨h0, h1, -⟩ := h
  cases r with
  | r0 => exact h0
  | r1 => exact h1

/-- A ring holds `used` bytes. -/
theorem RingState.Holds.length_eq {rs : RingState} {held : List Byte} (h : rs.Holds held) :
    held.length = rs.used.toNat :=
  ((memRead_eq_some_iff _ _ _ _ _).mp h.contents).1

/-- Between two states a ring took the bytes `took` at its end and gave the bytes `gave` from its front (R105). -/
def RingState.Moves (rs rs' : RingState) (took gave : List Byte) : Prop :=
  ∀ held, rs.Holds held → ∃ left, rs'.Holds left ∧ gave ++ left = held ++ took

theorem RingState.Moves.refl (rs : RingState) : rs.Moves rs [] [] :=
  fun held h => ⟨held, h, by simp⟩

/-- A ring that is as it was, and neither took nor gave a byte. -/
theorem RingState.Moves.of_eq {rs rs' : RingState} {took gave : List Byte} (hring : rs' = rs)
    (hempty : took = [] ∧ gave = []) : rs.Moves rs' took gave := by
  obtain ⟨rfl, rfl⟩ := hempty
  rw [hring]
  exact RingState.Moves.refl rs

/-- What moves over two stretches of a run is what moved over the first, and then over the second. -/
theorem RingState.Moves.trans {rs rs' rs'' : RingState} {took took' gave gave' : List Byte}
    (h : rs.Moves rs' took gave) (h' : rs'.Moves rs'' took' gave') :
    rs.Moves rs'' (took ++ took') (gave ++ gave') := by
  intro held hheld
  obtain ⟨mid, hmid, heq⟩ := h held hheld
  obtain ⟨left, hleft, heq'⟩ := h' mid hmid
  refine ⟨left, hleft, ?_⟩
  calc gave ++ gave' ++ left = gave ++ (gave' ++ left) := List.append_assoc ..
    _ = gave ++ mid ++ took' := by rw [heq', List.append_assoc]
    _ = held ++ (took ++ took') := by rw [heq, List.append_assoc]

/-- R101: a push takes its data where the ring accepts it. -/
theorem RingState.push_moves (s : State) (rs : RingState) (data : List Byte) :
    rs.Moves (rs.push (s.drawBetween rs.pTailSeen rs.tail) data).1
      (if (rs.push (s.drawBetween rs.pTailSeen rs.tail) data).2 then data else []) [] := by
  intro held h
  have hdraw := drawBetween_le s rs.pTailSeen rs.tail
  refine ⟨_, ⟨RingState.push_ordered data h.ordered hdraw, RingState.push_contents h.ordered hdraw h.contents⟩, ?_⟩
  split <;> simp

/-- R102: a pop gives the bytes it returns. -/
theorem RingState.pop_moves {s : State} {rs rs' : RingState} {max : Nat} {data : List Byte}
    (h : rs.pop (s.drawBetween rs.cHeadSeen rs.head) max = some (rs', data)) : rs.Moves rs' [] data := by
  intro held hheld
  have hdraw := drawBetween_le s rs.cHeadSeen rs.head
  obtain ⟨-, hdata, hrest⟩ := RingState.pop_contents hheld.ordered hdraw hheld.contents h
  refine ⟨_, ⟨RingState.pop_ordered hheld.ordered hdraw h, hrest⟩, ?_⟩
  rw [hdata, List.take_append_drop, List.append_nil]

/-- R102: a pop moves the tail past the bytes it returns. -/
theorem RingState.pop_tail_distance {rs rs' : RingState} {h : U64} {max : Nat} {data : List Byte}
    (hp : rs.pop h max = some (rs', data)) : (rs'.tail - rs.tail).toNat = data.length := by
  obtain ⟨-, hlen, rfl⟩ := RingState.pop_eq_some hp
  have hlt := rs.popCount_lt h max
  rw [hlen]
  simpa using distance_add (p := rs.tail) (y := rs.tail) (n := rs.popCount h max) (by simpa using hlt)

/-- R155: the bytes a pop returned are as many of the oldest bytes as the tail moved past. -/
theorem RingState.pop_moves_oldest {s : State} {rs rs' : RingState} {max : Nat} {data : List Byte}
    (h : rs.pop (s.drawBetween rs.cHeadSeen rs.head) max = some (rs', data)) :
    rs.Moves rs' [] ((rs.contents.getD []).take (rs'.tail - rs.tail).toNat) := by
  intro held hheld
  obtain ⟨left, hleft, heq⟩ := RingState.pop_moves h held hheld
  have hheld_eq : held = data ++ left := by simpa using heq.symm
  refine ⟨left, hleft, ?_⟩
  rw [RingState.pop_tail_distance h, hheld.contents, hheld_eq]
  simp

/-! ## The pop -/

/-- R205: `RING_POP` is allowed on its ring's consumer port. -/
@[simp] theorem portAllowed_ringPop_consumer (r : RingId) (max : U64) :
    portAllowed (.ringPop r max) (Port.consumer r) = true := by
  cases r <;> rfl

/-- R102: `RING_POP` on the consumer port of a valid ring whose pop answers. -/
theorem exec_ringPop_of_pop {s : State} {r : RingId} {max : U64} {ring : RingState} {data : List Byte}
    (hport : s.issuer = Port.consumer r) (hvalid : (s.ring r).valid = true)
    (hpop : (s.ring r).pop (s.drawBetween (s.ring r).cHeadSeen (s.ring r).head) max.toNat = some (ring, data)) :
    exec (.ringPop r max) s = .next ((s.afterDraw.setRing r ring).finish [.bytes data]) := by
  simp [exec, execRingPop, onPort, hport, hvalid, hpop]

/-- Settles O34: under the invariant the pop answers, and its count is the statement's `n`. -/
theorem ringPopDelivers : Obligations.RingPopDelivers := by
  unfold Obligations.RingPopDelivers
  rintro s r max _ _ held hport hvalid hinv hheld rfl rfl
  have hdraw := drawBetween_le s (s.ring r).cHeadSeen (s.ring r).head
  obtain ⟨ring, data, hpop⟩ := RingState.pop_isSome max.toNat hinv.ordered hdraw hheld
  obtain ⟨hcount, rfl, -⟩ := RingState.pop_contents hinv.ordered hdraw hheld hpop
  obtain ⟨-, -, rfl⟩ := RingState.pop_eq_some hpop
  refine ⟨hcount, _, exec_ringPop_of_pop hport hvalid hpop, ?_⟩
  simp [RingState.popCount, keepsUnits, oneDraw, returns, hvalid]

/-! ## What a step moves through a ring -/

/-- R3, R72, R211: the effect of a command leaves the events still to come, and every ring the command does not name. -/
theorem Effect.frame {i : Instr} {s t : State} (h : Effect i s t) :
    t.inbox = s.inbox ∧ ∀ r, i.ring? ≠ some r → t.ring r = s.ring r := by
  have other : ∀ {q r : RingId}, some q ≠ some r →
      ∀ (x : State) (ring : RingState), (x.setRing q ring).ring r = x.ring r :=
    fun hne x ring => setRing_ring_other x ring fun e => hne (congrArg some e.symm)
  cases i with
  | nop | statusClear =>
    obtain rfl := h
    simp
  | regRead =>
    obtain ⟨-, -, -, -, rfl⟩ := h
    simp
  | ringInit =>
    obtain ⟨-, rfl⟩ := h
    exact ⟨by simp, fun r hr => by simp [other hr]⟩
  | ringPush =>
    obtain ⟨-, -, -, -, -, rfl⟩ := h
    exact ⟨by simp, fun r hr => by simp [other hr]⟩
  | ringPop =>
    obtain ⟨-, -, -, -, -, -, rfl⟩ := h
    exact ⟨by simp, fun r hr => by simp [other hr]⟩
  | audioPull =>
    obtain ⟨-, -, -, -, -, -, -, -, -, -, -, -, rfl⟩ := h
    exact ⟨by simp, fun r hr => by simp [other hr]⟩
  | demodInit =>
    obtain ⟨-, -, -, rfl⟩ := h
    simp
  | demodProcess =>
    obtain ⟨-, -, -, -, rfl⟩ := h
    simp
  | specInit =>
    obtain ⟨-, rfl⟩ := h
    simp
  | specWindow | specMagdb =>
    obtain ⟨-, -, rfl⟩ := h
    simp

/-- R3, R72, R211: a command leaves the events still to come, and every ring it does not name. -/
theorem exec_frame {i : Instr} {s t : State} (h : exec i s = .next t) :
    t.inbox = s.inbox ∧ ∀ r, i.ring? ≠ some r → t.ring r = s.ring r := by
  rcases exec_next h with ⟨_, -, -, rfl⟩ | ⟨-, heffect⟩
  · simp
  · exact heffect.frame

/-- The command that stands first among the pending events. -/
def State.pending? (s : State) : Option Instr := s.inbox.head?.bind Event.instr?

/-- A step whose event presents no command naming ring `r` takes no byte into it and gives none. -/
theorem stream_empty {r : RingId} {s : State} (t : State) (h : ∀ i, s.pending? = some i → i.ring? ≠ some r) :
    bytesAccepted r s t = [] ∧ bytesDelivered r s t = [] := by
  unfold State.pending? at h
  unfold bytesAccepted bytesDelivered
  constructor
  · split
    next q data heq =>
      exact if_neg fun hq => h _ heq (congrArg some hq.1)
    next => rfl
  · split
    next q max heq => exact if_neg fun hq => h _ heq (congrArg some hq)
    next q frames heq => exact if_neg fun hq => h _ heq (congrArg some hq)
    next => rfl

/-- R100: constructing a ring anew neither takes nor gives a byte. -/
theorem stream_ringInit {r : RingId} {s : State} {capacity : U64} (t : State)
    (h : s.pending? = some (.ringInit r capacity)) : bytesAccepted r s t = [] ∧ bytesDelivered r s t = [] := by
  unfold State.pending? at h
  simp [bytesAccepted, bytesDelivered, h]

/-- R101: a push takes its data where it returned `ok = 1`. -/
theorem stream_ringPush {r : RingId} {s : State} {data : List Byte} (t : State)
    (h : s.pending? = some (.ringPush r data)) :
    bytesAccepted r s t = (if t.lastResult = [.bool true] then data else []) ∧ bytesDelivered r s t = [] := by
  unfold State.pending? at h
  simp [bytesAccepted, bytesDelivered, h]

/-- R102: a pop gives the bytes it returned. -/
theorem stream_ringPop {r : RingId} {s t : State} {max : U64} {data : List Byte}
    (h : s.pending? = some (.ringPop r max)) (hresult : t.lastResult = [.bytes data]) :
    bytesAccepted r s t = [] ∧ bytesDelivered r s t = data := by
  unfold State.pending? at h
  simp [bytesAccepted, bytesDelivered, h, hresult]

/-- R155: a pull gives the demodulator as many of the oldest bytes as the tail moved past. -/
theorem stream_audioPull {r : RingId} {s : State} {frames : U32} (t : State)
    (h : s.pending? = some (.audioPull r frames)) :
    bytesAccepted r s t = [] ∧ bytesDelivered r s t
      = ((s.ring r).contents.getD []).take ((t.ring r).tail - (s.ring r).tail).toNat := by
  unfold State.pending? at h
  simp [bytesAccepted, bytesDelivered, h]

/-- R201: a command that leaves ring `r` and returns its failure result takes no byte and gives none. -/
theorem stream_of_failResult {i : Instr} {s t : State} {r : RingId} (hi : s.pending? = some i)
    (hring : t.ring r = s.ring r) (hresult : t.lastResult = failResult i.opcode) :
    bytesAccepted r s t = [] ∧ bytesDelivered r s t = [] := by
  by_cases hr : i.ring? = some r
  case neg => exact stream_empty t (by simpa [hi] using hr)
  cases i with
  | ringInit =>
    obtain rfl := Option.some.inj hr
    exact stream_ringInit t hi
  | ringPush =>
    obtain rfl := Option.some.inj hr
    simp [stream_ringPush t hi, hresult, Instr.opcode, failResult]
  | ringPop =>
    obtain rfl := Option.some.inj hr
    exact stream_ringPop hi hresult
  | audioPull =>
    obtain rfl := Option.some.inj hr
    simp [stream_audioPull t hi, hring]
  | nop | regRead | statusClear | demodInit | demodProcess | specInit | specWindow | specMagdb => cases hr

/-- R101, R102, R155: a command that had its effect moved what it took and what it gave. -/
theorem Effect.moves {i : Instr} {s t : State} {port : Port} {rest : List Event} {r : RingId}
    (h : Effect i (s.accept port rest) t) (hi : s.pending? = some i) (hinit : ∀ capacity, i ≠ .ringInit r capacity) :
    (s.ring r).Moves (t.ring r) (bytesAccepted r s t) (bytesDelivered r s t) := by
  by_cases hr : i.ring? = some r
  case neg =>
    obtain ⟨-, hrings⟩ := h.frame
    exact .of_eq (by simpa using hrings r hr) (stream_empty t (by simpa [hi] using hr))
  cases i with
  | ringInit q capacity => exact absurd (congrArg (Instr.ringInit · capacity) (Option.some.inj hr)) (hinit capacity)
  | ringPush q data =>
    obtain rfl := Option.some.inj hr
    obtain ⟨-, _, _, rfl, rfl, rfl⟩ := h
    obtain ⟨htook, hgave⟩ := stream_ringPush _ hi
    rw [htook, hgave]
    simpa using RingState.push_moves s (s.ring q) data
  | ringPop q max =>
    obtain rfl := Option.some.inj hr
    obtain ⟨-, _, ring, data, rfl, hpop, rfl⟩ := h
    obtain ⟨htook, hgave⟩ := stream_ringPop hi (finish_lastResult ..)
    rw [htook, hgave]
    simpa using RingState.pop_moves hpop
  | audioPull q frames =>
    obtain rfl := Option.some.inj hr
    obtain ⟨-, -, -, _, ring, _, _, _, rfl, hpop, -, -, rfl⟩ := h
    obtain ⟨htook, hgave⟩ := stream_audioPull _ hi
    rw [htook, hgave]
    simpa using RingState.pop_moves_oldest hpop
  | nop | regRead | statusClear | demodInit | demodProcess | specInit | specWindow | specMagdb => cases hr

/-! ## Steps and runs -/

/-- R211: a step brings no event. -/
theorem step_inbox_subset {s t : State} (h : step s = .next t) : t.inbox ⊆ s.inbox := by
  rcases step_next h with ⟨-, rfl⟩ | ⟨rest, hinbox, rfl⟩ | ⟨port, w, p, rest, hinbox, hrun⟩
  · exact fun _ he => he
  · simp [hinbox]
  · have hrest : t.inbox = rest := by
      rcases runCommand_next hrun with ⟨i, -, hexec⟩ | ⟨-, rfl⟩
      · exact (exec_frame hexec).1
      · rfl
    rw [hrest, hinbox]
    exact List.subset_cons_self _ _

/-- R105: a step whose event leaves ring `r` moves through it exactly the bytes it took and gave. -/
theorem step_moves {r : RingId} {s t : State} (hleaves : ∀ e ∈ s.inbox, e.leavesRing r) (h : step s = .next t) :
    (s.ring r).Moves (t.ring r) (bytesAccepted r s t) (bytesDelivered r s t) := by
  rcases step_next h with ⟨hinbox, rfl⟩ | ⟨rest, hinbox, -⟩ | ⟨port, w, p, rest, hinbox, hrun⟩
  · exact .of_eq rfl (stream_empty _ (by simp [State.pending?, hinbox]))
  · obtain ⟨hreset, -⟩ := hleaves .reset (by simp [hinbox])
    exact absurd rfl hreset
  · rcases runCommand_next hrun with ⟨i, hdecode, hexec⟩ | ⟨⟨e, hdecode, -⟩, rfl⟩
    · have hevent : (Event.command port w p).instr? = some i := by simp [Event.instr?, hdecode]
      have hpending : s.pending? = some i := by simpa [State.pending?, hinbox] using hevent
      rcases exec_next hexec with ⟨c, -, -, rfl⟩ | ⟨-, heffect⟩
      · have hring : ((s.accept port rest).failed c i.opcode).ring r = s.ring r := by simp
        exact .of_eq hring (stream_of_failResult hpending hring (failed_lastResult ..))
      · obtain ⟨-, hinit⟩ := hleaves (.command port w p) (by simp [hinbox])
        exact heffect.moves hpending fun capacity hi => hinit capacity (hevent.trans (congrArg some hi))
    · exact .of_eq (by simp) (stream_empty _ (by simp [State.pending?, hinbox, Event.instr?, hdecode]))

/-- R105: a run whose events leave ring `r` moves through it what its steps took and gave, in their order. -/
theorem streamRun_moves {r : RingId} {n : Nat} {s u : State} {took gave : List Byte}
    (hleaves : ∀ e ∈ s.inbox, e.leavesRing r) (h : streamRun r n s = some (u, took, gave)) :
    (s.ring r).Moves (u.ring r) took gave := by
  induction n generalizing s took gave with
  | zero =>
    cases h
    exact RingState.Moves.refl _
  | succ n ih =>
    unfold streamRun at h
    split at h
    next t hstep =>
      obtain ⟨⟨_, took', gave'⟩, hrun, heq⟩ := Option.map_eq_some_iff.mp h
      cases heq
      exact (step_moves hleaves hstep).trans (ih (fun e he => hleaves e (step_inbox_subset hstep he)) hrun)
    all_goals cases h

/-- Settles O36. What the run moved is the stream equality; a drained ring holds no byte. -/
theorem ringStreamEquality : Obligations.RingStreamEquality := by
  unfold Obligations.RingStreamEquality
  intro r n s u held accepted delivered _ hinv hleaves hheld hrun
  obtain ⟨left, hleft, heq⟩ := streamRun_moves hleaves hrun held ⟨(hinv.ring r).ordered, hheld⟩
  refine ⟨⟨left, hleft.contents, heq⟩, fun hempty => ?_⟩
  subst hempty
  have hsplit : delivered ++ left = accepted := heq
  refine ⟨⟨left, hsplit⟩, fun hdrained => ?_⟩
  have hnone : left = [] := List.length_eq_zero_iff.mp (by rw [hleft.length_eq, hdrained]; rfl)
  rw [← hsplit, hnone, List.append_nil]

end Sys2Proof.Machine
end

section
/-! The demodulator's commands on their port (spec/41_demod.md R135 to R150, R155, R157): what a payload returns and
leaves behind, stage by stage for one pair, and how many samples a pull returns. -/

namespace Sys2Proof.Machine

/-! ## `DEMOD_PROCESS` -/

/-- R202: a warning sets its bit exactly where it applies. -/
theorem warnWhen_decide (applies : Prop) [Decidable applies] (c : Condition) (status : U32) :
    warnWhen (decide applies) c status = if applies then status ||| conditionMask c else status := by
  simp [warnWhen, setCondition]

/-- R205: `DEMOD_PROCESS` is allowed on `CONS0`. -/
@[simp] theorem portAllowed_demodProcess_cons0 (iq : List Byte) : portAllowed (.demodProcess iq) .cons0 = true := rfl

/-- R135: `DEMOD_PROCESS` on its port, with a valid demodulator. -/
theorem exec_demodProcess {s : State} (iq : List Byte) (hport : s.issuer = .cons0) (hvalid : s.dm.valid = true) :
    exec (.demodProcess iq) s
      = .next (((s.setDm (demodBytes s.params s.dm iq).1).warn (iq.length % 2 == 1) .oddDrop).finish
          [.i16s (demodBytes s.params s.dm iq).2]) := by
  simp [exec, execDemodProcess, onPort, hport, hvalid]

/-- R135: a payload of whole pairs warns of nothing. -/
theorem exec_demodProcess_of_even {s : State} {iq : List Byte} (hport : s.issuer = .cons0) (hvalid : s.dm.valid = true)
    (heven : iq.length % 2 = 0) :
    exec (.demodProcess iq) s
      = .next ((s.setDm (demodBytes s.params s.dm iq).1).finish [.i16s (demodBytes s.params s.dm iq).2]) := by
  rw [exec_demodProcess iq hport hvalid, heven]
  rfl

/-- R30: equal configurations, field by field. -/
theorem DemodState.config_eq_iff {dm dm' : DemodState} :
    dm.config = dm'.config ↔ dm.valid = dm'.valid ∧ dm.sampleRate = dm'.sampleRate ∧ dm.audioRate = dm'.audioRate
      ∧ dm.D = dm'.D ∧ dm.alpha = dm'.alpha := by
  simp [DemodState.config]

/-- Settles O41. The count is that of the pairs (`demodBytes_count`), and no pair touches the configuration. -/
theorem demodProcessCount : Obligations.DemodProcessCount := by
  unfold Obligations.DemodProcessCount
  intro s iq hport hvalid hcounter
  obtain ⟨hsamples, hcount⟩ := demodBytes_count s.params s.dm iq hcounter
  obtain ⟨hv, hsr, har, hD, halpha⟩ := DemodState.config_eq_iff.mp (demodBytes_config s.params s.dm iq)
  exact ⟨_, _, exec_demodProcess iq hport hvalid, rfl, hsamples, hcount, hv.trans hvalid, hsr, har, hD, halpha,
    warnWhen_decide _ .oddDrop s.status, rfl, rfl, rfl, ⟨rfl, rfl, rfl⟩, rfl, rfl⟩

/-! ## One pair -/

/-- The demodulator after a pair has been counted, before its window may close (R145, R146). -/
def DemodState.counted (P : Params) (dm : DemodState) (i q : Byte) : DemodState :=
  { dm with
    prev := sampleOf P i q
    sum := f32Add P dm.sum (phaseStep P (sampleOf P i q) dm.prev)
    counter := dm.counter + 1#32 }

/-- R146: a pair that does not fill its window is counted and gives no sample. -/
theorem demodPair_of_ne {dm : DemodState} (P : Params) (i q : Byte) (h : dm.counter + 1#32 ≠ dm.D) :
    demodPair P dm i q = (dm.counted P i q, []) := by
  simp [demodPair, DemodState.counted, h]

/-- R147: the pair that fills its window is counted, closes the window and gives its sample. -/
theorem demodPair_of_eq {dm : DemodState} (P : Params) (i q : Byte) (h : dm.counter + 1#32 = dm.D) :
    demodPair P dm i q = ((closeWindow P (dm.counted P i q)).1, [(closeWindow P (dm.counted P i q)).2]) := by
  simp [demodPair, DemodState.counted, h]

/-- R135: a payload of one pair is that pair. -/
theorem demodBytes_pair (P : Params) (dm : DemodState) (i q : Byte) : demodBytes P dm [i, q] = demodPair P dm i q := by
  simp [demodBytes_cons]

/-- Settles O42. A pair is counted and, where it fills its window, closes it; a payload of no pair does neither. -/
theorem demodPairThroughStages : Obligations.DemodPairThroughStages := by
  unfold Obligations.DemodPairThroughStages
  intro s i q P a b c d re im phi sum avg y hP hport hvalid ha hb hc hd hre him hphi hsum havg hy
  have hcounted : s.dm.counted P i q
      = { s.dm with prev := ⟨a, b⟩, sum := sum, counter := s.dm.counter + 1#32 } := by
    rw [hsum, hphi, him, hre, hd, hc, hb, ha]
    rfl
  have hclosed : closeWindow P (s.dm.counted P i q)
      = ({ s.dm with prev := ⟨a, b⟩, sum := 0x00000000#32, counter := 0#32, yprev := y },
        quantise (f32Clamp (f32Mul P y P.gain) 0xC7000000#32 0x46FFFE00#32)) := by
    rw [hcounted, hy, havg]
    rfl
  have hpair := exec_demodProcess_of_even (iq := [i, q]) hport hvalid (by simp)
  rw [demodBytes_pair, ← hP] at hpair
  refine ⟨fun hfull => ?_, fun hopen => ?_, exec_demodProcess_of_even hport hvalid rfl,
    exec_demodProcess [i] hport hvalid⟩
  · rw [hpair, demodPair_of_eq _ _ _ hfull, hclosed]
    rfl
  · rw [hpair, demodPair_of_ne _ _ _ hopen, hcounted]
    rfl

/-! ## `AUDIO_PULL` -/

/-- R205: `AUDIO_PULL.0` is allowed on `CONS0`. -/
@[simp] theorem portAllowed_audioPull_cons0 (frames : U32) : portAllowed (.audioPull .r0 frames) .cons0 = true := rfl

/-- R155: `AUDIO_PULL.0` on its port, with both units valid and a demand that fits, where the pop answers and the padded
bytes give `frames` samples. -/
theorem exec_audioPull_of_pop {s : State} {frames : U32} {seen : U64} {ring : RingState} {got : List Byte}
    (hport : s.issuer = .cons0) (hring : s.ring0.valid = true) (hvalid : s.dm.valid = true)
    (hfits : bytesNeeded frames s.dm.D < 2 ^ 64) (hseen : seen = s.drawBetween s.ring0.cHeadSeen s.ring0.head)
    (hpop : s.ring0.pop seen (bytesNeeded frames s.dm.D) = some (ring, got))
    (hsamples : (demodBytes s.params s.dm (padded s.params (bytesNeeded frames s.dm.D) got)).2.length = frames.toNat) :
    exec (.audioPull .r0 frames) s
      = .next ((((s.afterDraw.setRing .r0 ring).setDm
            (demodBytes s.params s.dm (padded s.params (bytesNeeded frames s.dm.D) got)).1).warn
            (decide (got.length < bytesNeeded frames s.dm.D)) .underflow).finish
          [.i16s (demodBytes s.params s.dm (padded s.params (bytesNeeded frames s.dm.D) got)).2]) := by
  rw [hseen] at hpop
  simp only [exec, execAudioPull, onPort, hport, ring_r0, hring, hvalid, decide_eq_true hfits, hpop, hsamples,
    portAllowed_audioPull_cons0, Bool.and_self, beq_self_eq_true, require_true, succeed_eq]

/-- R102: under the invariant, a pop at a drawn head answers with the oldest bytes, as many as it counts. -/
theorem RingState.Inv.pop_eq {P : Params} {rs : RingState} {held : List Byte} (hinv : rs.Inv P)
    (hheld : rs.contents = some held) (s : State) {seen : U64} (hseen : seen = s.drawBetween rs.cHeadSeen rs.head)
    (max : Nat) :
    rs.pop seen max
        = some ({ rs with cHeadSeen := seen, tail := rs.tail + BitVec.ofNat 64 (rs.popCount seen max) },
          held.take (rs.popCount seen max))
      ∧ (held.take (rs.popCount seen max)).length = rs.popCount seen max := by
  have hdraw := hseen ▸ drawBetween_le s rs.cHeadSeen rs.head
  obtain ⟨ring, got, hpop⟩ := RingState.pop_isSome max hinv.ordered hdraw hheld
  obtain ⟨-, rfl, -⟩ := RingState.pop_contents hinv.ordered hdraw hheld hpop
  obtain ⟨-, hlength, rfl⟩ := RingState.pop_eq_some hpop
  exact ⟨hpop, hlength⟩

/-- R157: as many bytes as `frames` samples need give `frames` samples, and leave the counter where it was. -/
theorem demodBytes_of_bytesNeeded (P : Params) {dm : DemodState} {frames : U32} {bytes : List Byte}
    (hcounter : dm.counter.toNat < dm.D.toNat) (hlength : bytes.length = bytesNeeded frames dm.D) :
    (demodBytes P dm bytes).2.length = frames.toNat ∧ (demodBytes P dm bytes).1.counter = dm.counter := by
  have hpairs : bytes.length / 2 = frames.toNat * dm.D.toNat := by
    rw [hlength, bytesNeeded, Nat.mul_div_cancel _ (by decide)]
  obtain ⟨hsamples, hcount⟩ := demodBytes_count P dm bytes hcounter
  rw [hpairs, Nat.add_mul_div_right _ _ (by omega), Nat.div_eq_of_lt hcounter, Nat.zero_add] at hsamples
  rw [hpairs, Nat.add_mul_mod_self_right, Nat.mod_eq_of_lt hcounter] at hcount
  exact ⟨hsamples, BitVec.eq_of_toNat_eq hcount⟩

/-- Settles O51: under the ring's invariant the pop answers with the oldest bytes it observes, and the padded bytes are
as many as `frames` samples need. -/
theorem audioPullReturnsFrames : Obligations.AudioPullReturnsFrames := by
  unfold Obligations.AudioPullReturnsFrames
  intro s frames need n seen held got bytes hport hring hvalid hinv hcounter hneed hfits hheld hseen hn hgot hbytes
  obtain rfl : need = bytesNeeded frames s.dm.D := hneed
  obtain rfl : n = s.ring0.popCount seen (bytesNeeded frames s.dm.D) := hn
  obtain ⟨hpop, hlength⟩ := hinv.pop_eq hheld s hseen (bytesNeeded frames s.dm.D)
  rw [← hgot] at hpop hlength
  rw [← hlength] at hpop ⊢
  obtain rfl : bytes = padded s.params (bytesNeeded frames s.dm.D) got := by rw [hbytes, padded, hlength]
  have hpadded := padded_length s.params (bytesNeeded frames s.dm.D) got (hlength ▸ s.ring0.popCount_le _ _)
  have heven : (padded s.params (bytesNeeded frames s.dm.D) got).length % 2 = 0 := by
    rw [hpadded, bytesNeeded, Nat.mul_mod_left]
  obtain ⟨hsamples, hcount⟩ := demodBytes_of_bytesNeeded s.params hcounter hpadded
  exact ⟨_, _, _, exec_audioPull_of_pop hport hring hvalid hfits hseen hpop hsamples, rfl, hsamples,
    exec_demodProcess_of_even hport hvalid heven, rfl, rfl, hcount, rfl, warnWhen_decide _ .underflow s.status,
    rfl, rfl, ⟨rfl, rfl, rfl⟩, rfl, rfl⟩

end Sys2Proof.Machine
end

section
/-! The byte conversion (spec/41_demod.md R140, R142): roundings in which nothing is lost or only the sign changes, and
the exact quotient that `conv` rounds. -/

namespace Sys2Proof.Machine

/-! ## Rounding -/

/-- R11: the rounding of a quotient depends on the quotient only. -/
theorem roundMag_congr (f : Format) (hp : 0 < f.prec) {a b c d : Nat} (hb : 0 < b) (hd : 0 < d) (h : a * d = c * b) :
    roundMag f a b = roundMag f c d :=
  Nat.le_antisymm (roundMag_mono f hp hb hd h.le) (roundMag_mono f hp hd hb h.ge)

/-- R11: a magnitude of at most `prec` significant bits is its own rounding. -/
theorem exactOf_roundMag_of_eq (f : Format) (hp : 0 < f.prec) {num den sig e : Nat} (hden : 0 < den)
    (hsig : sig < 2 ^ f.prec) (heq : num * 2 ^ f.unit = sig * 2 ^ e * den) (hlt : roundMag f num den < infBits f) :
    exactOf f (roundMag f num den) = .fin false (sig * 2 ^ e) (2 ^ f.unit) := by
  have hshift : roundShift f num den ≤ e := by
    rcases Nat.eq_zero_or_pos (roundShift f num den) with hzero | hpos
    · omega
    · obtain ⟨-, hlow⟩ := quotient_range f hp num den
      have hpow : 2 ^ (f.prec - 1 + roundShift f num den) < 2 ^ (f.prec + e) :=
        calc 2 ^ (f.prec - 1 + roundShift f num den) ≤ num * 2 ^ f.unit / den := hlow hpos
          _ = sig * 2 ^ e := by rw [heq, Nat.mul_div_cancel _ hden]
          _ < 2 ^ f.prec * 2 ^ e := Nat.mul_lt_mul_of_pos_right hsig (Nat.two_pow_pos e)
          _ = 2 ^ (f.prec + e) := (Nat.pow_add ..).symm
      have := (Nat.pow_lt_pow_iff_right Nat.one_lt_two).mp hpow
      omega
  have hscaled : num * 2 ^ f.unit
      = sig * 2 ^ (e - roundShift f num den) * (den * 2 ^ roundShift f num den) := by
    rw [heq, ← Nat.sub_add_cancel hshift, Nat.pow_add, Nat.add_sub_cancel]
    ring
  rw [exactOf_roundMag f hp hlt, roundSig, hscaled, roundHalfEven_mul _ (Nat.mul_pos hden (Nat.two_pow_pos _)),
    Nat.mul_assoc, ← Nat.pow_add, Nat.sub_add_cancel hshift]

/-- R11: a binary32 result of at most 24 significant bits, and of magnitude at most `2^24`, is exact. -/
theorem val32_fl32_of_eq (nan : F32) (s : Bool) {num den sig e : Nat} (hden : 0 < den) (hsig : sig < 2 ^ 24)
    (heq : num * 2 ^ 149 = sig * 2 ^ e * den) (hle : num ≤ 2 ^ 24 * den) :
    val32 (fl32 nan (.fin s num den)) = .fin s (sig * 2 ^ e) (2 ^ 149) := by
  have hlt : roundMag binary32 num den < infBits binary32 :=
    lt_of_le_of_lt (roundMag_mono binary32 (by decide) hden Nat.one_pos (by simpa using hle))
      (by decide +kernel : roundMag binary32 (2 ^ 24) 1 < infBits binary32)
  have hexact := exactOf_roundMag_of_eq binary32 (by decide) hden hsig heq hlt
  obtain ⟨k, hlo, hhi, hval⟩ := val32_between nan s hden hden hden le_rfl le_rfl hlt hexact hexact
  rw [hval, Nat.le_antisymm hhi hlo]
  rfl

/-- R11: whole numbers below `2^24` are binary32 values. -/
theorem val32_f32OfNat {n : Nat} (h : n < 2 ^ 24) : val32 (f32OfNat n) = .fin false (n * 2 ^ 149) (2 ^ 149) := by
  have hfl : f32OfNat n = fl32 0#32 (.fin false n 1) := by rw [fl32, fl_fin_false, f32OfNat]
  rw [hfl]
  exact val32_fl32_of_eq _ _ Nat.one_pos h (Nat.mul_one _).symm (by omega)

theorem f32Neg_f32Neg (x : F32) : f32Neg (f32Neg x) = x := by
  rw [f32Neg, f32Neg, BitVec.xor_assoc, BitVec.xor_self, BitVec.xor_zero]

/-- R11: values of equal magnitude and opposite sign round to encodings that differ in the sign bit. -/
theorem fl32_not (nan : F32) (s : Bool) (num den : Nat) :
    fl32 nan (.fin (!s) num den) = f32Neg (fl32 nan (.fin s num den)) := by
  have hnegative : fl32 nan (.fin true num den) = f32Neg (fl32 nan (.fin false num den)) := by
    have hlt : roundMag binary32 num den < 2 ^ 31 :=
      lt_of_le_of_lt (roundMag_le binary32 num den) (infBits_lt binary32 (by decide))
    apply BitVec.eq_of_toNat_eq
    rw [f32Neg, BitVec.toNat_xor, fl32, fl32, fl_fin_false, BitVec.toNat_ofNat, BitVec.toNat_ofNat,
      Nat.mod_eq_of_lt (a := roundMag binary32 num den) (by omega)]
    refine Eq.trans ?_ (xor_two_pow_of_lt hlt).symm
    exact Nat.mod_eq_of_lt (a := 2 ^ 31 + roundMag binary32 num den) (by omega)
  cases s with
  | false => exact hnegative
  | true => rw [hnegative, f32Neg_f32Neg, Bool.not_true]

/-- The difference of two magnitudes in a common unit. -/
theorem exactAdd_exactNeg_of_ne {m n d : Nat} (hd : 0 < d) (h : m ≠ n) :
    exactAdd (.fin false m d) (exactNeg (.fin false n d)) = .fin (decide (m < n)) ((m - n + (n - m)) * d) (d * d) := by
  rcases Nat.lt_or_gt_of_ne h with hlt | hgt
  · have hscaled : m * d < n * d := Nat.mul_lt_mul_of_pos_right hlt hd
    simp [exactAdd, exactNeg, hlt, hscaled, Nat.lt_asymm hscaled, Nat.sub_eq_zero_of_le hlt.le, Nat.sub_mul]
  · have hscaled : n * d < m * d := Nat.mul_lt_mul_of_pos_right hgt hd
    simp [exactAdd, exactNeg, Nat.lt_asymm hgt, hscaled, Nat.sub_eq_zero_of_le hgt.le, Nat.sub_mul]

/-! ## The conversion -/

/-- The distance of a byte from the middle of its range, 127.5, in halves. -/
def halvesFromMiddle (u : Byte) : Nat := Int.natAbs (2 * u.toNat - 255)

/-- R142: no byte is the middle. -/
theorem halvesFromMiddle_range (u : Byte) : 1 ≤ halvesFromMiddle u ∧ halvesFromMiddle u ≤ 255 := by
  have := u.isLt
  unfold halvesFromMiddle
  omega

/-- R142: a byte and its mirror image lie at the same distance from the middle, on either side of it. -/
theorem mirror_byte (u : Byte) :
    halvesFromMiddle (255#8 - u) = halvesFromMiddle u
      ∧ decide ((255#8 - u).toNat < 128) = !decide (u.toNat < 128) := by
  have hmirror : (255#8 - u).toNat = 255 - u.toNat := by bv_omega
  have hu := u.isLt
  constructor
  · unfold halvesFromMiddle
    omega
  · rw [hmirror, ← decide_not, decide_eq_decide]
    omega

/-- 127.5 in smallest units. -/
theorem val32_sourceIq : val32 Params.sourceIq = .fin false (255 * 2 ^ 148) (2 ^ 149) := by decide +kernel

/-- R140: the subtraction is exact. -/
theorem val32_f32Sub_sourceIq (P : Params) (u : Byte) :
    val32 (f32Sub P (f32OfNat u.toNat) Params.sourceIq)
      = .fin (decide (u.toNat < 128)) (halvesFromMiddle u * 2 ^ 148) (2 ^ 149) := by
  have hu := u.isLt
  have hside : decide (u.toNat * 2 ^ 149 < 255 * 2 ^ 148) = decide (u.toNat < 128) := by
    rw [decide_eq_decide]
    omega
  have hdistance : u.toNat * 2 ^ 149 - 255 * 2 ^ 148 + (255 * 2 ^ 148 - u.toNat * 2 ^ 149)
      = halvesFromMiddle u * 2 ^ 148 := by
    unfold halvesFromMiddle
    omega
  obtain ⟨-, hmax⟩ := halvesFromMiddle_range u
  rw [f32Sub, val32_f32OfNat (by omega), val32_sourceIq, exactAdd_exactNeg_of_ne (Nat.two_pow_pos 149) (by omega),
    hside, hdistance]
  exact val32_fl32_of_eq _ _ (by decide) (by omega) (Nat.mul_assoc ..)
    (by rw [← Nat.mul_assoc]; exact Nat.mul_le_mul_right _ (by omega))

/-- R8: the offset and the scale among the source's literals. -/
theorem iq_of_sourceLiterals {P : Params} (h : P.sourceLiterals = true) :
    P.iqOffset = Params.sourceIq ∧ P.iqScale = Params.sourceIq := by
  simp only [Params.sourceLiterals, Bool.and_eq_true, beq_iff_eq] at h
  obtain ⟨⟨⟨hiq, -⟩, -⟩, -⟩ := h
  exact hiq

/-- R140: `conv(u)` is `(2u − 255) / 255`, rounded once. -/
theorem conv_eq {P : Params} (h : P.sourceLiterals = true) (u : Byte) :
    conv P u = fl32 0#32 (.fin (decide (u.toNat < 128)) (halvesFromMiddle u) 255) := by
  obtain ⟨hoffset, hscale⟩ := iq_of_sourceLiterals h
  have hquotient : exactDiv (val32 (f32Sub P (f32OfNat u.toNat) Params.sourceIq)) (val32 Params.sourceIq)
      = .fin (decide (u.toNat < 128)) (halvesFromMiddle u * 2 ^ 148 * 2 ^ 149) (2 ^ 149 * (255 * 2 ^ 148)) := by
    rw [val32_f32Sub_sourceIq, val32_sourceIq]
    simp [exactDiv]
  have hround := roundMag_congr binary32 (by decide) (a := halvesFromMiddle u * 2 ^ 148 * 2 ^ 149)
    (b := 2 ^ 149 * (255 * 2 ^ 148)) (c := halvesFromMiddle u) (d := 255) (by decide) (by decide) (by ring)
  rw [conv, f32Div, hoffset, hscale, hquotient, fl32_congr _ 0#32 (by simp), fl32, fl32, fl, fl, hround]

/-- R142: `conv(u)` is a number of magnitude from `2^-8` to 1, negative for the lower half of the bytes. -/
theorem val32_conv {P : Params} (h : P.sourceLiterals = true) (u : Byte) :
    ∃ k, 2 ^ 141 ≤ k ∧ k ≤ 2 ^ 149 ∧ val32 (conv P u) = .fin (decide (u.toNat < 128)) k (2 ^ 149) := by
  obtain ⟨hmin, hmax⟩ := halvesFromMiddle_range u
  rw [conv_eq h]
  exact val32_between 0#32 _ (a := 1) (b := 256) (c := 1) (d := 1) (by decide) (by decide) (by decide) (by omega)
    (by omega) (by decide +kernel) (by decide +kernel) (by decide +kernel)

/-- R142: with the source's literals the conversion is odd about the middle of the bytes. -/
theorem conv_mirror {P : Params} (h : P.sourceLiterals = true) (u : Byte) : conv P (255#8 - u) = f32Neg (conv P u) := by
  obtain ⟨hdistance, hside⟩ := mirror_byte u
  rw [conv_eq h, conv_eq h, hdistance, hside, fl32_not]

/-- A zero has the value zero. -/
theorem val32_of_isZero {x : F32} (h : f32IsZero x = true) : ∃ s, val32 x = .fin s 0 (2 ^ 149) := by
  simp only [f32IsZero, Bool.or_eq_true, beq_iff_eq] at h
  rcases h with rfl | rfl
  · exact ⟨false, by decide +kernel⟩
  · exact ⟨true, by decide +kernel⟩

/-- R142: no byte converts to a zero. -/
theorem conv_ne_zero {P : Params} (h : P.sourceLiterals = true) (u : Byte) : f32IsZero (conv P u) = false := by
  obtain ⟨k, hk, -, hval⟩ := val32_conv h u
  rw [Bool.eq_false_iff]
  intro hzero
  obtain ⟨s, hval'⟩ := val32_of_isZero hzero
  rw [hval, Exact.fin.injEq] at hval'
  omega

/-- A magnitude of at most 1 lies in `[−1, 1]`. -/
theorem f32Lt_one_eq_false_of_le {x : F32} {s : Bool} {k : Nat} (hval : val32 x = .fin s k (2 ^ 149))
    (hk : k ≤ 2 ^ 149) :
    f32Lt x 0xBF800000#32 = false ∧ f32Lt 0x3F800000#32 x = false := by
  have hone : val32 0x3F800000#32 = .fin false (2 ^ 149) (2 ^ 149) := by decide +kernel
  have hminus : val32 0xBF800000#32 = .fin true (2 ^ 149) (2 ^ 149) := by decide +kernel
  have hscaled : k * 2 ^ 149 ≤ 2 ^ 149 * 2 ^ 149 := Nat.mul_le_mul_right _ hk
  unfold f32Lt
  rw [hval, hone, hminus]
  cases s <;> simpa [exactLt] using hscaled

/-- Settles O46: the conversion rounds a quotient between `1/255` and 1 in magnitude, of the sign of `u − 127.5`. -/
theorem convNeverZero : Obligations.ConvNeverZero := by
  unfold Obligations.ConvNeverZero
  intro P u h
  obtain ⟨k, -, hk, hval⟩ := val32_conv h u
  obtain ⟨hlower, hupper⟩ := f32Lt_one_eq_false_of_le hval hk
  have hfinite : f32IsFinite (conv P u) = true := by rw [f32IsFinite, hval]
  exact ⟨conv_ne_zero h u, conv_mirror h u, hlower, hupper, hfinite, fun _ => conv_ne_zero h u, by decide⟩

end Sys2Proof.Machine
end

section
/-! `SPEC_MAGDB` on its port (spec/42_spectrum.md R176, R178, R180): what it returns, and which bin stands at each
place. -/

namespace Sys2Proof.Machine

/-- R178: a bin of the frame whose place is `i − N div 2`, or that index counted from the end, is the one that element
`i` shows. -/
theorem displayBin_eq_of_displayIndex {N i j : Nat} (hi : i < N) (hj : j < N)
    (hplace : (j : Int) = displayIndex N i ∨ (j : Int) = displayIndex N i + N) : displayBin N i = j := by
  unfold displayIndex at hplace
  unfold displayBin
  rcases hplace with hup | hend
  · rw [show i + N - N / 2 = j + N by omega, Nat.add_mod_right, Nat.mod_eq_of_lt hj]
  · rw [show i + N - N / 2 = j by omega, Nat.mod_eq_of_lt hj]

/-- R176: a frame of `N` elements has `N` magnitudes. -/
@[simp] theorem magnitudes_length (P : Params) (N : Nat) (bins : List CF32) : (magnitudes P N bins).length = N := by
  simp [magnitudes]

/-- R205: `SPEC_MAGDB` is allowed on `CONS1`. -/
@[simp] theorem portAllowed_specMagdb_cons1 (bins : List CF32) : portAllowed (.specMagdb bins) .cons1 = true := rfl

/-- R176, R180: `SPEC_MAGDB` of a whole frame, on its port and with a valid unit, returns the magnitudes and does
nothing else. -/
theorem exec_specMagdb {s : State} {bins : List CF32} (hport : s.issuer = .cons1) (hvalid : s.sp.valid = true)
    (hlength : bins.length = s.sp.N.toNat) :
    exec (.specMagdb bins) s = .next (s.finish [.f32s (magnitudes s.params s.sp.N.toNat bins)]) := by
  simp [exec, execSpecMagdb, onPort, hport, hvalid, hlength]

/-- Settles O57. A place at or past the end of the frame holds no bin; any other is the one the element shows. -/
theorem specMagdbInDisplayOrder : Obligations.SpecMagdbInDisplayOrder := by
  unfold Obligations.SpecMagdbInDisplayOrder
  intro s bins hport hvalid hlength
  refine ⟨_, exec_specMagdb hport hvalid hlength, magnitudes_length _ _ _, fun i j hi hplace x hx => ?_⟩
  obtain ⟨hj, -⟩ := List.getElem?_eq_some_iff.mp hx
  have hbin : displayBin s.sp.N.toNat i = j := displayBin_eq_of_displayIndex hi (hlength ▸ hj) hplace
  rw [magnitudes_getElem? _ _ hi, hbin, List.getD_eq_getElem?_getD, hx, Option.getD_some]

end Sys2Proof.Machine
end

section
/-! Refusals and sticky bits (spec/60_exceptions.md R203, R205, R206): the port table row by row, the port check as the
first thing a command does, and the `STATUS` bits that a command and a step keep. -/

namespace Sys2Proof.Machine

/-! ## The port table -/

/-- R205: the ports a command may be issued on are those of its row. -/
theorem portAllowed_iff_mem {i : Instr} {p : Port} : portAllowed i p = true ↔ p ∈ allowedPorts i :=
  List.contains_iff_mem

/-- R205: a row with one Y allows that port alone. -/
theorem portAllowed_iff_eq {i : Instr} {p q : Port} (hrow : allowedPorts i = [q]) :
    portAllowed i p = true ↔ p = q := by
  rw [portAllowed_iff_mem, hrow, List.mem_singleton]

/-- R205: `RING_PUSH` is the producer's. -/
theorem allowedPorts_ringPush (r : RingId) (data : List Byte) :
    allowedPorts (.ringPush r data) = [Port.producer r] := by
  cases r <;> rfl

/-- R205: `RING_POP` is the consumer's. -/
theorem allowedPorts_ringPop (r : RingId) (max : U64) : allowedPorts (.ringPop r max) = [Port.consumer r] := by
  cases r <;> rfl

/-- R205: `NOP` is allowed on every port. -/
@[simp] theorem portAllowed_nop (p : Port) : portAllowed .nop p = true := by
  cases p <;> rfl

/-- R205: `AUDIO_PULL.0` is allowed on `CONS0`, and `AUDIO_PULL.1` on no port. -/
theorem portAllowed_audioPull_iff (r : RingId) (frames : U32) (p : Port) :
    portAllowed (.audioPull r frames) p = true ↔ r = .r0 ∧ p = .cons0 := by
  cases r with
  | r0 => simpa using portAllowed_iff_eq (i := .audioPull .r0 frames) rfl
  | r1 => simp [portAllowed_iff_mem, allowedPorts]

/-- Settles O18, row by row. -/
theorem portTableHolds : Obligations.PortTableHolds := by
  unfold Obligations.PortTableHolds
  exact ⟨portAllowed_nop, portAllowed_regRead,
    fun _ _ => portAllowed_iff_eq rfl,
    fun _ _ _ => portAllowed_iff_eq rfl,
    fun r data _ => portAllowed_iff_eq (allowedPorts_ringPush r data),
    fun r max _ => portAllowed_iff_eq (allowedPorts_ringPop r max),
    fun _ _ _ => portAllowed_iff_eq rfl,
    fun _ _ => portAllowed_iff_eq rfl,
    portAllowed_audioPull_iff,
    fun _ _ _ _ => portAllowed_iff_eq rfl,
    fun _ _ => portAllowed_iff_eq rfl,
    fun _ _ => portAllowed_iff_eq rfl⟩

/-! ## The port check -/

/-- R204: the port check comes before everything else that a command does. -/
theorem exec_eq_onPort (i : Instr) (s : State) : ∃ go, exec i s = onPort i s go := by
  cases i <;>
    simp only [exec, execNop, execRegRead, execStatusClear, execRingInit, execRingPush, execRingPop, execDemodInit,
      execDemodProcess, execAudioPull, execSpecInit, execSpecWindow, execSpecMagdb] <;>
    exact ⟨_, rfl⟩

/-- R206, R201: on a port that may not issue it, a command raises `PORT_VIOLATION`, and that is all. -/
theorem exec_of_wrongPort {i : Instr} {s : State} (hport : portAllowed i s.issuer = false) :
    exec i s = .next (s.failed .portViolation i.opcode) := by
  obtain ⟨go, hexec⟩ := exec_eq_onPort i s
  rw [hexec, onPort, hport, require_false, raise_eq, State.failed]

/-- Settles O19. `PORT_VIOLATION` is bit 9 of `STATUS`. -/
theorem wrongPortHasNoEffect : Obligations.WrongPortHasNoEffect := by
  unfold Obligations.WrongPortHasNoEffect
  intro i s hport
  rw [exec_of_wrongPort hport, failed_eq]
  rfl

/-! ## The bits a step keeps -/

/-- R38: the effect of a command keeps every `STATUS` bit that is set, but for the warnings that `STATUS_CLEAR`
clears. -/
theorem Effect.keeps_statusBit {i : Instr} {s t : State} {b : Nat} (h : Effect i s t)
    (hkept : ∀ mask, i = .statusClear mask → ¬ (4 ≤ b ∧ b ≤ 7)) (hset : s.status.getLsbD b = true) :
    t.status.getLsbD b = true := by
  cases i with
  | nop =>
    obtain rfl := h
    simp [hset]
  | statusClear mask =>
    obtain rfl := h
    simp [hset, hkept mask rfl]
  | regRead =>
    obtain ⟨-, -, -, -, rfl⟩ := h
    simp [hset]
  | ringInit | specInit =>
    obtain ⟨-, rfl⟩ := h
    simp [hset]
  | ringPush =>
    obtain ⟨-, -, -, -, -, rfl⟩ := h
    simp [hset]
  | ringPop =>
    obtain ⟨-, -, -, -, -, -, rfl⟩ := h
    simp [hset]
  | audioPull =>
    obtain ⟨-, -, -, -, -, -, -, -, -, -, -, -, rfl⟩ := h
    simp [hset]
  | demodInit =>
    obtain ⟨-, -, -, rfl⟩ := h
    simp [hset]
  | demodProcess =>
    obtain ⟨-, -, -, -, rfl⟩ := h
    simp [hset]
  | specWindow | specMagdb =>
    obtain ⟨-, -, rfl⟩ := h
    simp [hset]

/-- R38, R201: so does every command, since one that fails only sets a bit. -/
theorem exec_keeps_statusBit {i : Instr} {s t : State} {b : Nat} (h : exec i s = .next t)
    (hkept : ∀ mask, i = .statusClear mask → ¬ (4 ≤ b ∧ b ≤ 7)) (hset : s.status.getLsbD b = true) :
    t.status.getLsbD b = true := by
  rcases exec_next h with ⟨c, -, -, rfl⟩ | ⟨-, heffect⟩
  · simp [hset]
  · exact heffect.keeps_statusBit hkept hset

/-- R38, R203: a step that is not the reset event keeps every set bit that is no warning. -/
theorem step_keeps_statusBit {s t : State} {b : Nat} (hreset : s.inbox.head? ≠ some .reset) (h : step s = .next t)
    (hb : ¬ (4 ≤ b ∧ b ≤ 7)) (hset : s.status.getLsbD b = true) : t.status.getLsbD b = true := by
  rcases step_next h with ⟨-, rfl⟩ | ⟨rest, hinbox, -⟩ | ⟨port, w, p, rest, -, hrun⟩
  · exact hset
  · exact absurd (by simp [hinbox]) hreset
  · rcases runCommand_next hrun with ⟨i, -, hexec⟩ | ⟨-, rfl⟩
    · exact exec_keeps_statusBit hexec (fun _ _ => hb) hset
    · simp [hset]

/-- Settles O14. None of the six fault and refusal bits is a warning's. -/
theorem faultBitsSticky : Obligations.FaultBitsSticky := by
  unfold Obligations.FaultBitsSticky
  exact fun _ _ hreset h _ hbit hset => step_keeps_statusBit hreset h (by omega) hset

end Sys2Proof.Machine
end

section
/-! The ring commands on their ports (spec/40_ring.md R100 to R103, spec/20_memory.md R70): which capacities are legal,
what a construction, a push that fits and one that does not leave behind, and which values a draw can take. -/

namespace Sys2Proof.Machine

open Host

/-! ## Checks -/

/-- R204, R205: a command on a port that may issue it goes on. -/
theorem onPort_of_allowed {i : Instr} {s : State} {go : Unit → Outcome State Fault Refusal}
    (h : portAllowed i s.issuer = true) : onPort i s go = go () := by
  rw [onPort, h, require_true]

/-- R201: a check that does not hold fails with its condition. -/
theorem require_of_false {ok : Bool} {c : Condition} {o : Opcode} {s : State}
    {go : Unit → Outcome State Fault Refusal} (h : ok = false) : require ok c o s go = .next (s.failed c o) := by
  rw [h, require_false, raise_eq, State.failed]

/-- R204: on a port that may issue it, a command whose first check does not hold fails with that check's condition. -/
theorem onPort_require_of_false {i : Instr} {ok : Bool} {c : Condition} {o : Opcode} {s : State}
    {go : Unit → Outcome State Fault Refusal} (hport : portAllowed i s.issuer = true) (hcheck : ok = false) :
    onPort i s (fun _ => require ok c o s go) = .next (s.failed c o) :=
  (onPort_of_allowed hport).trans (require_of_false hcheck)

/-- R204: where the first check holds and the second does not, it fails with the second check's condition. -/
theorem onPort_require_require_of_false {i : Instr} {ok ok' : Bool} {c c' : Condition} {o o' : Opcode} {s : State}
    {go : Unit → Outcome State Fault Refusal} (hport : portAllowed i s.issuer = true) (hfirst : ok = true)
    (hsecond : ok' = false) :
    onPort i s (fun _ => require ok c o s fun _ => require ok' c' o' s go) = .next (s.failed c' o') := by
  rw [onPort_of_allowed hport, hfirst, require_true, require_of_false hsecond]

/-! ## `RING_INIT` -/

/-- R88, R100: the capacity check holds exactly for the powers of two up to `2^RING_MAX_LOG2`. -/
theorem capacityLegal_iff (P : Params) (capacity : U64) :
    capacityLegal P capacity = true ↔ ∃ k, k ≤ P.ringMaxLog2.val ∧ capacity.toNat = 2 ^ k := by
  have hzero : capacity = 0#64 ↔ capacity.toNat = 0 := by rw [← BitVec.toNat_inj]; rfl
  have hmask (h : capacity.toNat ≠ 0) : capacity &&& (capacity - 1#64) = 0#64 ↔ capacity.toNat.isPowerOfTwo := by
    have hpred : (capacity - 1#64).toNat = capacity.toNat - 1 := by bv_omega
    rw [← Nat.and_sub_one_eq_zero_iff_isPowerOfTwo h, ← hpred, ← BitVec.toNat_and, ← BitVec.toNat_inj]
    rfl
  have hlegal : capacityLegal P capacity = true
      ↔ capacity.toNat ≠ 0 ∧ capacity &&& (capacity - 1#64) = 0#64 ∧ capacity.toNat ≤ 2 ^ P.ringMaxLog2.val := by
    simp [capacityLegal, hzero, and_assoc]
  rw [hlegal]
  constructor
  · rintro ⟨hne, hand, hle⟩
    obtain ⟨k, hk⟩ := (hmask hne).mp hand
    exact ⟨k, (Nat.pow_le_pow_iff_right Nat.one_lt_two).mp (hk ▸ hle), hk⟩
  · rintro ⟨k, hk, hpow⟩
    have hne : capacity.toNat ≠ 0 := hpow ▸ (Nat.two_pow_pos k).ne'
    exact ⟨hne, (hmask hne).mpr ⟨k, hpow⟩, hpow ▸ Nat.pow_le_pow_right Nat.two_pos hk⟩

/-- R24: the exponent of a legal capacity fits the field `k`. -/
theorem log2_of_capacity {P : Params} {capacity : U64} {k : Nat} (hk : k ≤ P.ringMaxLog2.val)
    (hpow : capacity.toNat = 2 ^ k) : (BitVec.ofNat 6 (Nat.log2 capacity.toNat)).toNat = k := by
  have := P.ringMaxLog2.isLt
  rw [hpow, Nat.log2_two_pow, BitVec.toNat_ofNat, Nat.mod_eq_of_lt (by omega)]

/-- R205: `RING_INIT` is allowed on `CTRL`. -/
@[simp] theorem portAllowed_ringInit_ctrl (r : RingId) (capacity : U64) :
    portAllowed (.ringInit r capacity) .ctrl = true := rfl

/-- R100: `RING_INIT` of a legal capacity, on its port. -/
theorem exec_ringInit_of_legal {s : State} {capacity : U64} (r : RingId) (hport : s.issuer = .ctrl)
    (hlegal : capacityLegal s.params capacity = true) :
    exec (.ringInit r capacity) s = .next ((s.setRing r
      (RingState.constructed (BitVec.ofNat 6 (Nat.log2 capacity.toNat)))).finish [.bool true]) := by
  simp [exec, execRingInit, onPort, hport, hlegal]

/-- Settles O29: a power of two in range is a legal capacity, and the ring is built with its logarithm. -/
theorem ringInitConstructs : Obligations.RingInitConstructs := by
  unfold Obligations.RingInitConstructs
  intro s r capacity k hport hk hpow
  refine ⟨_, exec_ringInit_of_legal r hport ((capacityLegal_iff _ _).mpr ⟨k, hk, hpow⟩), ?_⟩
  simp [RingState.constructed, log2_of_capacity hk hpow, keepsUnits, keepsDraws, returns]

/-- Settles O30: every other capacity fails the check, which raises `QCI`, bit 3. -/
theorem ringInitRejectsBadCapacity : Obligations.RingInitRejectsBadCapacity := by
  unfold Obligations.RingInitRejectsBadCapacity
  intro s r capacity hport hother
  have hillegal : capacityLegal s.params capacity = false := by
    rw [Bool.eq_false_iff, Ne, capacityLegal_iff]
    rintro ⟨k, hk, hpow⟩
    exact hother k hk hpow
  exact onPort_require_of_false (i := .ringInit r capacity) (s := s) (by simp [hport]) hillegal

/-! ## Draws -/

/-- Settles O31. The input that asks for the distance of a value from the lower bound brings the value about. -/
theorem drawsCoverTheirRange : Obligations.DrawsCoverTheirRange := by
  unfold Obligations.DrawsCoverTheirRange
  refine ⟨drawBetween_le, fun s lo hi x later hbetween => ?_⟩
  unfold State.drawBetween
  split
  next heq =>
    have hzero : (x - lo).toNat = 0 := by simpa [heq] using hbetween
    bv_omega
  next =>
    have hinput : State.nextDraw { s with draws := (x - lo).toNat :: later } = (x - lo).toNat := rfl
    rw [hinput, Nat.min_eq_left hbetween, BitVec.ofNat_toNat, BitVec.setWidth_eq, BitVec.add_comm,
      BitVec.sub_add_cancel]

/-! ## `RING_PUSH` -/

/-- R205: `RING_PUSH` is allowed on its ring's producer port. -/
@[simp] theorem portAllowed_ringPush_producer (r : RingId) (data : List Byte) :
    portAllowed (.ringPush r data) (Port.producer r) = true := by
  cases r <;> rfl

/-- R101: `RING_PUSH` on the producer port of a valid ring. -/
theorem exec_ringPush {s : State} {r : RingId} {seen : U64} (data : List Byte) (hport : s.issuer = Port.producer r)
    (hvalid : (s.ring r).valid = true) (hseen : seen = s.drawBetween (s.ring r).pTailSeen (s.ring r).tail) :
    exec (.ringPush r data) s = .next ((s.afterDraw.setRing r ((s.ring r).push seen data).1).finish
      [.bool ((s.ring r).push seen data).2]) := by
  simp [exec, execRingPush, onPort, hport, hvalid, hseen]

/-- R101: what a push that fits does to its ring. -/
theorem RingState.push_of_fits {rs : RingState} {t : U64} {data : List Byte}
    (hfits : data.length + (rs.head - t).toNat ≤ rs.cap) :
    rs.push t data = ({ rs with
      pTailSeen := t
      buf := memWrite rs.cap rs.buf rs.head data
      head := rs.head + BitVec.ofNat 64 data.length }, true) :=
  if_neg (Nat.not_lt.mpr hfits)

/-- R103: what a push that does not fit does to its ring. -/
theorem RingState.push_of_full {rs : RingState} {t : U64} {data : List Byte}
    (hfull : rs.cap < data.length + (rs.head - t).toNat) : rs.push t data = ({ rs with pTailSeen := t }, false) :=
  if_pos hfull

/-- Settles O32. Data that fits is no longer than the capacity, so no byte of it overwrites another. -/
theorem ringPushAccepts : Obligations.RingPushAccepts := by
  unfold Obligations.RingPushAccepts
  intro s r data seen hport hvalid hseen hfits
  have hpush := exec_ringPush data hport hvalid hseen
  rw [RingState.push_of_fits hfits] at hpush
  refine ⟨_, hpush, ?_⟩
  have hsame := memWrite_read_same (s.ring r).k (s.ring r).buf (s.ring r).head data (by omega)
  have hother := memWrite_read_other (2 ^ (s.ring r).k.toNat) (s.ring r).buf (s.ring r).head data
  simpa [hvalid, RingState.cap, ringIndex, keepsUnits, oneDraw, returns] using And.intro hsame hother

/-- Settles O33. -/
theorem ringPushFullChangesNothing : Obligations.RingPushFullChangesNothing := by
  unfold Obligations.RingPushFullChangesNothing
  intro s r data seen hport hvalid hseen hfull
  have hpush := exec_ringPush data hport hvalid hseen
  rw [RingState.push_of_full hfull] at hpush
  exact ⟨_, hpush, by simp [keepsUnits, oneDraw, returns]⟩

/-! ## The ring as a queue -/

/-- Settles O35. A command that failed left the bytes held and returned its failure result, `ok = 0` or no bytes. -/
theorem ringIsAQueue : Obligations.RingIsAQueue := by
  unfold Obligations.RingIsAQueue
  intro s t r held hinv hheld
  constructor
  · intro data h
    rcases exec_next h with ⟨c, -, -, rfl⟩ | ⟨-, -, _, _, rfl, rfl, rfl⟩
    · simpa [Instr.opcode, failResult] using hheld
    · simpa using RingState.push_contents hinv.ordered (drawBetween_le s _ _) hheld
  · intro max h
    rcases exec_next h with ⟨c, -, -, rfl⟩ | ⟨-, -, _, ring, data, rfl, hpop, rfl⟩
    · exact ⟨[], held, by simp [Instr.opcode, failResult], rfl, by simpa using hheld⟩
    · obtain ⟨-, rfl, hrest⟩ := RingState.pop_contents hinv.ordered (drawBetween_le s _ _) hheld hpop
      exact ⟨_, _, finish_lastResult .., (List.take_append_drop _ _).symm, by simpa using hrest⟩

end Sys2Proof.Machine
end

section
/-! The de-emphasis coefficient and `DEMOD_INIT` (spec/41_demod.md R130 to R133): signed comparison of exact values,
the binary64 chain from the audio rate to `alpha`, and the constructed demodulator. -/

namespace Sys2Proof.Machine

/-! ## Comparison of exact values -/

/-- The whole number that a sign and a magnitude stand for. -/
def signedMag (neg : Bool) (mag : Nat) : Int := if neg then -mag else mag

@[simp] theorem signedMag_false (mag : Nat) : signedMag false mag = mag := rfl

@[simp] theorem signedMag_true (mag : Nat) : signedMag true mag = -mag := rfl

/-- R11: values in one unit compare as the whole numbers of units they are. -/
theorem exactLt_fin_iff {d : Nat} (hd : 0 < d) (s t : Bool) (m n : Nat) :
    exactLt (.fin s m d) (.fin t n d) = true ↔ signedMag s m < signedMag t n := by
  have hscale (a b : Nat) : a * d < b * d ↔ a < b := Nat.mul_lt_mul_right hd
  have hpos : 0 < m * d + n * d ↔ 0 < m + n := by rw [← Nat.add_mul]; exact Nat.mul_pos_iff_of_pos_right hd
  cases s <;> cases t <;>
    simp only [exactLt, hscale, hpos, signedMag_false, signedMag_true, decide_eq_true_eq, Bool.false_eq_true,
      false_iff] <;>
    omega

theorem exactLt_fin_eq_false_iff {d : Nat} (hd : 0 < d) (s t : Bool) (m n : Nat) :
    exactLt (.fin s m d) (.fin t n d) = false ↔ signedMag t n ≤ signedMag s m := by
  rw [← Bool.not_eq_true, exactLt_fin_iff hd, not_lt]

/-- A value of a format that lies between two finite ones is finite, and lies between them as a number of units. -/
theorem exact_fin_of_between {x : Exact} {d : Nat} (hd : 0 < d)
    (hcases : x = .nan ∨ (∃ s, x = .inf s) ∨ ∃ s k, x = .fin s k d) (hnan : x ≠ .nan) {sl sh : Bool} {lo hi : Nat}
    (hlo : exactLt x (.fin sl lo d) = false) (hhi : exactLt (.fin sh hi d) x = false) :
    ∃ s k, x = .fin s k d ∧ signedMag sl lo ≤ signedMag s k ∧ signedMag s k ≤ signedMag sh hi := by
  rcases hcases with rfl | ⟨s, rfl⟩ | ⟨s, k, rfl⟩
  · exact absurd rfl hnan
  · cases s <;> simp [exactLt] at hlo hhi
  · exact ⟨s, k, rfl, (exactLt_fin_eq_false_iff hd ..).mp hlo, (exactLt_fin_eq_false_iff hd ..).mp hhi⟩

/-! ## From the audio rate to `alpha` -/

/-- R11: whole numbers below `2^53` are binary64 values. -/
theorem val64_f64OfNat {n : Nat} (h : n < 2 ^ 53) :
    val64 (f64OfNat n) = .fin false (n * 2 ^ binary64.unit) (2 ^ binary64.unit) := by
  have hlt : roundMag binary64 n 1 < infBits binary64 :=
    lt_of_le_of_lt (roundMag_mono binary64 (by decide) Nat.one_pos Nat.one_pos (by omega))
      (by decide +kernel : roundMag binary64 (2 ^ 53) 1 < infBits binary64)
  have hexact := exactOf_roundMag_of_eq binary64 (by decide) Nat.one_pos h (Nat.mul_one _).symm hlt
  obtain ⟨k, hlo, hhi, hval⟩ := val64_between false Nat.one_pos Nat.one_pos Nat.one_pos le_rfl le_rfl hlt hexact hexact
  have hfl : f64OfNat n = fl64 (.fin false n 1) := by rw [fl64, fl_fin_false, f64OfNat]
  rw [hfl, hval, Nat.le_antisymm hhi hlo]

theorem val64_oneF64 : val64 oneF64 = .fin false (2 ^ binary64.unit) (2 ^ binary64.unit) := by decide +kernel

/-- R11: a number between `2^-j` and `2^i` rounds to one between them in binary64, where both are values of it. -/
theorem val64_fl64_of_between (s : Bool) {num den i j : Nat} (hi : i ≤ 1000) (hj : j ≤ binary64.unit) (hden : 0 < den)
    (hlo : den ≤ num * 2 ^ j) (hhi : num ≤ 2 ^ i * den) :
    ∃ k, 2 ^ binary64.unit ≤ k * 2 ^ j ∧ k ≤ 2 ^ i * 2 ^ binary64.unit
      ∧ val64 (fl64 (.fin s num den)) = .fin s k (2 ^ binary64.unit) := by
  have hsplit : 2 ^ (binary64.unit - j) * 2 ^ j = 2 ^ binary64.unit := by rw [← Nat.pow_add, Nat.sub_add_cancel hj]
  have hjpos := Nat.two_pow_pos j
  have hbelow : roundMag binary64 1 (2 ^ j) < infBits binary64 :=
    lt_of_le_of_lt (roundMag_mono binary64 (by decide) hjpos Nat.one_pos (by omega))
      (by decide +kernel : roundMag binary64 1 1 < infBits binary64)
  have habove : roundMag binary64 (2 ^ i) 1 < infBits binary64 :=
    lt_of_le_of_lt (roundMag_mono binary64 (by decide) Nat.one_pos Nat.one_pos
        (Nat.mul_le_mul_right _ (Nat.pow_le_pow_right Nat.two_pos hi)))
      (by decide +kernel : roundMag binary64 (2 ^ 1000) 1 < infBits binary64)
  obtain ⟨k, hklo, hkhi, hval⟩ := val64_between s (a := 1) hden hjpos Nat.one_pos (by rwa [Nat.one_mul])
    (by rwa [Nat.mul_one]) habove
    (exactOf_roundMag_of_eq binary64 (by decide) hjpos (sig := 1) (e := binary64.unit - j) (by decide)
      (by rw [← hsplit]; ring) hbelow)
    (exactOf_roundMag_of_eq binary64 (by decide) Nat.one_pos (sig := 1) (e := i + binary64.unit) (by decide)
      (by rw [Nat.pow_add]; ring) habove)
  refine ⟨k, ?_, ?_, hval⟩
  · rw [← hsplit, ← Nat.one_mul (2 ^ (binary64.unit - j))]
    exact Nat.mul_le_mul_right _ hklo
  · rwa [Nat.pow_add, Nat.one_mul] at hkhi

/-- R132: the reciprocal of an audio rate lies between `2^-32` and 1. -/
theorem val64_reciprocal {ar : U32} (h : ar ≠ 0#32) :
    ∃ k, 2 ^ binary64.unit ≤ k * 2 ^ 32 ∧ k ≤ 2 ^ 0 * 2 ^ binary64.unit
      ∧ val64 (f64Div oneF64 (f64OfNat ar.toNat)) = .fin false k (2 ^ binary64.unit) := by
  have hpos : 0 < ar.toNat := by bv_omega
  have hlt := ar.isLt
  have hquotient : exactDiv (val64 oneF64) (val64 (f64OfNat ar.toNat))
      = .fin false (2 ^ binary64.unit * 2 ^ binary64.unit) (2 ^ binary64.unit * (ar.toNat * 2 ^ binary64.unit)) := by
    rw [val64_oneF64, val64_f64OfNat (by omega)]
    simp [exactDiv, hpos.ne']
  rw [f64Div, hquotient]
  have hunit := Nat.two_pow_pos binary64.unit
  refine val64_fl64_of_between false (by decide) (by decide) (Nat.mul_pos hunit (Nat.mul_pos hpos hunit)) ?_ ?_
  · generalize 2 ^ binary64.unit = u
    nlinarith [Nat.mul_le_mul_right (u * u) hlt.le]
  · generalize 2 ^ binary64.unit = u
    nlinarith [Nat.mul_le_mul_right (u * u) hpos]

/-- R8: `TAU` among the source's literals lies between `2^-15` and `2^-13` seconds. -/
theorem val64_tau {P : Params} (h : P.sourceLiterals = true) :
    ∃ k, 2 ^ binary64.unit ≤ k * 2 ^ 15 ∧ k * 2 ^ 13 ≤ 2 ^ binary64.unit
      ∧ val64 P.tau = .fin false k (2 ^ binary64.unit) := by
  simp only [Params.sourceLiterals, Bool.and_eq_true, Bool.or_eq_true, beq_iff_eq] at h
  obtain ⟨⟨-, htau⟩, -⟩ := h
  rcases htau with heq | heq <;> rw [heq]
  · exact ⟨0x1A36E2EB1C432D * 2 ^ 1007, by decide +kernel⟩
  · exact ⟨0x13A92A30553261 * 2 ^ 1008, by decide +kernel⟩

/-- R132: the argument of `EXP` is negative and at most `-2^-19`. -/
theorem val64_expArgument {P : Params} (h : P.sourceLiterals = true) {ar : U32} (har : ar ≠ 0#32) :
    ∃ k, 2 ^ binary64.unit ≤ k * 2 ^ 19 ∧ val64 (f64Div (f64Neg (f64Div oneF64 (f64OfNat ar.toNat))) P.tau)
      = .fin true k (2 ^ binary64.unit) := by
  obtain ⟨m, hmlo, hmhi, hm⟩ := val64_reciprocal har
  obtain ⟨n, hnlo, hnhi, hn⟩ := val64_tau h
  have hunit := Nat.two_pow_pos binary64.unit
  have hn0 : 0 < n := Nat.pos_of_mul_pos_right (lt_of_lt_of_le hunit hnlo)
  have hquotient : exactDiv (val64 (f64Neg (f64Div oneF64 (f64OfNat ar.toNat)))) (val64 P.tau)
      = .fin true (m * 2 ^ binary64.unit) (2 ^ binary64.unit * n) := by
    rw [val64_f64Neg, hm, hn]
    simp [exactDiv, exactNeg, hn0.ne']
  have hbounds : 2 ^ binary64.unit * n ≤ m * 2 ^ binary64.unit * 2 ^ 19
      ∧ m * 2 ^ binary64.unit ≤ 2 ^ 15 * (2 ^ binary64.unit * n) := by
    generalize 2 ^ binary64.unit = u at *
    have hlo : n ≤ m * 2 ^ 19 := by omega
    have hhi : m ≤ 2 ^ 15 * n := by omega
    exact ⟨by nlinarith [Nat.mul_le_mul_left u hlo], by nlinarith [Nat.mul_le_mul_left u hhi]⟩
  obtain ⟨hlo, hhi⟩ := hbounds
  rw [f64Div, hquotient]
  obtain ⟨k, hk, -, hval⟩ := val64_fl64_of_between true (by decide) (by decide) (Nat.mul_pos hunit hn0) hlo hhi
  exact ⟨k, hk, hval⟩

theorem val64_zero : val64 0#64 = .fin false 0 (2 ^ binary64.unit) := by decide +kernel

/-- `-2^-20` in smallest units. -/
theorem val64_expNearZero :
    ∃ n, n * 2 ^ 20 = 2 ^ binary64.unit ∧ val64 expNearZero = .fin true n (2 ^ binary64.unit) :=
  ⟨2 ^ 1054, by decide +kernel⟩

/-- `1 - 2^-53` in smallest units. -/
theorem val64_belowOneF64 :
    ∃ n, n * 2 ^ 53 + 2 ^ binary64.unit = 2 ^ binary64.unit * 2 ^ 53
      ∧ val64 belowOneF64 = .fin false n (2 ^ binary64.unit) :=
  ⟨(2 ^ 53 - 1) * 2 ^ 1021, by decide +kernel⟩

/-- R132: `EXP` of an argument below `-2^-20` lies between 0 and `1 - 2^-53`. -/
theorem val64_exp {P : Params} {t : F64} {m : Nat} (hm : 2 ^ binary64.unit ≤ m * 2 ^ 19)
    (ht : val64 t = .fin true m (2 ^ binary64.unit)) :
    ∃ s k, val64 (exp P t) = .fin s k (2 ^ binary64.unit) ∧ 0 ≤ signedMag s k
      ∧ k * 2 ^ 53 + 2 ^ binary64.unit ≤ 2 ^ binary64.unit * 2 ^ 53 := by
  have hunit := Nat.two_pow_pos binary64.unit
  obtain ⟨b, hb, hbelow⟩ := val64_belowOneF64
  obtain ⟨z, hz, hnear⟩ := val64_expNearZero
  have hnegative : f64Lt 0#64 t = false := by
    rw [f64Lt, val64_zero, ht, exactLt_fin_eq_false_iff hunit]
    simp
  have hfar : f64Lt t expNearZero = true := by
    rw [f64Lt, ht, hnear, exactLt_fin_iff hunit, signedMag_true, signedMag_true]
    generalize 2 ^ binary64.unit = u at *
    omega
  rcases exp_cases P t hnegative (by simp [ht]) with ⟨-, hexp⟩ | ⟨-, r, hexp⟩
  · refine ⟨false, 0, hexp ▸ val64_zero, le_rfl, ?_⟩
    generalize 2 ^ binary64.unit = u at *
    omega
  · rw [hfar, if_pos rfl] at hexp
    have hzero := val64_zero
    obtain ⟨hlower, hupper⟩ := f64Within_range 0#64 belowOneF64 r (by decide +kernel)
    have hnan := f64Within_ne_nan 0#64 belowOneF64 r (by simp [hzero]) (by simp [hbelow])
    rw [← hexp] at hlower hupper hnan
    rw [f64Lt, hzero] at hlower
    rw [f64Lt, hbelow] at hupper
    obtain ⟨s, k, hval, hlo, hhi⟩ := exact_fin_of_between hunit (val64_cases _) hnan hlower hupper
    refine ⟨s, k, hval, hlo, ?_⟩
    have hk : k ≤ b := by cases s <;> simp at hlo hhi <;> omega
    generalize 2 ^ binary64.unit = u at *
    omega

/-- A number of `[0, 1)` taken from 1, in one unit. -/
theorem exactAdd_one_exactNeg {u k : Nat} {s : Bool} (hk : k < u) (hs : 0 ≤ signedMag s k) :
    exactAdd (.fin false u u) (exactNeg (.fin s k u)) = .fin false ((u - k) * u) (u * u) := by
  have hscaled : k * u < u * u := Nat.mul_lt_mul_of_pos_right hk (by omega)
  cases s with
  | false => simp [exactAdd, exactNeg, hscaled, Nat.sub_mul]
  | true =>
    obtain rfl : k = 0 := by simpa using hs
    simp [exactAdd, exactNeg]

/-- What is left of 1 by a number of at most `1 - 2^-53` lies between `2^-53` and 1, in units `u` to 1. -/
theorem complement_bounds {u e : Nat} (h : e * 2 ^ 53 + u ≤ u * 2 ^ 53) :
    u * u ≤ (u - e) * u * 2 ^ 53 ∧ (u - e) * u ≤ 2 ^ 0 * (u * u) := by
  have hlo : u ≤ (u - e) * 2 ^ 53 := by omega
  have hhi : u - e ≤ u := Nat.sub_le u e
  exact ⟨by nlinarith [Nat.mul_le_mul_right u hlo], by nlinarith [Nat.mul_le_mul_right u hhi]⟩

/-- R132: `alpha` lies between `2^-53` and 1. -/
theorem val32_alphaOf {P : Params} (h : P.sourceLiterals = true) {ar : U32} (har : ar ≠ 0#32) :
    ∃ k, 2 ^ 96 ≤ k ∧ k ≤ 2 ^ 149 ∧ val32 (alphaOf P ar) = .fin false k (2 ^ 149) := by
  have hunit := Nat.two_pow_pos binary64.unit
  obtain ⟨m, hm, ht⟩ := val64_expArgument h har
  obtain ⟨s, e, hexp, hnonneg, hbelow⟩ := val64_exp (P := P) hm ht
  have he : e < 2 ^ binary64.unit := by
    generalize 2 ^ binary64.unit = u at *
    omega
  obtain ⟨hlo, hhi⟩ := complement_bounds (u := 2 ^ binary64.unit) (e := e) hbelow
  obtain ⟨d, hdlo, hdhi, hd⟩ := val64_fl64_of_between false (num := (2 ^ binary64.unit - e) * 2 ^ binary64.unit)
    (den := 2 ^ binary64.unit * 2 ^ binary64.unit) (i := 0) (j := 53) (by decide) (by decide) (Nat.mul_pos hunit hunit)
    hlo hhi
  have hdiff : val64 (f64Sub oneF64 (exp P (f64Div (f64Neg (f64Div oneF64 (f64OfNat ar.toNat))) P.tau)))
      = .fin false d (2 ^ binary64.unit) := by
    rw [f64Sub, val64_oneF64, hexp, exactAdd_one_exactNeg he hnonneg, hd]
  rw [alphaOf, f32OfF64, hdiff]
  generalize 2 ^ binary64.unit = u at *
  exact val32_between _ false (a := 1) (b := 2 ^ 53) (c := 1) (d := 1) hunit (by decide) Nat.one_pos (by omega)
    (by omega) (by decide +kernel) (by decide +kernel) (by decide +kernel)

theorem val32_zero : val32 0#32 = .fin false 0 (2 ^ 149) := by decide +kernel

theorem val32_oneF32 : val32 oneF32 = .fin false (2 ^ 149) (2 ^ 149) := by decide +kernel

/-- R35: a magnitude of at most 1 lies in the unit interval. -/
theorem inUnitInterval_of_le {x : F32} {k : Nat} (hval : val32 x = .fin false k (2 ^ 149)) (hk : k ≤ 2 ^ 149) :
    inUnitInterval x = true := by
  have hlower : f32Lt x 0#32 = false := by
    rw [f32Lt, hval, val32_zero, exactLt_fin_eq_false_iff (Nat.two_pow_pos 149)]
    simp
  have hupper : f32Lt oneF32 x = false := by
    rw [f32Lt, hval, val32_oneF32, exactLt_fin_eq_false_iff (Nat.two_pow_pos 149)]
    simpa using hk
  simp [inUnitInterval, f32IsNaN, hval, hlower, hupper]

/-- R132: for the audio rate 1 the argument lies below `-1024`, where `EXP` underflows. -/
theorem alphaOf_one {P : Params} (h : P.sourceLiterals = true) : alphaOf P 1#32 = oneF32 := by
  have hargument : ∃ t, val64 t ≠ .nan ∧ f64Lt 0#64 t = false ∧ f64Lt t expUnderflow = true
      ∧ f64Div (f64Neg (f64Div oneF64 (f64OfNat (1#32).toNat))) P.tau = t := by
    simp only [Params.sourceLiterals, Bool.and_eq_true, Bool.or_eq_true, beq_iff_eq] at h
    obtain ⟨⟨-, htau⟩, -⟩ := h
    rcases htau with heq | heq <;> rw [heq] <;> exact ⟨_, by decide +kernel, by decide +kernel, by decide +kernel, rfl⟩
  obtain ⟨t, hnan, hnegative, hfar, ht⟩ := hargument
  have hexp : exp P t = 0#64 := by
    rcases exp_cases P t hnegative hnan with ⟨-, hexp⟩ | ⟨hnear, -⟩
    · exact hexp
    · rw [hfar] at hnear
      cases hnear
  simp only [alphaOf]
  rw [ht, hexp, f32OfF64, fl32_congr _ 0#32 (by decide +kernel)]
  decide +kernel

/-- Settles O40. -/
theorem alphaInUnitInterval : Obligations.AlphaInUnitInterval := by
  unfold Obligations.AlphaInUnitInterval
  intro P ar h har
  obtain ⟨k, hlo, hhi, hval⟩ := val32_alphaOf h har
  refine ⟨inUnitInterval_of_le hval hhi, ?_, ?_⟩
  · rw [f32Lt, hval, val32_zero, exactLt_fin_iff (Nat.two_pow_pos 149)]
    simp
    omega
  · rintro rfl
    exact alphaOf_one h

/-! ## `DEMOD_INIT` -/

/-- R131: `D`, as a number, is at least 1. -/
theorem decimation_toNat (sampleRate audioRate : U32) :
    (decimation sampleRate audioRate).toNat = max 1 (sampleRate.toNat / audioRate.toNat) := by
  have hlt := lt_of_le_of_lt (Nat.div_le_self sampleRate.toNat audioRate.toNat) sampleRate.isLt
  rw [decimation, BitVec.toNat_ofNat, Nat.mod_eq_of_lt (by omega)]

/-- R205: `DEMOD_INIT` is allowed on `CTRL`. -/
@[simp] theorem portAllowed_demodInit_ctrl (sampleRate audioRate : U32) :
    portAllowed (.demodInit sampleRate audioRate) .ctrl = true := rfl

/-- R130: `DEMOD_INIT` with a nonzero audio rate, on its port. -/
theorem exec_demodInit {s : State} {audioRate : U32} (sampleRate : U32) (hport : s.issuer = .ctrl)
    (hrate : audioRate ≠ 0#32) :
    exec (.demodInit sampleRate audioRate) s
      = .next (((s.setDm (DemodState.constructed s.params sampleRate audioRate)).warn
          (ratesMismatch sampleRate audioRate) .rateWarn).finish [.u32 (decimation sampleRate audioRate)]) := by
  have hcheck : (audioRate != 0#32) = true := by simpa using hrate
  simp only [exec, execDemodInit, onPort, hport, portAllowed_demodInit_ctrl, hcheck, require_true]
  rfl

/-- Settles O38. -/
theorem demodInitConstructs : Obligations.DemodInitConstructs := by
  unfold Obligations.DemodInitConstructs
  intro s sr ar hport hrate
  have hmismatch : ratesMismatch sr ar = decide (sr.toNat % ar.toNat ≠ 0) := by
    by_cases hdivides : sr.toNat % ar.toNat = 0 <;> simp [ratesMismatch, hdivides]
  refine ⟨_, exec_demodInit sr hport hrate, rfl, rfl, rfl, decimation_toNat sr ar, rfl, rfl, rfl, rfl, rfl, ?_,
    rfl, rfl, rfl, ⟨rfl, rfl, rfl⟩, ⟨rfl, rfl⟩, rfl⟩
  rw [hmismatch]
  exact warnWhen_decide _ .rateWarn s.status

/-- Settles O39: the check of the rate raises `BAD_OPERAND`, bit 1. -/
theorem demodInitZeroRateFaults : Obligations.DemodInitZeroRateFaults := by
  unfold Obligations.DemodInitZeroRateFaults
  intro s sr hport
  exact onPort_require_of_false (i := .demodInit sr 0#32) (s := s) (by simp [hport]) (bne_self_eq_false 0#32)

end Sys2Proof.Machine
end

section
/-! What a command changes, part by part (spec/60_exceptions.md R201, R204, R212; spec/10_state.md R24 to R38): one case
split over the commands, and what follows for rings, units, `STATUS`, results and parameters over a command and a
step. -/

namespace Sys2Proof.Machine

/-! ## What a command can do to each part of the state -/

/-- What command `i`, issued in state `s`, can leave of ring `r`. -/
inductive RingChange (i : Instr) (s : State) (r : RingId) : RingState → Prop
  | kept : RingChange i s r (s.ring r)
  | constructed {capacity : U64} (hi : i = .ringInit r capacity) (hlegal : capacityLegal s.params capacity = true) :
    RingChange i s r (RingState.constructed (BitVec.ofNat 6 (Nat.log2 capacity.toNat)))
  | pushed {data : List Byte} (hi : i = .ringPush r data) (hvalid : (s.ring r).valid = true) :
    RingChange i s r ((s.ring r).push (s.drawBetween (s.ring r).pTailSeen (s.ring r).tail) data).1
  | popped {max : Nat} {ring : RingState} {data : List Byte}
    (hi : (∃ m, i = .ringPop r m) ∨ ∃ frames, i = .audioPull r frames) (hvalid : (s.ring r).valid = true)
    (hpop : (s.ring r).pop (s.drawBetween (s.ring r).cHeadSeen (s.ring r).head) max = some (ring, data)) :
    RingChange i s r ring

/-- What command `i`, issued in state `s`, can leave of the demodulator. -/
inductive DemodChange (i : Instr) (s : State) : DemodState → Prop
  | kept : DemodChange i s s.dm
  | constructed {sampleRate audioRate : U32} (hi : i = .demodInit sampleRate audioRate) (hrate : audioRate ≠ 0#32) :
    DemodChange i s (DemodState.constructed s.params sampleRate audioRate)
  | ran {iq : List Byte} {dm : DemodState} {pcm : List I16}
    (hi : (∃ data, i = .demodProcess data) ∨ ∃ r frames, i = .audioPull r frames) (hvalid : s.dm.valid = true)
    (hrun : demodBytes s.params s.dm iq = (dm, pcm)) : DemodChange i s dm

/-- What command `i`, issued in state `s`, can leave of the spectrum unit. -/
inductive SpecChange (i : Instr) (s : State) : SpecState → Prop
  | kept : SpecChange i s s.sp
  | configured {n winSel : U32} {table : List F32} (hi : i = .specInit n winSel table)
    (hlegal : specOperandsLegal s.params n winSel table = true) :
    SpecChange i s (SpecState.configured s.params n winSel table)

/-- What command `i`, issued in state `s`, can leave of `STATUS` where it raises nothing. -/
inductive StatusChange (i : Instr) (s : State) : U32 → Prop
  | kept : StatusChange i s s.status
  | cleared {mask : U32} (hi : i = .statusClear mask) : StatusChange i s (clearWarnings mask s.status)
  | warned {status : U32} (applies : Bool) {c : Condition} (hc : conditionClass c = .warning)
    (h : StatusChange i s status) : StatusChange i s (warnWhen applies c status)

/-- What command `i`, issued in state `s`, leaves in state `t`, but for `STATUS`. -/
structure Changes (i : Instr) (s t : State) : Prop where
  rings : ∀ r, RingChange i s r (t.ring r)
  dm : DemodChange i s t.dm
  sp : SpecChange i s t.sp
  params : t.params = s.params
  inbox : t.inbox = s.inbox
  results : t.results = s.results ++ [⟨s.issuer, t.lastResult⟩]

/-- A ring that the command may have replaced, and the other ring as it was. -/
theorem RingChange.of_setRing {i : Instr} {s x : State} {r : RingId} {ring : RingState}
    (h : RingChange i s r ring) (hx : ∀ q, x.ring q = s.ring q) (q : RingId) :
    RingChange i s q ((x.setRing r ring).ring q) := by
  by_cases hq : q = r
  · rw [hq, setRing_ring_same]
    exact h
  · rw [setRing_ring_other _ _ hq, hx]
    exact .kept

/-- What the effect of a command changes. -/
theorem Effect.changes {i : Instr} {s t : State} (h : Effect i s t) :
    Changes i s t ∧ StatusChange i s t.status := by
  cases i with
  | nop =>
    obtain rfl := h
    exact ⟨⟨fun _ => by simpa using .kept, .kept, .kept, rfl, rfl, by simp⟩, .kept⟩
  | statusClear mask =>
    obtain rfl := h
    exact ⟨⟨fun _ => by simpa using .kept, .kept, .kept, rfl, rfl, by simp⟩, .cleared rfl⟩
  | regRead =>
    obtain ⟨-, -, -, -, rfl⟩ := h
    exact ⟨⟨fun _ => by simpa using .kept, .kept, .kept, rfl, rfl, by simp⟩, .kept⟩
  | ringInit =>
    obtain ⟨hlegal, rfl⟩ := h
    exact ⟨⟨fun q => by simpa using (RingChange.constructed rfl hlegal).of_setRing (x := s) (by simp) q,
      by simpa using .kept, by simpa using .kept, by simp, by simp, by simp⟩, by simpa using .kept⟩
  | ringPush =>
    obtain ⟨hvalid, _, _, rfl, rfl, rfl⟩ := h
    exact ⟨⟨fun q => by simpa using (RingChange.pushed rfl hvalid).of_setRing (x := s.afterDraw) (by simp) q,
      by simpa using .kept, by simpa using .kept, by simp, by simp, by simp⟩, by simpa using .kept⟩
  | ringPop =>
    obtain ⟨hvalid, _, _, _, rfl, hpop, rfl⟩ := h
    exact ⟨⟨fun q => by
        simpa using (RingChange.popped (.inl ⟨_, rfl⟩) hvalid hpop).of_setRing (x := s.afterDraw) (by simp) q,
      by simpa using .kept, by simpa using .kept, by simp, by simp, by simp⟩, by simpa using .kept⟩
  | audioPull =>
    obtain ⟨hring, hdm, -, _, _, got, dm, pcm, rfl, hpop, hrun, -, rfl⟩ := h
    exact ⟨⟨fun q => by
        simpa using (RingChange.popped (.inr ⟨_, rfl⟩) hring hpop).of_setRing (x := s.afterDraw) (by simp) q,
      by simpa using .ran (.inr ⟨_, _, rfl⟩) hdm hrun, by simpa using .kept, by simp, by simp, by simp⟩,
      by simpa using .warned _ rfl .kept⟩
  | demodInit =>
    obtain ⟨hrate, _, rfl, rfl⟩ := h
    exact ⟨⟨fun _ => by simpa using .kept, .constructed rfl hrate, .kept, rfl, rfl, by simp⟩, .warned _ rfl .kept⟩
  | demodProcess =>
    obtain ⟨hdm, dm, pcm, hrun, rfl⟩ := h
    exact ⟨⟨fun _ => by simpa using .kept, .ran (.inl ⟨_, rfl⟩) hdm hrun, .kept, rfl, rfl, by simp⟩,
      .warned _ rfl .kept⟩
  | specInit =>
    obtain ⟨hlegal, rfl⟩ := h
    exact ⟨⟨fun _ => by simpa using .kept, .kept, .configured rfl hlegal, rfl, rfl, by simp⟩, .kept⟩
  | specWindow =>
    obtain ⟨-, -, rfl⟩ := h
    exact ⟨⟨fun _ => by simpa using .kept, .kept, .kept, rfl, rfl, by simp⟩, .warned _ rfl (.warned _ rfl .kept)⟩
  | specMagdb =>
    obtain ⟨-, -, rfl⟩ := h
    exact ⟨⟨fun _ => by simpa using .kept, .kept, .kept, rfl, rfl, by simp⟩, .kept⟩

/-- A command that fails changes `STATUS` and returns a result, and no more. -/
theorem failed_changes (i : Instr) (s : State) (c : Condition) (o : Opcode) : Changes i s (s.failed c o) :=
  ⟨fun _ => by simpa using .kept, .kept, .kept, rfl, rfl, by simp⟩

/-- What a command changes, whether it fails or has its effect. -/
theorem exec_changes {i : Instr} {s t : State} (h : exec i s = .next t) : Changes i s t := by
  rcases exec_next h with ⟨c, -, -, rfl⟩ | ⟨-, heffect⟩
  · exact failed_changes i s c i.opcode
  · exact heffect.changes.1

/-! ## Rings -/

/-- Settles O37. -/
theorem ringsIndependent : Obligations.RingsIndependent := by
  unfold Obligations.RingsIndependent
  intro i s t r hring h
  exact (exec_frame h).2 r hring

/-- R24, R26, R27: what each kind of command does to the counters of a ring it does not construct. -/
theorem RingChange.counters {i : Instr} {s : State} {r : RingId} {ring : RingState} (h : RingChange i s r ring)
    (hinit : ∀ capacity, i ≠ .ringInit r capacity) :
    ring.valid = (s.ring r).valid ∧ ring.k = (s.ring r).k
      ∧ (ring.head ≠ (s.ring r).head → ∃ data, i = .ringPush r data)
      ∧ (ring.tail ≠ (s.ring r).tail → (∃ max, i = .ringPop r max) ∨ ∃ frames, i = .audioPull r frames) := by
  cases h with
  | kept => simp
  | constructed hi => exact absurd hi (hinit _)
  | pushed hi => exact ⟨by simp, by simp, fun _ => ⟨_, hi⟩, by simp⟩
  | popped hi _ hpop =>
    obtain ⟨-, -, rfl⟩ := RingState.pop_eq_some hpop
    exact ⟨rfl, rfl, by simp, fun _ => hi⟩

/-- R205: a command that takes bytes from ring `r` is the consumer's. -/
theorem consumer_of_portAllowed {i : Instr} {r : RingId} {p : Port} (hport : portAllowed i p = true)
    (hi : (∃ max, i = .ringPop r max) ∨ ∃ frames, i = .audioPull r frames) : p = Port.consumer r := by
  rcases hi with ⟨max, rfl⟩ | ⟨frames, rfl⟩
  · exact (portAllowed_iff_eq (allowedPorts_ringPop r max)).mp hport
  · obtain ⟨rfl, rfl⟩ := (portAllowed_audioPull_iff r frames p).mp hport
    rfl

/-- Settles O22: a command that fails changes no counter, and one that has its effect was issued on its port. -/
theorem ringCountersHaveOneWriter : Obligations.RingCountersHaveOneWriter := by
  unfold Obligations.RingCountersHaveOneWriter
  intro i s t r hinit h
  rcases exec_next h with ⟨c, -, -, rfl⟩ | ⟨hport, heffect⟩
  · simp
  · obtain ⟨hvalid, hk, hhead, htail⟩ := (heffect.changes.1.rings r).counters hinit
    refine ⟨hvalid, hk, fun hne => ?_, fun hne => consumer_of_portAllowed hport (htail hne)⟩
    obtain ⟨data, rfl⟩ := hhead hne
    exact ⟨(portAllowed_iff_eq (allowedPorts_ringPush r data)).mp hport, data, rfl⟩

/-- R25: no command leaves a ring's storage out of canonical form. -/
theorem RingChange.wf {i : Instr} {s : State} {r : RingId} {ring : RingState} (h : RingChange i s r ring)
    (hwf : (s.ring r).buf.wf = true) : ring.buf.wf = true := by
  cases h with
  | kept => exact hwf
  | constructed => rfl
  | pushed => exact RingState.push_wf _ _ hwf
  | popped _ _ hpop =>
    obtain ⟨-, -, rfl⟩ := RingState.pop_eq_some hpop
    exact hwf

/-! ## Units -/

/-- Settles O21: a unit that changed was written by one of the commands that can, on the port it is allowed on. -/
theorem unitsTouchedOnlyByOwners : Obligations.UnitsTouchedOnlyByOwners := by
  unfold Obligations.UnitsTouchedOnlyByOwners
  intro i s t h
  rcases exec_next h with ⟨c, -, -, rfl⟩ | ⟨hport, heffect⟩
  · simp
  obtain ⟨⟨-, hdm, hsp, -⟩, -⟩ := heffect.changes
  constructor
  · intro hne
    generalize t.dm = dm at hdm hne
    cases hdm with
    | kept => exact absurd rfl hne
    | constructed hi =>
      subst hi
      exact .inr ⟨(portAllowed_iff_eq rfl).mp hport, _, _, rfl⟩
    | ran hi =>
      rcases hi with ⟨data, rfl⟩ | ⟨r, frames, rfl⟩
      · exact .inl ((portAllowed_iff_eq rfl).mp hport)
      · exact .inl ((portAllowed_audioPull_iff r frames _).mp hport).2
  · intro hne
    generalize t.sp = sp at hsp hne
    cases hsp with
    | kept => exact absurd rfl hne
    | configured hi =>
      subst hi
      exact ⟨(portAllowed_iff_eq rfl).mp hport, _, _, _, rfl⟩

/-! ## `STATUS` -/

/-- R37: the warnings are bits 7:4. -/
theorem conditionClass_eq_warning_iff (c : Condition) :
    conditionClass c = .warning ↔ 4 ≤ conditionBit c ∧ conditionBit c ≤ 7 := by
  cases c <;> decide

/-- R38, R202: what raises nothing leaves the fault and refusal bits as they were. -/
theorem StatusChange.getLsbD_eq {i : Instr} {s : State} {status : U32} (h : StatusChange i s status) {b : Nat}
    (hb : ¬ (4 ≤ b ∧ b ≤ 7)) : status.getLsbD b = s.status.getLsbD b := by
  induction h with
  | kept => rfl
  | cleared => simp [hb]
  | warned applies hc _ ih =>
    have hne : b ≠ conditionBit _ := fun heq => hb (heq ▸ (conditionClass_eq_warning_iff _).mp hc)
    simp [ih, hne]

/-- R202: what raises nothing leaves the condition of a fault or refusal as it was. -/
theorem Effect.hasCondition_eq {i : Instr} {s t : State} (h : Effect i s t) {c : Condition}
    (hc : conditionClass c ≠ .warning) : hasCondition c t.status = hasCondition c s.status :=
  h.changes.2.getLsbD_eq fun hb => hc ((conditionClass_eq_warning_iff c).mpr hb)

/-- Raising a condition sets that condition only. -/
theorem hasCondition_setCondition (c d : Condition) (status : U32) :
    hasCondition d (setCondition c status) = (hasCondition d status || decide (d = c)) := by
  have hbits : conditionBit d = conditionBit c ↔ d = c := ⟨conditionBit_injective, congrArg _⟩
  simp [hasCondition, hbits]

/-- Settles O15. -/
theorem warningsClearedOnlyByStatusClear : Obligations.WarningsClearedOnlyByStatusClear := by
  unfold Obligations.WarningsClearedOnlyByStatusClear
  intro i s t hother h b hset
  exact exec_keeps_statusBit h (fun mask hi => absurd hi (hother mask)) hset

/-- Settles O17: a command that sets a fault or refusal bit failed, and raised the condition of that bit. -/
theorem faultHasNoOtherEffect : Obligations.FaultHasNoOtherEffect := by
  unfold Obligations.FaultHasNoOtherEffect
  intro i s t c hc h hclear hset
  rcases exec_next h with ⟨d, -, -, rfl⟩ | ⟨-, heffect⟩
  · rw [failed_status, hasCondition_setCondition, hclear, Bool.false_or, decide_eq_true_eq] at hset
    subst hset
    exact failed_eq s c i.opcode
  · rw [heffect.hasCondition_eq hc, hclear] at hset
    cases hset

/-! ## Steps -/

/-- What a command, legal or not, changes: an illegal word changes no more than `NOP`, but for `STATUS`. -/
theorem runCommand_changes {w : U32} {p : List Value} {s t : State} (h : runCommand w p s = .next t) :
    ∃ i, Changes i s t := by
  rcases runCommand_next h with ⟨i, -, hexec⟩ | ⟨-, rfl⟩
  · exact ⟨i, exec_changes hexec⟩
  · exact ⟨.nop, fun _ => by simpa using .kept, .kept, .kept, rfl, rfl, by simp⟩

/-- Settles O16. -/
theorem oneResultPerCommand : Obligations.OneResultPerCommand := by
  unfold Obligations.OneResultPerCommand
  intro s t port w p rest hinbox h
  rw [step_of_command hinbox] at h
  obtain ⟨i, hchanges⟩ := runCommand_changes h
  exact ⟨hchanges.inbox, _, hchanges.results⟩

/-- Settles O13. -/
theorem storageStaysCanonical : Obligations.StorageStaysCanonical := by
  unfold Obligations.StorageStaysCanonical
  intro s t h0 h1 h
  rcases step_next h with ⟨-, rfl⟩ | ⟨rest, -, rfl⟩ | ⟨port, w, p, rest, -, hrun⟩
  · exact ⟨h0, h1⟩
  · exact ⟨rfl, rfl⟩
  · obtain ⟨i, hchanges⟩ := runCommand_changes hrun
    exact ⟨(hchanges.rings .r0).wf h0, (hchanges.rings .r1).wf h1⟩

/-- Settles O23. -/
theorem parametersFixed : Obligations.ParametersFixed := by
  unfold Obligations.ParametersFixed
  intro s t h
  rcases step_next h with ⟨-, rfl⟩ | ⟨rest, -, rfl⟩ | ⟨port, w, p, rest, -, hrun⟩
  · rfl
  · rfl
  · obtain ⟨i, hchanges⟩ := runCommand_changes hrun
    exact hchanges.params

end Sys2Proof.Machine
end

section
/-! The invariant of the block's state (spec/10_state.md R29, R35, R36, R37): it holds at reset, every step keeps it,
and under it no step faults (R62) and none raises `PULL_MISMATCH` (R157). -/

namespace Sys2Proof.Machine

/-! ## Rings -/

/-- R24, R25, R29, R62: a valid ring keeps its invariant by what it says of valid rings. -/
theorem RingState.inv_of_valid {P : Params} {rs : RingState} (hvalid : rs.valid = true)
    (hk : rs.k.toNat ≤ P.ringMaxLog2.val) (hwf : rs.buf.wf = true) (hinside : ∀ c ∈ rs.buf, c.1 < rs.cap)
    (hordered : rs.ordered) (hwritten : rs.contents.isSome = true) : rs.Inv P :=
  ⟨fun h => by simp [hvalid] at h, fun _ => ⟨hk, hwf, hinside, hordered, hwritten⟩⟩

/-- R62: every byte a ring holds was written, also while it is invalid and holds none. -/
theorem RingState.Inv.contents_eq_some {P : Params} {rs : RingState} (h : rs.Inv P) :
    ∃ held, rs.contents = some held := by
  obtain ⟨hreset, hlive⟩ := h
  cases hv : rs.valid with
  | false => exact ⟨[], by rw [hreset hv]; rfl⟩
  | true =>
    obtain ⟨-, -, -, -, hwritten⟩ := hlive hv
    exact Option.isSome_iff_exists.mp hwritten

/-- R100: a ring just constructed keeps its invariant. -/
theorem RingState.constructed_inv {P : Params} {capacity : U64} (hlegal : capacityLegal P capacity = true) :
    (RingState.constructed (BitVec.ofNat 6 (Nat.log2 capacity.toNat))).Inv P := by
  obtain ⟨k, hk, hpow⟩ := (capacityLegal_iff P capacity).mp hlegal
  refine RingState.inv_of_valid rfl ?_ rfl (by simp [RingState.constructed]) ?_ ?_
  · exact (log2_of_capacity hk hpow).trans_le hk
  · simp [RingState.ordered, RingState.constructed]
  · simp [RingState.contents, RingState.used, RingState.constructed, memRead]

/-- R101: a push writes inside the capacity. -/
theorem RingState.push_mem_lt {rs : RingState} (t : U64) (data : List Byte) (h : ∀ c ∈ rs.buf, c.1 < rs.cap) :
    ∀ c ∈ (rs.push t data).1.buf, c.1 < rs.cap := by
  rcases rs.push_cases t data with ⟨-, heq⟩ | ⟨-, heq⟩ <;> rw [heq]
  · exact h
  · exact memWrite_mem_lt rs.head data rs.cap_pos h

/-- R29, R62: every command keeps the invariant of each ring. -/
theorem RingChange.inv {i : Instr} {s : State} {r : RingId} {ring : RingState} (h : RingChange i s r ring)
    (hinv : (s.ring r).Inv s.params) : ring.Inv s.params := by
  obtain ⟨held, hheld⟩ := hinv.contents_eq_some
  cases h with
  | kept => exact hinv
  | constructed _ hlegal => exact RingState.constructed_inv hlegal
  | pushed _ hvalid =>
    obtain ⟨-, hlive⟩ := hinv
    obtain ⟨hk, hwf, hinside, hordered, -⟩ := hlive hvalid
    have hdraw := drawBetween_le s (s.ring r).pTailSeen (s.ring r).tail
    refine RingState.inv_of_valid (by simpa using hvalid) (by simpa using hk) (RingState.push_wf _ _ hwf) ?_
      (RingState.push_ordered _ hordered hdraw) (by rw [RingState.push_contents hordered hdraw hheld]; rfl)
    simpa [RingState.cap] using RingState.push_mem_lt _ _ hinside
  | popped _ hvalid hpop =>
    obtain ⟨-, hlive⟩ := hinv
    obtain ⟨hk, hwf, hinside, hordered, -⟩ := hlive hvalid
    have hdraw := drawBetween_le s (s.ring r).cHeadSeen (s.ring r).head
    have hordered' := RingState.pop_ordered hordered hdraw hpop
    obtain ⟨-, -, hrest⟩ := RingState.pop_contents hordered hdraw hheld hpop
    obtain ⟨-, -, rfl⟩ := RingState.pop_eq_some hpop
    exact RingState.inv_of_valid hvalid hk hwf hinside hordered' (by rw [hrest]; rfl)

/-! ## The demodulator -/

/-- R35: every command keeps the demodulator's invariant, with the source's literals. -/
theorem DemodChange.inv {i : Instr} {s : State} {dm : DemodState} (h : DemodChange i s dm)
    (hliterals : s.params.sourceLiterals = true) (hinv : s.dm.Inv s.params) : dm.Inv s.params := by
  cases h with
  | kept => exact hinv
  | @constructed sampleRate audioRate _ hrate =>
    obtain ⟨k, -, hk, hval⟩ := val32_alphaOf hliterals hrate
    refine ⟨fun h => (by cases h), fun _ => ⟨?_, .inl rfl, inUnitInterval_of_le hval hk⟩⟩
    have hD := decimation_toNat sampleRate audioRate
    show 0 < (decimation sampleRate audioRate).toNat
    omega
  | @ran iq _ _ _ hvalid hrun =>
    obtain ⟨-, hlive⟩ := hinv
    obtain ⟨hcounter, hprev, halpha⟩ := hlive hvalid
    obtain ⟨hv, -, -, hD, halpha'⟩ := DemodState.config_eq_iff.mp (demodBytes_config s.params s.dm iq)
    obtain ⟨-, hcount⟩ := demodBytes_count s.params s.dm iq hcounter
    have hsample := demodBytes_prev s.params s.dm iq
    simp only [hrun] at hv hD halpha' hcount hsample
    refine ⟨fun h => by simp [hv, hvalid] at h, fun _ => ⟨?_, ?_, halpha' ▸ halpha⟩⟩
    · rw [hcount, hD]
      exact Nat.mod_lt _ (by omega)
    · rcases hsample with hold | hnew
      · exact hold ▸ hprev
      · exact .inr hnew

/-! ## The spectrum unit -/

/-- R88, R170: the checks of `SPEC_INIT`. -/
theorem specOperandsLegal_iff (P : Params) (n winSel : U32) (table : List F32) :
    specOperandsLegal P n winSel table = true ↔ 1 ≤ n.toNat ∧ n.toNat ≤ P.fftNMax
      ∧ ((winSel = 0#32 ∧ table = []) ∨ (winSel = 1#32 ∧ table = []) ∨ (winSel = 2#32 ∧ table.length = n.toNat)) := by
  have hzero : n = 0#32 ↔ n.toNat = 0 := by rw [← BitVec.toNat_inj]; rfl
  have hsel (k : Nat) (hk : k < 3) : winSel = BitVec.ofNat 32 k ↔ winSel.toNat = k := by
    rw [← BitVec.toNat_inj, BitVec.toNat_ofNat, Nat.mod_eq_of_lt (by omega)]
  rw [hsel 0 (by decide), hsel 1 (by decide), hsel 2 (by decide), ← List.length_eq_zero_iff]
  simp only [specOperandsLegal, Bool.not_eq_true', Bool.or_eq_false_iff, Bool.and_eq_false_iff, beq_eq_false_iff_ne,
    bne_eq_false_iff_eq, decide_eq_false_iff_not, ne_eq, hzero, hsel 2 (by decide)]
  omega

/-- R171: a table has one coefficient for each sample of a frame. -/
@[simp] theorem SpecState.configured_win_length (P : Params) (n winSel : U32) (table : List F32) :
    (SpecState.configured P n winSel table).win.length = n.toNat := by
  simp [SpecState.configured]

/-- R36: every command keeps the spectrum unit's invariant. -/
theorem SpecChange.inv {i : Instr} {s : State} {sp : SpecState} (h : SpecChange i s sp) (hinv : s.sp.Inv s.params) :
    sp.Inv s.params := by
  cases h with
  | kept => exact hinv
  | configured _ hlegal =>
    obtain ⟨hmin, hmax, hsel⟩ := (specOperandsLegal_iff _ _ _ _).mp hlegal
    refine ⟨fun h => (by cases h), fun _ => ⟨hmin, hmax, ?_, SpecState.configured_win_length ..⟩⟩
    rcases hsel with ⟨rfl, -⟩ | ⟨rfl, -⟩ | ⟨rfl, -⟩ <;> simp [SpecState.configured]

/-- R36, R45: the table is as long as the frame, also while the unit is invalid and both are empty. -/
theorem SpecState.Inv.win_length {P : Params} {sp : SpecState} (h : sp.Inv P) : sp.win.length = sp.N.toNat := by
  obtain ⟨hreset, hlive⟩ := h
  cases hv : sp.valid with
  | false =>
    rw [hreset hv]
    rfl
  | true =>
    obtain ⟨-, -, -, hlength⟩ := hlive hv
    exact hlength

/-! ## The block -/

/-- R37: what raises nothing keeps the reserved bits zero. -/
theorem StatusChange.reserved {i : Instr} {s : State} {status : U32} (h : StatusChange i s status)
    (hs : s.status &&& ~~~statusDefined = 0#32) : status &&& ~~~statusDefined = 0#32 := by
  induction h with
  | kept => exact hs
  | cleared => exact clearWarnings_reserved hs
  | warned _ _ _ ih => exact warnWhen_reserved ih

/-- R29, R35, R36, R37: a change of the state keeps the invariant where it keeps the reserved bits of `STATUS`. -/
theorem Changes.inv {i : Instr} {s t : State} (h : Changes i s t) (hliterals : s.params.sourceLiterals = true)
    (hinv : s.Inv) (hstatus : t.status &&& ~~~statusDefined = 0#32) : t.Inv := by
  obtain ⟨hring0, hring1, hdm, hsp, -⟩ := hinv
  refine ⟨?_, ?_, ?_, ?_, hstatus⟩ <;> rw [h.params]
  · exact (h.rings .r0).inv hring0
  · exact (h.rings .r1).inv hring1
  · exact h.dm.inv hliterals hdm
  · exact h.sp.inv hsp

/-- R29, R35, R36, R37: every command keeps the invariant. -/
theorem exec_inv {i : Instr} {s t : State} (hliterals : s.params.sourceLiterals = true) (hinv : s.Inv)
    (h : exec i s = .next t) : t.Inv := by
  have ⟨_, _, _, _, hreserved⟩ := hinv
  refine (exec_changes h).inv hliterals hinv ?_
  rcases exec_next h with ⟨c, -, -, rfl⟩ | ⟨-, heffect⟩
  · exact setCondition_reserved hreserved
  · exact heffect.changes.2.reserved hreserved

/-- R45: units as reset left them keep the invariant, with any parameters. -/
theorem resetEvent_inv (s : State) (rest : List Event) : (s.resetEvent rest).Inv :=
  ⟨⟨fun _ => rfl, fun h => (by cases h)⟩, ⟨fun _ => rfl, fun h => (by cases h)⟩, ⟨fun _ => rfl, fun h => (by cases h)⟩,
    ⟨fun _ => rfl, fun h => (by cases h)⟩, (by decide : 0#32 &&& ~~~statusDefined = 0#32)⟩

/-- Settles O9: the state after reset is what the reset event leaves of itself. -/
theorem invariantAtReset : Obligations.InvariantAtReset := by
  unfold Obligations.InvariantAtReset
  exact resetEvent_inv State.reset []

/-- Settles O10. -/
theorem invariantKeptByStep : Obligations.InvariantKeptByStep := by
  unfold Obligations.InvariantKeptByStep
  rintro s t ⟨-, hliterals⟩ hinv h
  rcases step_next h with ⟨-, rfl⟩ | ⟨rest, -, rfl⟩ | ⟨port, w, p, rest, -, hrun⟩
  · exact hinv
  · exact resetEvent_inv s rest
  · have haccept : (s.accept port rest).Inv := hinv
    rcases runCommand_next hrun with ⟨i, -, hexec⟩ | ⟨-, rfl⟩
    · exact exec_inv (s := s.accept port rest) hliterals haccept hexec
    · obtain ⟨hring0, hring1, hdm, hsp, hreserved⟩ := haccept
      exact ⟨hring0, hring1, hdm, hsp, setCondition_reserved hreserved⟩

/-! ## Faults -/

/-- R40: a number of the window names a coefficient of the frame. -/
theorem lt_of_regOf_eq_spWin {spN num : U32} {k : Nat} (h : regOf spN num = some (.spWin k)) : k < spN.toNat := by
  have hbelow : ∀ e ∈ regNumbers, e.2 ≠ .spWin k := by simp [regNumbers]
  unfold regOf at h
  split at h
  · split at h
    next hlt =>
      obtain rfl : num.toNat - winBase = k := by simpa using h
      exact hlt
    · cases h
  · obtain ⟨e, hfind, heq⟩ := Option.map_eq_some_iff.mp h
    exact absurd heq (hbelow e (List.mem_of_find?_eq_some hfind))

/-- R62, R36: a command faults only where a pop meets a byte that nothing wrote, or where the window table is shorter
than the frame. -/
theorem exec_fault {i : Instr} {s : State} {f : Fault} (h : exec i s = .fault f) :
    (∃ r max, (s.ring r).pop (s.drawBetween (s.ring r).cHeadSeen (s.ring r).head) max = none)
      ∨ s.sp.win.length < s.sp.N.toNat := by
  cases i with
  | nop | statusClear =>
    simp only [exec, execNop, execStatusClear, onPort] at h
    obtain ⟨-, h⟩ := require_fault h
    cases h
  | regRead num =>
    simp only [exec, execRegRead, onPort] at h
    obtain ⟨-, h⟩ := require_fault h
    split at h
    · cases h
    next reg hreg =>
      split at h
      · cases h
      next hread =>
        cases reg with
        | spWin k =>
          have hk := lt_of_regOf_eq_spWin hreg
          have hlength : s.sp.win.length ≤ k := by simpa [readReg] using hread
          exact .inr (by omega)
        | _ => cases hread
  | ringInit | ringPush | demodInit | demodProcess | specInit =>
    simp only [exec, execRingInit, execRingPush, execDemodInit, execDemodProcess, execSpecInit, onPort] at h
    obtain ⟨-, h⟩ := require_fault h
    obtain ⟨-, h⟩ := require_fault h
    cases h
  | ringPop =>
    simp only [exec, execRingPop, onPort] at h
    obtain ⟨-, h⟩ := require_fault h
    obtain ⟨-, h⟩ := require_fault h
    split at h
    · cases h
    next hpop => exact .inl ⟨_, _, hpop⟩
  | audioPull =>
    simp only [exec, execAudioPull, onPort] at h
    obtain ⟨-, h⟩ := require_fault h
    obtain ⟨-, h⟩ := require_fault h
    obtain ⟨-, h⟩ := require_fault h
    split at h
    next hpop => exact .inl ⟨_, _, hpop⟩
    · obtain ⟨-, h⟩ := require_fault h
      cases h
  | specWindow =>
    simp only [exec, execSpecWindow, onPort] at h
    obtain ⟨-, h⟩ := require_fault h
    obtain ⟨-, h⟩ := require_fault h
    split at h
    next hshort => exact .inr hshort
    · cases h
  | specMagdb =>
    simp only [exec, execSpecMagdb, onPort] at h
    obtain ⟨-, h⟩ := require_fault h
    obtain ⟨-, h⟩ := require_fault h
    obtain ⟨-, h⟩ := require_fault h
    cases h

/-- R62, R36: under the invariant no command faults. -/
theorem exec_ne_fault {i : Instr} {s : State} (hinv : s.Inv) (f : Fault) : exec i s ≠ .fault f := by
  intro h
  rcases exec_fault h with ⟨r, max, hpop⟩ | hshort
  · obtain ⟨held, hheld⟩ := (hinv.ring r).contents_eq_some
    obtain ⟨ring, data, hsome⟩ := RingState.pop_isSome max (hinv.ring r).ordered (drawBetween_le s _ _) hheld
    rw [hpop] at hsome
    cases hsome
  · obtain ⟨-, -, -, hsp, -⟩ := hinv
    rw [hsp.win_length] at hshort
    exact absurd hshort (lt_irrefl _)

/-- A step that faults ran a command that did. -/
theorem step_fault {s : State} {f : Fault} (h : step s = .fault f) :
    ∃ port rest i, exec i (s.accept port rest) = .fault f := by
  unfold step at h
  split at h
  · cases h
  · cases h
  · unfold runCommand at h
    split at h
    · exact ⟨_, _, _, h⟩
    all_goals cases h

/-- Settles O11. -/
theorem noStepFaults : Obligations.NoStepFaults := by
  unfold Obligations.NoStepFaults
  intro s hinv f h
  obtain ⟨port, rest, i, hexec⟩ := step_fault h
  have haccept : (s.accept port rest).Inv := hinv
  exact exec_ne_fault haccept f hexec

/-! ## `PULL_MISMATCH` -/

/-- R157: under the demodulator's invariant a pull gives as many samples as it was asked for. -/
theorem not_mismatched {i : Instr} {s : State} (hinv : s.dm.Inv s.params) : ¬ Mismatched i s := by
  rintro ⟨r, frames, ring, got, -, -, hvalid, hpop, hlength⟩
  obtain ⟨-, hlive⟩ := hinv
  obtain ⟨hcounter, -⟩ := hlive hvalid
  obtain ⟨-, hgot, -⟩ := RingState.pop_eq_some hpop
  have hpadded := padded_length s.params _ got (hgot ▸ (s.ring r).popCount_le _ _)
  exact hlength (demodBytes_of_bytesNeeded s.params hcounter hpadded).1

/-- R157: under the invariant a command leaves `PULL_MISMATCH` as it was. -/
theorem exec_pullMismatch {i : Instr} {s t : State} (hinv : s.dm.Inv s.params) (h : exec i s = .next t) :
    hasCondition .pullMismatch t.status = hasCondition .pullMismatch s.status := by
  rcases exec_next h with ⟨c, -, hcause, rfl⟩ | ⟨-, heffect⟩
  · have hc : Condition.pullMismatch ≠ c := fun heq => not_mismatched hinv (hcause heq.symm)
    simp [hasCondition_setCondition, hc]
  · exact heffect.hasCondition_eq (by decide)

/-- Settles O12. -/
theorem pullMismatchNeverRaised : Obligations.PullMismatchNeverRaised := by
  unfold Obligations.PullMismatchNeverRaised
  rintro s t ⟨-, -, hdm, -⟩ h hclear
  rcases step_next h with ⟨-, rfl⟩ | ⟨rest, -, rfl⟩ | ⟨port, w, p, rest, -, hrun⟩
  · exact hclear
  · simp [hasCondition]
  · rcases runCommand_next hrun with ⟨i, -, hexec⟩ | ⟨-, rfl⟩
    · exact (exec_pullMismatch (s := s.accept port rest) hdm hexec).trans hclear
    · simpa [hasCondition_setCondition] using hclear

end Sys2Proof.Machine
end

section
/-! Steps, and the control commands on their ports (spec/60_exceptions.md R200, R204, R211, R216, R230;
spec/43_control.md R190 to R192): what a step answers for each kind of event, what it refuses, the missing unit of a data command, and the
register numbers. -/

namespace Sys2Proof.Machine

/-! ## Steps -/

/-- Settles O5. -/
theorem stepRunsDecodedInstr : Obligations.StepRunsDecodedInstr := by
  unfold Obligations.StepRunsDecodedInstr
  intro s port w p rest i hinbox hdecode _
  rw [step_of_command hinbox, runCommand, hdecode]
  rfl

/-- Settles O7. -/
theorem idleBlockKeepsState : Obligations.IdleBlockKeepsState := by
  unfold Obligations.IdleBlockKeepsState
  intro s hinbox
  simp only [step, hinbox]

/-- R230: a step with the reset event first in the inbox. -/
theorem step_of_reset {s : State} {rest : List Event} (h : s.inbox = .reset :: rest) :
    step s = .next (s.resetEvent rest) := by
  simp only [step, h]

/-- Settles O8. -/
theorem resetEventRestoresResetValues : Obligations.ResetEventRestoresResetValues := by
  unfold Obligations.ResetEventRestoresResetValues
  intro s rest hinbox
  refine ⟨_, step_of_reset hinbox, fun r => ?_, ?_⟩
  · simp [RingState.reset]
  · simp [DemodState.reset, SpecState.reset, initialSample, keepsDraws]

/-- R83: every command has its meaning. -/
theorem exec_ne_refused (i : Instr) (s : State) (why : Refusal) : exec i s ≠ .refused why := by
  intro h
  cases i with
  | nop | statusClear =>
    simp only [exec, execNop, execStatusClear, onPort] at h
    obtain ⟨-, h⟩ := require_refused h
    cases h
  | regRead =>
    simp only [exec, execRegRead, onPort] at h
    obtain ⟨-, h⟩ := require_refused h
    split at h
    · cases h
    · split at h <;> cases h
  | ringInit | ringPush | demodInit | demodProcess | specInit =>
    simp only [exec, execRingInit, execRingPush, execDemodInit, execDemodProcess, execSpecInit, onPort] at h
    obtain ⟨-, h⟩ := require_refused h
    obtain ⟨-, h⟩ := require_refused h
    cases h
  | ringPop | specWindow =>
    simp only [exec, execRingPop, execSpecWindow, onPort] at h
    obtain ⟨-, h⟩ := require_refused h
    obtain ⟨-, h⟩ := require_refused h
    split at h <;> cases h
  | audioPull =>
    simp only [exec, execAudioPull, onPort] at h
    obtain ⟨-, h⟩ := require_refused h
    obtain ⟨-, h⟩ := require_refused h
    obtain ⟨-, h⟩ := require_refused h
    split at h
    · cases h
    · obtain ⟨-, h⟩ := require_refused h
      cases h
  | specMagdb =>
    simp only [exec, execSpecMagdb, onPort] at h
    obtain ⟨-, h⟩ := require_refused h
    obtain ⟨-, h⟩ := require_refused h
    obtain ⟨-, h⟩ := require_refused h
    cases h

/-- R85: only a payload that is not the operand list is refused. -/
theorem runCommand_refused_iff {w : U32} {p : List Value} {s : State} {why : Refusal} :
    runCommand w p s = .refused why ↔ why = .payloadMismatch ∧ decode w p = .error .payloadMismatch := by
  unfold runCommand
  split
  next hdecode => simp [exec_ne_refused, hdecode]
  next hdecode => simp [hdecode, eq_comm]
  all_goals simp [raiseIllegal, *]

/-- Settles O6. -/
theorem onlyMismatchedPayloadRefused : Obligations.OnlyMismatchedPayloadRefused := by
  unfold Obligations.OnlyMismatchedPayloadRefused
  refine ⟨exec_ne_refused, fun s port w p rest hinbox hdecode => ?_, fun s why h => ?_⟩
  · rw [step_of_command hinbox, runCommand_refused_iff]
    exact ⟨rfl, hdecode⟩
  · unfold step at h
    split at h
    · cases h
    · cases h
    next port w p rest hinbox =>
      obtain ⟨hwhy, hdecode⟩ := runCommand_refused_iff.mp h
      exact ⟨hwhy, port, w, p, rest, hinbox, hdecode⟩

/-! ## The missing unit -/

/-- The units that a data command works on are valid (R200); the other commands work on none. -/
def State.unitsValid (s : State) : Instr → Bool
  | .ringPush r _ | .ringPop r _ => (s.ring r).valid
  | .demodProcess _ => s.dm.valid
  | .audioPull r _ => (s.ring r).valid && s.dm.valid
  | .specWindow _ | .specMagdb _ => s.sp.valid
  | .nop | .regRead _ | .statusClear _ | .ringInit _ _ | .demodInit _ _ | .specInit _ _ _ => true

/-- R200, R204: a data command on its port raises `NOT_INIT` where a unit of its was never constructed, before it looks
at its operands. -/
theorem exec_of_missingUnit {i : Instr} {s : State} (hport : portAllowed i s.issuer = true)
    (hmissing : s.unitsValid i = false) : exec i s = .next (s.failed .notInit i.opcode) := by
  cases i with
  | ringPush | ringPop | demodProcess | audioPull | specWindow | specMagdb =>
    exact onPort_require_of_false hport hmissing
  | nop | regRead | statusClear | ringInit | demodInit | specInit => cases hmissing

/-- Settles O20. `NOT_INIT` is bit 2 of `STATUS`. -/
theorem dataCommandNeedsItsUnit : Obligations.DataCommandNeedsItsUnit := by
  unfold Obligations.DataCommandNeedsItsUnit
  intro i s hport hmissing
  refine exec_of_missingUnit hport ?_
  rcases hmissing with ⟨r, data, rfl, hv⟩ | ⟨r, max, rfl, hv⟩ | ⟨iq, rfl, hv⟩ | ⟨r, frames, rfl, hv | hv⟩
    | ⟨iq, rfl, hv⟩ | ⟨bins, rfl, hv⟩ <;> simp [State.unitsValid, hv]

/-! ## Control -/

/-- Settles O24. -/
theorem nopChangesNothing : Obligations.NopChangesNothing := by
  unfold Obligations.NopChangesNothing
  intro s
  simp only [exec, execNop, onPort, portAllowed_nop, require_true]
  rfl

/-- R40: the numbers of the window, from `0x0001_0000` on. -/
theorem regOf_window {spN num : U32} {k : Nat} (hnum : num.toNat = winBase + k) (hk : k < spN.toNat) :
    regOf spN num = some (.spWin k) := by
  have hoffset : num.toNat - winBase = k := by omega
  rw [regOf, if_pos (by omega), hoffset, if_pos hk]

/-- R191: a number past the window, or below it and not in the map, names no register. -/
theorem regOf_eq_none {spN num : U32} (hmap : num.toNat ∉ regNumbers.map Prod.fst)
    (hwindow : ¬ (winBase ≤ num.toNat ∧ num.toNat - winBase < spN.toNat)) : regOf spN num = none := by
  unfold regOf
  split
  next hbase => exact if_neg fun hlt => hwindow ⟨hbase, hlt⟩
  next =>
    rw [Option.map_eq_none_iff, List.find?_eq_none]
    intro e he heq
    exact hmap (List.mem_map.mpr ⟨e, he, by simpa using heq⟩)

/-- Settles O26. -/
theorem regReadReturnsWindow : Obligations.RegReadReturnsWindow := by
  unfold Obligations.RegReadReturnsWindow
  intro s num k w hnum hk hw
  have hread : readReg s (.spWin k) = some (w.setWidth 64) := by rw [readReg, hw, Option.map_some]
  exact exec_regRead_of_readReg (regOf_window hnum hk) hread

/-- Settles O27: the statement's list is the numbers of the map. `BAD_OPERAND` is bit 1 of `STATUS`. -/
theorem regReadUnassignedFaults : Obligations.RegReadUnassignedFaults := by
  unfold Obligations.RegReadUnassignedFaults
  intro s num hmap hwindow
  simp only [exec, execRegRead, onPort, portAllowed_regRead, require_true, regOf_eq_none hmap hwindow]
  rfl

/-- R205: `STATUS_CLEAR` is allowed on `CTRL`. -/
@[simp] theorem portAllowed_statusClear_ctrl (mask : U32) : portAllowed (.statusClear mask) .ctrl = true := rfl

/-- R192: `STATUS_CLEAR` on its port. -/
theorem exec_statusClear {s : State} (mask : U32) (hport : s.issuer = .ctrl) :
    exec (.statusClear mask) s = .next ((s.setStatus (clearWarnings mask s.status)).finish []) := by
  simp [exec, execStatusClear, onPort, hport]

/-- Settles O28. -/
theorem statusClearClearsWarnings : Obligations.StatusClearClearsWarnings := by
  unfold Obligations.StatusClearClearsWarnings
  intro s mask hport
  exact ⟨_, exec_statusClear mask hport, clearWarnings_getLsbD mask s.status, rfl, rfl, ⟨rfl, rfl, rfl, rfl, rfl⟩,
    ⟨rfl, rfl⟩, rfl⟩

end Sys2Proof.Machine
end

section
/-! The demodulator's payloads over calls (spec/41_demod.md R136, R138, R139), the demand of a pull that is too large
(R155), and the serial form of samples (spec/20_memory.md R64). -/

namespace Sys2Proof.Machine

/-- Settles O43: whole pairs and then more bytes are demodulated one after the other. -/
theorem demodProcessSpansCalls : Obligations.DemodProcessSpansCalls := by
  unfold Obligations.DemodProcessSpansCalls
  intro s first second hport hvalid heven
  have hfirst := exec_demodProcess_of_even hport hvalid heven
  have hboth := exec_demodProcess (first ++ second) hport hvalid
  have hodd : (first ++ second).length % 2 = second.length % 2 := by rw [List.length_append]; omega
  rw [demodBytes_append _ _ _ _ heven, hodd] at hboth
  obtain ⟨hv, -⟩ := DemodState.config_eq_iff.mp (demodBytes_config s.params s.dm first)
  exact ⟨_, _, _, _, _, hfirst, exec_demodProcess second hport (hv.trans hvalid), hboth, rfl, rfl, rfl, rfl, rfl⟩

/-- Settles O44: the byte left over after whole pairs is no pair. -/
theorem oddByteDiscarded : Obligations.OddByteDiscarded := by
  unfold Obligations.OddByteDiscarded
  intro s iq last hport hvalid heven
  have hodd : (iq ++ [last]).length % 2 = 1 := by rw [List.length_append, List.length_singleton]; omega
  refine ⟨_, exec_demodProcess_of_even hport hvalid heven, ?_⟩
  rw [exec_demodProcess _ hport hvalid, demodBytes_append _ _ _ _ heven, demodBytes_single, List.append_nil, hodd]
  rfl

/-- Settles O45: what is returned and reached is written in the demodulator, the parameters and the payload. -/
theorem demodProcessDeterministic : Obligations.DemodProcessDeterministic := by
  unfold Obligations.DemodProcessDeterministic
  intro s1 s2 t1 t2 iq hdm hparams hport1 hport2 h1 h2
  cases hvalid : s1.dm.valid with
  | true =>
    rw [exec_demodProcess iq hport1 hvalid] at h1
    rw [exec_demodProcess iq hport2 (hdm ▸ hvalid), ← hdm, ← hparams] at h2
    cases h1
    cases h2
    simp
  | false =>
    have hmissing (s : State) (hport : s.issuer = .cons0) (hv : s.dm.valid = false) :=
      exec_of_missingUnit (i := .demodProcess iq) (s := s) (by simp [hport]) hv
    rw [hmissing s1 hport1 hvalid] at h1
    rw [hmissing s2 hport2 (hdm ▸ hvalid)] at h2
    cases h1
    cases h2
    simpa using hdm

/-- Settles O52: the demand is checked before the pop. -/
theorem audioPullTooLargeFaults : Obligations.AudioPullTooLargeFaults := by
  unfold Obligations.AudioPullTooLargeFaults
  intro s frames hport hring hvalid hdemand
  have hlarge : decide (bytesNeeded frames s.dm.D < 2 ^ 64) = false := decide_eq_false (Nat.not_lt.mpr hdemand)
  have hunits : (s.ring0.valid && s.dm.valid) = true := by simp [hring, hvalid]
  exact onPort_require_require_of_false (i := .audioPull .r0 frames) (s := s) (by simp [hport]) hunits hlarge

/-- R64: the two bytes of a sample as numbers. -/
theorem extractLsb'_bytes (x : I16) :
    x.extractLsb' 0 8 = BitVec.ofNat 8 (x.toNat % 256) ∧ x.extractLsb' 8 8 = BitVec.ofNat 8 (x.toNat / 256) := by
  constructor <;> apply BitVec.eq_of_toNat_eq <;>
    simp [BitVec.extractLsb'_toNat, Nat.shiftRight_eq_div_pow]

/-- Settles O53. -/
theorem sampleBytesInOrder : Obligations.SampleBytesInOrder := by
  unfold Obligations.SampleBytesInOrder
  intro P x rest
  obtain ⟨hlow, hhigh⟩ := extractLsb'_bytes x
  cases horder : P.pcmByteOrder <;> simp [pcmBytes, sampleBytes, horder, hlow, hhigh]

end Sys2Proof.Machine
end

section
/-! The spectrum commands on their ports (spec/42_spectrum.md R170 to R176): which selections construct which window,
and the windowed frame of a payload. -/

namespace Sys2Proof.Machine

/-! ## `SPEC_INIT` -/

/-- R205: `SPEC_INIT` is allowed on `CTRL`. -/
@[simp] theorem portAllowed_specInit_ctrl (n winSel : U32) (table : List F32) :
    portAllowed (.specInit n winSel table) .ctrl = true := rfl

/-- R170: `SPEC_INIT` of legal operands, on its port. -/
theorem exec_specInit_of_legal {s : State} {n winSel : U32} {table : List F32} (hport : s.issuer = .ctrl)
    (hlegal : specOperandsLegal s.params n winSel table = true) :
    exec (.specInit n winSel table) s
      = .next ((s.setSp (SpecState.configured s.params n winSel table)).finish [.bool true]) := by
  simp [exec, execSpecInit, onPort, hport, hlegal]

/-- R171: coefficient `k` of the window just configured. -/
theorem SpecState.configured_win_getElem? (P : Params) {n : U32} (winSel : U32) (table : List F32) {k : Nat}
    (hk : k < n.toNat) : (SpecState.configured P n winSel table).win[k]? = some (windowEntry P winSel n table k) := by
  simp [SpecState.configured, hk]

/-- R171: the rectangular window is of ones. -/
theorem SpecState.configured_rect (P : Params) (n : U32) (table : List F32) :
    ∀ w ∈ (SpecState.configured P n 0#32 table).win, w = oneF32 := by
  simp [SpecState.configured, windowEntry]

/-- R171: the user's window is the table. -/
theorem SpecState.configured_user (P : Params) {n : U32} {table : List F32} (hlength : table.length = n.toNat) :
    (SpecState.configured P n 2#32 table).win = table := by
  refine List.ext_getElem? fun k => ?_
  by_cases hk : k < n.toNat
  · have hk' : k < table.length := hlength ▸ hk
    rw [SpecState.configured_win_getElem? P _ _ hk]
    simp [windowEntry, hk']
  · rw [List.getElem?_eq_none (by simpa using hk), List.getElem?_eq_none (by omega)]

/-- Settles O54. -/
theorem specInitConfigures : Obligations.SpecInitConfigures := by
  unfold Obligations.SpecInitConfigures
  intro s n sel table hport hmin hmax hsel
  have hlegal := (specOperandsLegal_iff s.params n sel table).mpr ⟨hmin, hmax, hsel⟩
  refine ⟨_, exec_specInit_of_legal hport hlegal, rfl, rfl, ?_, SpecState.configured_win_length .., ?_, ?_, ?_,
    rfl, rfl, rfl, rfl, ⟨rfl, rfl, rfl⟩, ⟨rfl, rfl⟩, rfl⟩
  · rcases hsel with ⟨rfl, -⟩ | ⟨rfl, -⟩ | ⟨rfl, -⟩ <;> rfl
  · rintro rfl
    exact SpecState.configured_rect s.params n table
  · rintro rfl k hk
    exact SpecState.configured_win_getElem? s.params 1#32 table hk
  · rintro rfl
    rcases hsel with ⟨h, -⟩ | ⟨h, -⟩ | ⟨-, hlength⟩
    · exact absurd h (by decide)
    · exact absurd h (by decide)
    · exact SpecState.configured_user s.params hlength

/-- Settles O55: the operands that fail a check are the others. `BAD_OPERAND` is bit 1 of `STATUS`. -/
theorem specInitRejects : Obligations.SpecInitRejects := by
  unfold Obligations.SpecInitRejects
  intro s n sel table hport hbad
  have hillegal : specOperandsLegal s.params n sel table = false := by
    rw [Bool.eq_false_iff, Ne, specOperandsLegal_iff]
    rintro ⟨hmin, hmax, ⟨rfl, rfl⟩ | ⟨rfl, rfl⟩ | ⟨rfl, hlength⟩⟩ <;> simp at hbad <;> omega
  exact onPort_require_of_false (i := .specInit n sel table) (s := s) (by simp [hport]) hillegal

/-! ## `SPEC_WINDOW` -/

/-- R205: `SPEC_WINDOW` is allowed on `CONS1`. -/
@[simp] theorem portAllowed_specWindow_cons1 (iq : List Byte) : portAllowed (.specWindow iq) .cons1 = true := rfl

/-- R173: `SPEC_WINDOW` on its port, with a valid unit whose table is as long as the frame. -/
theorem exec_specWindow {s : State} (iq : List Byte) (hport : s.issuer = .cons1) (hvalid : s.sp.valid = true)
    (hlength : s.sp.win.length = s.sp.N.toNat) :
    exec (.specWindow iq) s
      = .next (((s.warn (iq.length % 2 == 1) .oddDrop).warn (decide (iq.length / 2 < s.sp.N.toNat)) .shortFrame).finish
          [.cf32s (windowFrame s.params s.sp iq)]) := by
  simp [exec, execSpecWindow, onPort, hport, hvalid, hlength]

/-- R202: a warning adds its bit where it applies, and nothing elsewhere. -/
theorem warnWhen_eq_or (applies : Prop) [Decidable applies] (c : Condition) (status : U32) :
    warnWhen (decide applies) c status = status ||| if applies then conditionMask c else 0#32 := by
  by_cases h : applies <;> simp [warnWhen, setCondition, h]

/-- R174: a sample whose two bytes the payload has. -/
theorem frameSample_of_getElem? {P : Params} {iq : List Byte} {k : Nat} {i q : Byte} (hi : iq[2 * k]? = some i)
    (hq : iq[2 * k + 1]? = some q) : frameSample P iq k = sampleOf P i q := by
  obtain ⟨hlt, -⟩ := List.getElem?_eq_some_iff.mp hq
  rw [frameSample, if_pos (by omega), List.getD_eq_getElem?_getD, List.getD_eq_getElem?_getD, hi, hq]
  rfl

/-- R174: past the payload the samples are zero. -/
theorem frameSample_of_le {iq : List Byte} {k : Nat} (P : Params) (hk : iq.length / 2 ≤ k) :
    frameSample P iq k = ⟨0#32, 0#32⟩ :=
  if_neg (Nat.not_lt.mpr hk)

/-- R173, R175: element `k` of the frame is coefficient `k` times sample `k`. -/
theorem windowFrame_getElem? {P : Params} {sp : SpecState} (iq : List Byte) {k : Nat} {w : F32}
    (hlength : sp.win.length = sp.N.toNat) (hw : sp.win[k]? = some w) :
    (windowFrame P sp iq)[k]? = some (weigh P w (frameSample P iq k)) := by
  obtain ⟨hlt, -⟩ := List.getElem?_eq_some_iff.mp hw
  simp [windowFrame, hlength ▸ hlt, hw]

/-- Settles O56. -/
theorem specWindowForms : Obligations.SpecWindowForms := by
  unfold Obligations.SpecWindowForms
  intro s iq hport hvalid hinv
  have hlength := hinv.win_length
  have hodd : (iq.length % 2 == 1) = decide (iq.length % 2 = 1) := rfl
  refine ⟨_, _, exec_specWindow iq hport hvalid hlength, rfl, by simp [windowFrame], fun k w i q hw hi hq => ?_,
    fun k w hw hk => ?_, ?_, rfl, rfl, ⟨rfl, rfl, rfl, rfl, rfl⟩, ⟨rfl, rfl⟩⟩
  · rw [windowFrame_getElem? iq hlength hw, frameSample_of_getElem? hi hq]
    rfl
  · rw [windowFrame_getElem? iq hlength hw, frameSample_of_le _ hk]
    rfl
  · simp only [finish_status, warn_status, hodd, warnWhen_eq_or]
    rfl

/-- Settles O58. `BAD_OPERAND` is bit 1 of `STATUS`. -/
theorem specMagdbLengthFaults : Obligations.SpecMagdbLengthFaults := by
  unfold Obligations.SpecMagdbLengthFaults
  intro s bins hport hvalid hlength
  have hcheck : (bins.length == s.sp.N.toNat) = false := beq_false_of_ne hlength
  exact onPort_require_require_of_false (i := .specMagdb bins) (s := s) (by simp [hport]) hvalid hcheck

end Sys2Proof.Machine
end

section
/-! Rounding to nearest (spec/00_scope.md R11): the rounded whole number is nearest and even at a tie, so is the rounded
magnitude among those of its format, and which rationals overflow binary32. -/

namespace Sys2Proof.Machine

/-! ## Whole numbers -/

/-- R11: no whole number is nearer to a quotient than its rounding, which is even where another is as near. -/
theorem roundHalfEven_nearest (num : Nat) {den : Nat} (hden : 0 < den) (k : Nat) :
    Int.natAbs ((roundHalfEven num den * den : Nat) - (num : Nat) : Int)
        ≤ Int.natAbs ((k * den : Nat) - (num : Nat) : Int)
      ∧ (Int.natAbs ((roundHalfEven num den * den : Nat) - (num : Nat) : Int)
          = Int.natAbs ((k * den : Nat) - (num : Nat) : Int) → roundHalfEven num den ≠ k →
        roundHalfEven num den % 2 = 0) := by
  have hnum : num / den * den + num % den = num := Nat.div_add_mod' num den
  have hrest := Nat.mod_lt num hden
  have hround : (roundHalfEven num den = num / den ∧ 2 * (num % den) ≤ den
        ∧ (2 * (num % den) = den → num / den % 2 = 0))
      ∨ (roundHalfEven num den = num / den + 1 ∧ den ≤ 2 * (num % den)
        ∧ (2 * (num % den) = den → num / den % 2 = 1)) := by
    simp only [roundHalfEven]
    split
    next h => exact .inr ⟨rfl, by omega, by omega⟩
    next h => exact .inl ⟨rfl, by omega, by omega⟩
  generalize num / den = q at *
  generalize num % den = r at *
  have hplace : (k < q ∧ k * den + den ≤ q * den) ∨ (k = q ∧ k * den = q * den)
      ∨ (k = q + 1 ∧ k * den = q * den + den) ∨ (q + 1 < k ∧ q * den + 2 * den ≤ k * den) := by
    rcases Nat.lt_trichotomy k q with hlt | rfl | hgt
    · exact .inl ⟨hlt, by rw [← Nat.succ_mul]; exact Nat.mul_le_mul_right _ hlt⟩
    · exact .inr (.inl ⟨rfl, rfl⟩)
    · rcases Nat.lt_or_ge (q + 1) k with hgt' | hle
      · exact .inr (.inr (.inr ⟨hgt', by rw [← Nat.add_mul]; exact Nat.mul_le_mul_right _ hgt'⟩))
      · obtain rfl : k = q + 1 := by omega
        exact .inr (.inr (.inl ⟨rfl, Nat.succ_mul q den⟩))
  rcases hround with ⟨heq, hhalf, htie⟩ | ⟨heq, hhalf, htie⟩
  · rw [heq]
    generalize q * den = qd at *
    generalize k * den = kd at *
    omega
  · rw [heq, Nat.succ_mul]
    generalize q * den = qd at *
    generalize k * den = kd at *
    omega

/-- R11: a quotient below a half past a whole number does not round past it. -/
theorem roundHalfEven_le_of_lt {num den q : Nat} (h : 2 * num < (2 * q + 1) * den) : roundHalfEven num den ≤ q := by
  have hnum := Nat.div_add_mod' num den
  have hquotient : num / den ≤ q := by
    by_contra hgt
    have hscaled : (q + 1) * den ≤ num / den * den := Nat.mul_le_mul_right _ (by omega)
    rw [Nat.add_mul, Nat.one_mul] at hscaled
    rw [Nat.add_mul, Nat.one_mul, Nat.mul_assoc] at h
    omega
  simp only [roundHalfEven]
  split
  next hup =>
    by_contra hpast
    obtain rfl : num / den = q := by omega
    rw [Nat.add_mul, Nat.one_mul, Nat.mul_assoc] at h
    omega
  next => exact hquotient

/-! ## Magnitudes -/

/-- R11: the encoding of a finite rounding is even where its significand is. -/
theorem roundMag_mod_two (f : Format) (hp : 2 ≤ f.prec) {num den : Nat} (hfinite : roundMag f num den < infBits f) :
    roundMag f num den % 2 = roundSig f num den % 2 := by
  have hpow : 2 ^ (f.prec - 1) = 2 ^ (f.prec - 2) * 2 := by
    rw [← Nat.pow_succ]
    congr 1
    omega
  rw [roundMag_eq] at hfinite ⊢
  rw [Nat.min_eq_left (by omega), hpow, ← Nat.mul_assoc, Nat.add_mul_mod_self_right]

/-- R11: a significand, below twice the hidden one, on a finer scale is less than the hidden one on the coarser. -/
theorem sig_lt_hidden {sig hidden e shift den : Nat} (hden : 0 < den) (hsig : sig < 2 * hidden) (he : e < shift) :
    sig * 2 ^ e * den < hidden * (den * 2 ^ shift) := by
  have hscale : 2 ^ shift = 2 * 2 ^ (shift - 1) := by
    rw [← Nat.pow_succ']
    congr 1
    omega
  have hpow : 2 ^ e ≤ 2 ^ (shift - 1) := Nat.pow_le_pow_right Nat.two_pos (by omega)
  calc sig * 2 ^ e * den ≤ sig * 2 ^ (shift - 1) * den := Nat.mul_le_mul_right _ (Nat.mul_le_mul_left _ hpow)
    _ < 2 * hidden * 2 ^ (shift - 1) * den :=
        Nat.mul_lt_mul_of_pos_right (Nat.mul_lt_mul_of_pos_right hsig (Nat.two_pow_pos _)) hden
    _ = hidden * (den * 2 ^ shift) := by rw [hscale]; ring

/-- R11: no magnitude of the format, a significand scaled, is nearer to a quotient than its rounding, and the encoding
of the rounding is even where another is as near. -/
theorem roundMag_nearest (f : Format) (hp : 2 ≤ f.prec) {num den sig e : Nat} (hden : 0 < den)
    (hfinite : roundMag f num den < infBits f) (hsig : sig < 2 * 2 ^ (f.prec - 1)) :
    Int.natAbs ((roundSig f num den * 2 ^ roundShift f num den * den : Nat) - (num * 2 ^ f.unit : Nat) : Int)
        ≤ Int.natAbs ((sig * 2 ^ e * den : Nat) - (num * 2 ^ f.unit : Nat) : Int)
      ∧ (Int.natAbs ((roundSig f num den * 2 ^ roundShift f num den * den : Nat) - (num * 2 ^ f.unit : Nat) : Int)
          = Int.natAbs ((sig * 2 ^ e * den : Nat) - (num * 2 ^ f.unit : Nat) : Int) →
        roundSig f num den * 2 ^ roundShift f num den ≠ sig * 2 ^ e → roundMag f num den % 2 = 0) := by
  have hgrid : 0 < den * 2 ^ roundShift f num den := Nat.mul_pos hden (Nat.two_pow_pos _)
  have hrounded : roundSig f num den * 2 ^ roundShift f num den * den
      = roundHalfEven (num * 2 ^ f.unit) (den * 2 ^ roundShift f num den) * (den * 2 ^ roundShift f num den) := by
    rw [roundSig]
    ring
  rw [hrounded, roundMag_mod_two f hp hfinite]
  rcases Nat.lt_or_ge e (roundShift f num den) with hlt | hge
  · -- A finer value lies below every multiple of the grid's step that the rounding chooses from.
    obtain ⟨-, hlow⟩ := quotient_range f (by omega) num den
    have hbelow := sig_lt_hidden hden hsig hlt
    have hreached : 2 ^ (f.prec - 1) * (den * 2 ^ roundShift f num den) ≤ num * 2 ^ f.unit := by
      have h := (Nat.le_div_iff_mul_le hden).mp (hlow (by omega))
      rw [Nat.pow_add] at h
      calc 2 ^ (f.prec - 1) * (den * 2 ^ roundShift f num den)
          = 2 ^ (f.prec - 1) * 2 ^ roundShift f num den * den := by ring
        _ ≤ num * 2 ^ f.unit := h
    obtain ⟨hnearest, -⟩ := roundHalfEven_nearest (num * 2 ^ f.unit) hgrid (2 ^ (f.prec - 1))
    exact ⟨by omega, by omega⟩
  · have hmultiple : sig * 2 ^ e = sig * 2 ^ (e - roundShift f num den) * 2 ^ roundShift f num den := by
      rw [Nat.mul_assoc, ← Nat.pow_add, Nat.sub_add_cancel hge]
    have hscaled : sig * 2 ^ e * den
        = sig * 2 ^ (e - roundShift f num den) * (den * 2 ^ roundShift f num den) := by
      rw [hmultiple]
      ring
    obtain ⟨hnearest, heven⟩ := roundHalfEven_nearest (num * 2 ^ f.unit) hgrid (sig * 2 ^ (e - roundShift f num den))
    rw [hscaled]
    refine ⟨hnearest, fun htie hne => heven htie fun heq => hne ?_⟩
    rw [hmultiple, roundSig, heq]

/-! ## binary32 -/

/-- R11: binary32 rounds to infinity exactly from `2^128 - 2^103` on, half a unit past its largest value. -/
theorem roundMag_binary32_eq_infBits_iff {num den : Nat} (hden : 0 < den) :
    roundMag binary32 num den = infBits binary32 ↔ (2 ^ 128 - 2 ^ 103) * den ≤ num := by
  constructor
  · intro hinf
    by_contra hlt
    rw [Nat.not_le] at hlt
    obtain ⟨-, hlow⟩ := quotient_range binary32 (by decide) num den
    have hsig : roundSig binary32 num den ≤ 2 ^ 24 := (roundSig_range binary32 (by decide) num den).1
    have hscaled : num * 2 ^ 149 < (2 ^ 25 - 1) * 2 ^ 252 * den := by omega
    have hshift : roundShift binary32 num den ≤ 253 := by
      by_contra hgt
      have hreached : 2 ^ (binary32.prec - 1 + 254) ≤ num * 2 ^ 149 / den :=
        le_trans (Nat.pow_le_pow_right Nat.two_pos (by omega)) (hlow (by omega))
      have h := (Nat.le_div_iff_mul_le hden).mp hreached
      simp only [binary32] at h
      omega
    have hfinite : roundSig binary32 num den + roundShift binary32 num den * 2 ^ 23 < 255 * 2 ^ 23 := by
      rcases Nat.lt_or_ge (roundShift binary32 num den) 253 with hlt' | hge
      · omega
      · have heq : roundShift binary32 num den = 253 := by omega
        have htop : roundSig binary32 num den ≤ 2 ^ 24 - 1 := by
          rw [roundSig, heq]
          refine roundHalfEven_le_of_lt ?_
          simp only [binary32]
          omega
        omega
    have hmag : roundMag binary32 num den ≤ roundSig binary32 num den + roundShift binary32 num den * 2 ^ 23 :=
      Nat.min_le_left _ _
    have hbits : infBits binary32 = 255 * 2 ^ 23 := by decide
    omega
  · intro hle
    have htop : roundMag binary32 (2 ^ 128 - 2 ^ 103) 1 = infBits binary32 := by decide +kernel
    refine Nat.le_antisymm (roundMag_le _ _ _) ?_
    rw [← htop]
    exact roundMag_mono binary32 (by decide) Nat.one_pos hden (by omega)

/-- Settles O60. -/
theorem roundingToNearestEven : Obligations.RoundingToNearestEven := by
  unfold Obligations.RoundingToNearestEven
  intro num den hden
  have hoverflow := roundMag_binary32_eq_infBits_iff (num := num) hden
  refine ⟨hoverflow.symm, fun hbelow => ?_⟩
  have hfinite : roundMag binary32 num den < infBits binary32 :=
    lt_of_le_of_ne (roundMag_le _ _ _) fun h => absurd (hoverflow.mp h) (Nat.not_le.mpr hbelow)
  refine ⟨roundSig binary32 num den * 2 ^ roundShift binary32 num den, ?_, fun x k hx => ?_⟩
  · have hbits := infBits_lt binary32 (by decide)
    rw [val32, BitVec.toNat_ofNat, Nat.mod_eq_of_lt (lt_trans (lt_trans hfinite hbits) (by decide))]
    exact exactOf_roundMag binary32 (by decide) hfinite
  · obtain ⟨-, sig, e, rfl, hsig, -⟩ := exactOf_fin_sig binary32 hx
    exact roundMag_nearest binary32 (by decide) hden hfinite hsig

end Sys2Proof.Machine
end

section
/-! The phase of two samples and the output sample (spec/41_demod.md R143, R144, R149, R150, R156): operations in which
nothing is lost, products and sums of samples, and values kept between two bounds. -/

namespace Sys2Proof.Machine

/-! ## Encodings and their values -/

/-- R65: the encoding of a finite magnitude is a significand with the hidden one above an exponent. -/
theorem exists_sig_of_lt_infBits (f : Format) (hp : 0 < f.prec) {x : Nat} (hx : x < infBits f) :
    ∃ sig e, x = sig + e * 2 ^ (f.prec - 1) ∧ sig < 2 ^ f.prec ∧ (0 < e → 2 ^ (f.prec - 1) ≤ sig)
      ∧ exactOf f x = .fin false (sig * 2 ^ e) (2 ^ f.unit) := by
  have hpow : 2 ^ f.prec = 2 * 2 ^ (f.prec - 1) := by rw [← Nat.pow_succ', Nat.succ_eq_add_one, Nat.sub_add_cancel hp]
  have hrest := Nat.mod_lt x (Nat.two_pow_pos (f.prec - 1))
  have hsplit := Nat.div_add_mod' x (2 ^ (f.prec - 1))
  have hparts : ∃ sig e, x = sig + e * 2 ^ (f.prec - 1) ∧ sig < 2 ^ f.prec ∧ (0 < e → 2 ^ (f.prec - 1) ≤ sig) := by
    cases hq : x / 2 ^ (f.prec - 1) with
    | zero =>
      rw [hq] at hsplit
      exact ⟨x, 0, by omega, by omega, by omega⟩
    | succ e =>
      rw [hq, Nat.succ_mul] at hsplit
      exact ⟨2 ^ (f.prec - 1) + x % 2 ^ (f.prec - 1), e, by omega, by omega, fun _ => Nat.le_add_right _ _⟩
  obtain ⟨sig, e, rfl, hsig, hhidden⟩ := hparts
  exact ⟨sig, e, rfl, hsig, hhidden, exactOf_sig f hp hsig.le hhidden hx⟩

/-- R11: a value of the format drops its exponent's bits and no more. -/
theorem roundShift_of_sig (f : Format) (hp : 0 < f.prec) {sig e : Nat} (hsig : sig < 2 ^ f.prec)
    (hhidden : 0 < e → 2 ^ (f.prec - 1) ≤ sig) : roundShift f (sig * 2 ^ e) (2 ^ f.unit) = e := by
  rw [roundShift, Nat.mul_div_cancel _ (Nat.two_pow_pos _)]
  cases e with
  | zero =>
    have hlog : Nat.log2 sig < f.prec := by
      by_cases hzero : sig = 0
      · rw [hzero, Nat.log2_zero]
        exact hp
      · exact (Nat.log2_lt hzero).mpr hsig
    rw [Nat.pow_zero, Nat.mul_one]
    omega
  | succ e =>
    have hlow := hhidden (Nat.succ_pos e)
    have hpos : 0 < sig := lt_of_lt_of_le (Nat.two_pow_pos _) hlow
    have hlog : Nat.log2 (sig * 2 ^ (e + 1)) = f.prec - 1 + (e + 1) := by
      rw [Nat.log2_eq_iff (Nat.mul_pos hpos (Nat.two_pow_pos _)).ne']
      constructor
      · rw [Nat.pow_add]
        exact Nat.mul_le_mul_right _ hlow
      · rw [show f.prec - 1 + (e + 1) + 1 = f.prec + (e + 1) by omega, Nat.pow_add 2 f.prec]
        exact Nat.mul_lt_mul_of_pos_right hsig (Nat.two_pow_pos _)
    rw [hlog]
    omega

/-- R11: a value of the format rounds to its own encoding. -/
theorem roundMag_of_exactOf (f : Format) (hp : 0 < f.prec) {x k : Nat} (hx : x < infBits f)
    (hval : exactOf f x = .fin false k (2 ^ f.unit)) : roundMag f k (2 ^ f.unit) = x := by
  obtain ⟨sig, e, rfl, hsig, hhidden, hval'⟩ := exists_sig_of_lt_infBits f hp hx
  obtain rfl : sig * 2 ^ e = k := by
    rw [hval', Exact.fin.injEq] at hval
    exact hval.2.1
  have hscaled : sig * 2 ^ e * 2 ^ f.unit = sig * (2 ^ f.unit * 2 ^ e) := by ring
  rw [roundMag_eq, roundSig, roundShift_of_sig f hp hsig hhidden, hscaled,
    roundHalfEven_mul _ (Nat.mul_pos (Nat.two_pow_pos _) (Nat.two_pow_pos _)), Nat.min_eq_left hx.le]

/-- R65: the encoding of a finite nonnegative binary32 value lies below infinity's. -/
theorem toNat_lt_of_val32 {x : F32} {k d : Nat} (hval : val32 x = .fin false k d) : x.toNat < infBits binary32 := by
  have hx := x.isLt
  have hbits : infBits binary32 = 255 * 2 ^ 23 := by decide
  unfold val32 exactOf at hval
  simp only [binary32, Nat.testBit_eq_decide_div_mod_eq] at hval
  split at hval
  · split at hval <;> cases hval
  · split at hval <;> simp only [Exact.fin.injEq, decide_eq_false_iff_not] at hval <;> omega

/-- R11: the exact value of an encoding rounds to that encoding. -/
theorem fl32_of_val32 (nan : F32) {x : F32} {s : Bool} {k num den : Nat} (hval : val32 x = .fin s k (2 ^ 149))
    (hden : 0 < den) (heq : num * 2 ^ 149 = k * den) : fl32 nan (.fin s num den) = x := by
  have hnonneg (y : F32) (hy : val32 y = .fin false k (2 ^ 149)) : fl32 nan (.fin false num den) = y := by
    have hround : roundMag binary32 num den = y.toNat := by
      rw [roundMag_congr binary32 (by decide) hden (Nat.two_pow_pos 149) heq]
      exact roundMag_of_exactOf binary32 (by decide) (toNat_lt_of_val32 hy) hy
    rw [fl32, fl_fin_false, hround, BitVec.ofNat_toNat, BitVec.setWidth_eq]
  cases s with
  | false => exact hnonneg x hval
  | true =>
    have hneg : val32 (f32Neg x) = .fin false k (2 ^ 149) := by rw [val32_f32Neg, hval, exactNeg, Bool.not_true]
    have h := fl32_not nan false num den
    rw [hnonneg _ hneg, f32Neg_f32Neg] at h
    exact h

/-! ## Operations in which nothing is lost -/

/-- R11: a product with 1 is the other factor. -/
theorem f32Mul_one (P : Params) {x : F32} {s : Bool} {k : Nat} (hval : val32 x = .fin s k (2 ^ 149)) :
    f32Mul P x oneF32 = x := by
  have hexact : exactMul (val32 x) (val32 oneF32) = .fin s (k * 2 ^ 149) (2 ^ 149 * 2 ^ 149) := by
    rw [hval, val32_oneF32, exactMul, Bool.bne_false]
  rw [f32Mul, hexact]
  exact fl32_of_val32 _ hval (by decide) (Nat.mul_assoc ..)

/-- R11: a product with `+0.0` is a zero of the other factor's sign. -/
theorem val32_f32Mul_zero (P : Params) {x : F32} {s : Bool} {k : Nat} (hval : val32 x = .fin s k (2 ^ 149)) :
    val32 (f32Mul P x 0#32) = .fin s 0 (2 ^ 149) := by
  have hexact : exactMul (val32 x) (val32 0#32) = .fin s 0 (2 ^ 149 * 2 ^ 149) := by
    rw [hval, val32_zero, exactMul, Bool.bne_false, Nat.mul_zero]
  rw [f32Mul, hexact]
  exact val32_fl32_of_eq _ s (sig := 0) (e := 0) (by decide) (by decide) (by decide) (by decide)

/-- R11: the sum of a number that is no zero and a zero is the number. -/
theorem exactAdd_fin_zero (s t : Bool) {k d : Nat} (hk : 0 < k) (hd : 0 < d) :
    exactAdd (.fin s k d) (.fin t 0 d) = .fin s (k * d) (d * d) := by
  cases s <;> cases t <;> simp [exactAdd, Nat.mul_pos hk hd]

/-- R11: adding or subtracting a zero gives a number back that is no zero. -/
theorem f32Add_f32Sub_zero (P : Params) {x z : F32} {s t : Bool} {k : Nat} (hx : val32 x = .fin s k (2 ^ 149))
    (hk : 0 < k) (hz : val32 z = .fin t 0 (2 ^ 149)) : f32Add P x z = x ∧ f32Sub P x z = x := by
  rw [f32Add, f32Sub, hx, hz, exactNeg, exactAdd_fin_zero s t hk (by decide), exactAdd_fin_zero s (!t) hk (by decide)]
  exact ⟨fl32_of_val32 _ hx (by decide) (Nat.mul_assoc ..), fl32_of_val32 _ hx (by decide) (Nat.mul_assoc ..)⟩

/-- Settles O47: the factors 1 and `+0.0` of `1 + 0j` change nothing, as no component of a sample is zero. -/
theorem firstDifferenceIsSample : Obligations.FirstDifferenceIsSample := by
  unfold Obligations.FirstDifferenceIsSample
  intro P i q h
  obtain ⟨k, hk, -, hi⟩ := val32_conv h i
  obtain ⟨m, hm, -, hq⟩ := val32_conv h q
  have hre : f32Add P (f32Mul P (conv P i) oneF32) (f32Mul P (conv P q) 0#32) = conv P i := by
    rw [f32Mul_one P hi]
    exact (f32Add_f32Sub_zero P hi (by omega) (val32_f32Mul_zero P hq)).1
  have him : f32Sub P (f32Mul P (conv P q) oneF32) (f32Mul P (conv P i) 0#32) = conv P q := by
    rw [f32Mul_one P hq]
    exact (f32Add_f32Sub_zero P hq (by omega) (val32_f32Mul_zero P hi)).2
  exact congrArg₂ CF32.mk hre him

/-! ## Two equal samples -/

/-- R11: the product of two numbers does not depend on their order. -/
theorem exactMul_fin_comm (s t : Bool) (m n d e : Nat) :
    exactMul (.fin s m d) (.fin t n e) = exactMul (.fin t n e) (.fin s m d) := by
  cases s <;> cases t <;> simp [exactMul, Nat.mul_comm]

/-- R142: the product of two converted bytes is a number of magnitude from `2^-16` to 1, of the product of the signs. -/
theorem val32_f32Mul_conv {P : Params} (h : P.sourceLiterals = true) (u v : Byte) :
    ∃ k, 2 ^ 133 ≤ k ∧ k ≤ 2 ^ 149 ∧ val32 (f32Mul P (conv P u) (conv P v))
      = .fin (decide (u.toNat < 128) != decide (v.toNat < 128)) k (2 ^ 149) := by
  obtain ⟨m, hmlo, hmhi, hm⟩ := val32_conv h u
  obtain ⟨n, hnlo, hnhi, hn⟩ := val32_conv h v
  have hlo : 2 ^ 141 * 2 ^ 141 ≤ m * n := Nat.mul_le_mul hmlo hnlo
  have hhi : m * n ≤ 2 ^ 149 * 2 ^ 149 := Nat.mul_le_mul hmhi hnhi
  rw [f32Mul, hm, hn, exactMul]
  exact val32_between _ _ (a := 1) (b := 2 ^ 16) (c := 1) (d := 1) (by decide) (by decide) Nat.one_pos (by omega)
    (by omega) (by decide +kernel) (by decide +kernel) (by decide +kernel)

/-- R142: products of converted bytes do not depend on the order. -/
theorem f32Mul_conv_comm {P : Params} (h : P.sourceLiterals = true) (u v : Byte) :
    f32Mul P (conv P u) (conv P v) = f32Mul P (conv P v) (conv P u) := by
  obtain ⟨m, -, -, hm⟩ := val32_conv h u
  obtain ⟨n, -, -, hn⟩ := val32_conv h v
  rw [f32Mul, f32Mul, hm, hn, exactMul_fin_comm]
  exact fl32_congr _ _ (by simp [exactMul])

/-- R11: a number less itself is `+0.0`. -/
theorem f32Sub_self (P : Params) {x : F32} {s : Bool} {k : Nat} (hval : val32 x = .fin s k (2 ^ 149)) :
    f32Sub P x x = 0#32 := by
  have hexact : exactAdd (val32 x) (exactNeg (val32 x)) = .fin false 0 (2 ^ 149 * 2 ^ 149) := by
    rw [hval]
    cases s <;> simp [exactAdd, exactNeg]
  rw [f32Sub, hexact]
  exact fl32_of_val32 _ val32_zero (by decide) (by decide)

/-- R143: a sample times its own conjugate is positive, and real. -/
theorem cmulConj_self {P : Params} (h : P.sourceLiterals = true) (i q : Byte) :
    f32Lt 0#32 (cmulConj P (sampleOf P i q) (sampleOf P i q)).re = true
      ∧ (cmulConj P (sampleOf P i q) (sampleOf P i q)).im = 0#32 := by
  obtain ⟨m, hmlo, hmhi, hm⟩ := val32_f32Mul_conv h i i
  obtain ⟨n, hnlo, hnhi, hn⟩ := val32_f32Mul_conv h q q
  obtain ⟨p, -, -, hp⟩ := val32_f32Mul_conv h i q
  rw [bne_self_eq_false] at hm hn
  constructor
  · have hsum : ∃ k, 2 ^ 133 ≤ k ∧ k ≤ 2 ^ 150
        ∧ val32 (f32Add P (f32Mul P (conv P i) (conv P i)) (f32Mul P (conv P q) (conv P q)))
          = .fin false k (2 ^ 149) := by
      rw [f32Add, hm, hn, exactAdd]
      exact val32_between _ _ (a := 1) (b := 2 ^ 16) (c := 2) (d := 1) (by decide) (by decide) Nat.one_pos (by omega)
        (by omega) (by decide +kernel) (by decide +kernel) (by decide +kernel)
    obtain ⟨k, hk, -, hval⟩ := hsum
    show exactLt (val32 0#32)
      (val32 (f32Add P (f32Mul P (conv P i) (conv P i)) (f32Mul P (conv P q) (conv P q)))) = true
    rw [hval, val32_zero, exactLt_fin_iff (by decide)]
    simp
    omega
  · show f32Sub P (f32Mul P (conv P q) (conv P i)) (f32Mul P (conv P i) (conv P q)) = 0#32
    rw [f32Mul_conv_comm h q i]
    exact f32Sub_self P hp

/-- Settles O48: the product is positive and real, where `ATAN2` gives its zero. -/
theorem equalSamplesHaveZeroPhase : Obligations.EqualSamplesHaveZeroPhase := by
  unfold Obligations.EqualSamplesHaveZeroPhase
  intro P i q h
  obtain ⟨hre, him⟩ := cmulConj_self h i q
  simp only [phaseStep, him]
  rw [atan2, hre]
  rfl

/-! ## Values kept between two bounds -/

/-- R10: a clamped value is neither below the one bound nor above the other. -/
theorem f32Clamp_range (v : F32) {lo hi : F32} (h : f32Lt hi lo = false) :
    f32Lt (f32Clamp v lo hi) lo = false ∧ f32Lt hi (f32Clamp v lo hi) = false := by
  unfold f32Clamp
  split
  · exact ⟨exactLt_irrefl _, h⟩
  next hlo =>
    split
    · exact ⟨h, exactLt_irrefl _⟩
    next hhi => exact ⟨by simpa using hlo, by simpa using hhi⟩

/-- R10: what is clamped between numbers is one, where it was one. -/
theorem f32Clamp_not_nan {v lo hi : F32} (hv : f32IsNaN v = false) (hlo : f32IsNaN lo = false)
    (hhi : f32IsNaN hi = false) : f32IsNaN (f32Clamp v lo hi) = false := by
  unfold f32Clamp
  split
  · exact hlo
  · split
    · exact hhi
    · exact hv

/-- R144: a number between `-fl32(π)` and `fl32(π)`. -/
def WithinPi (x : F32) : Prop :=
  f32IsNaN x = false ∧ f32Lt x (f32Neg piF32) = false ∧ f32Lt piF32 x = false

/-- R144: the model's bound keeps every result between them. -/
theorem withinPi_within (r : F32) : WithinPi (withinPi r) := by
  unfold withinPi
  split
  · unfold WithinPi
    decide +kernel
  next hr =>
    exact ⟨f32Clamp_not_nan (by simpa using hr) (by decide +kernel) (by decide +kernel),
      f32Clamp_range r (by decide +kernel)⟩

/-- R144: so is every result of `ATAN2`, a zero and `fl32(π)` of either sign among them. -/
theorem atan2_within (P : Params) (y x : F32) : WithinPi (atan2 P y x) := by
  unfold atan2
  split
  next hzero =>
    rw [Bool.and_eq_true, f32IsZero, Bool.or_eq_true, beq_iff_eq, beq_iff_eq] at hzero
    unfold WithinPi
    rcases hzero with ⟨rfl | rfl, -⟩ <;> decide +kernel
  · split
    · unfold WithinPi
      split <;> decide +kernel
    · exact withinPi_within _

/-- Settles O49. -/
theorem phaseWithinPi : Obligations.PhaseWithinPi := by
  unfold Obligations.PhaseWithinPi
  intro P im re
  obtain ⟨hnan, hlower, hupper⟩ := atan2_within P im re
  refine ⟨hnan, hlower, hupper, ?_, ?_⟩
  · rintro rfl hpositive
    rw [atan2, hpositive]
    rfl
  · rintro rfl hnegative
    have hnot : f32Lt 0#32 re = false := exactLt_asymm hnegative
    rw [atan2, hnot, hnegative]
    rfl

/-- R150: a value between whole numbers of units truncates to a whole number between them. -/
theorem exactTrunc_range {s : Bool} {k d lo hi : Nat} (hlo : signedMag true (lo * d) ≤ signedMag s k)
    (hhi : signedMag s k ≤ signedMag false (hi * d)) :
    ∃ n : Int, exactTrunc (.fin s k d) = some n ∧ -lo ≤ n ∧ n ≤ hi := by
  refine ⟨_, rfl, ?_⟩
  cases s with
  | false =>
    have hle : k / d ≤ hi := Nat.div_le_of_le_mul (by rw [Nat.mul_comm]; exact Int.ofNat_le.mp hhi)
    generalize k / d = n at *
    exact ⟨by simp, by simpa using hle⟩
  | true =>
    have hle : k / d ≤ lo :=
      Nat.div_le_of_le_mul (by rw [Nat.mul_comm]; exact Int.ofNat_le.mp (Int.neg_le_neg_iff.mp hlo))
    generalize k / d = n at *
    exact ⟨by simpa using hle, by simp⟩

/-- Settles O50. -/
theorem quantisedSampleFits : Obligations.QuantisedSampleFits := by
  unfold Obligations.QuantisedSampleFits
  intro P y hnumber
  have hmin : val32 outMin = .fin true (32768 * 2 ^ 149) (2 ^ 149) := by decide +kernel
  have hmax : val32 outMax = .fin false (32767 * 2 ^ 149) (2 ^ 149) := by decide +kernel
  have hnan : f32IsNaN (gainClamp P y) = false := f32Clamp_not_nan hnumber (by decide +kernel) (by decide +kernel)
  obtain ⟨hlower, hupper⟩ := f32Clamp_range (f32Mul P y P.gain) (lo := outMin) (hi := outMax) (by decide +kernel)
  change exactLt (val32 (gainClamp P y)) (val32 outMin) = false at hlower
  change exactLt (val32 outMax) (val32 (gainClamp P y)) = false at hupper
  rw [hmin] at hlower
  rw [hmax] at hupper
  obtain ⟨s, k, hval, hlo, hhi⟩ := exact_fin_of_between (by decide) (val32_cases _)
    (by simpa [f32IsNaN] using hnan) hlower hupper
  obtain ⟨n, htrunc, hnlo, hnhi⟩ := exactTrunc_range hlo hhi
  rw [← hval] at htrunc
  refine ⟨n, htrunc, hnlo, hnhi, ?_⟩
  rw [quantise, htrunc]
  exact BitVec.toInt_ofInt_eq_self (by decide) (by omega) (by omega)

end Sys2Proof.Machine
end

section
/-! The magnitude of a bin in dB (spec/42_spectrum.md R177, R179): the binary64 power of a bin, from the squares of its
components, and what its logarithm can be. -/

namespace Sys2Proof.Machine

/-! ## Components -/

/-- The square of a component, in binary64 (R177). -/
def square64 (x : F32) : F64 := f64Mul (f64OfF32 x) (f64OfF32 x)

/-- The power of a bin, in binary64 (R177). -/
def binPower (re im : F32) : F64 := f64Add (square64 re) (square64 im)

/-- R65: a finite binary32 magnitude lies below `2^128`. -/
theorem val32_lt {x : F32} {s : Bool} {k : Nat} (hval : val32 x = .fin s k (2 ^ 149)) : k < 2 ^ 128 * 2 ^ 149 := by
  have hnonneg (y : F32) (hy : val32 y = .fin false k (2 ^ 149)) : k < 2 ^ 128 * 2 ^ 149 := by
    have hmax : exactOf binary32 (infBits binary32 - 1) = .fin false ((2 ^ 24 - 1) * 2 ^ 253) (2 ^ 149) := by
      decide +kernel
    have hle : y.toNat ≤ infBits binary32 - 1 := Nat.le_sub_one_of_lt (toNat_lt_of_val32 hy)
    obtain ⟨a, b, ha, hb, hab⟩ := exactOf_mono binary32 (by decide) hle (by decide)
    rw [hmax, Exact.fin.injEq] at hb
    rw [← val32, hy, Exact.fin.injEq] at ha
    omega
  cases s with
  | false => exact hnonneg x hval
  | true => exact hnonneg (f32Neg x) (by rw [val32_f32Neg, hval, exactNeg, Bool.not_true])

/-- R65: an encoding with exponent field 0 is its fraction in smallest units. -/
theorem val32_of_subnormal {x : F32} (h : x.toNat % 2 ^ 31 < 2 ^ 23) :
    ∃ s k, k ≤ 2 ^ 23 - 1 ∧ val32 x = .fin s k (2 ^ 149) := by
  have hfield : x.toNat / 8388608 % 256 = 0 := by omega
  refine ⟨x.toNat.testBit 31, x.toNat % 2 ^ 23, by omega, ?_⟩
  simp [val32, exactOf, binary32, hfield]

/-- R65: a finite encoding has a finite value. -/
theorem val32_of_isFinite {x : F32} (h : f32IsFinite x = true) : ∃ s k, val32 x = .fin s k (2 ^ 149) := by
  rcases val32_cases x with hval | ⟨s, hval⟩ | hfin
  · simp [f32IsFinite, hval] at h
  · simp [f32IsFinite, hval] at h
  · exact hfin

/-- R65: an encoding that is finite is a number. -/
theorem f32IsNaN_of_val32 {x : F32} {s : Bool} {k d : Nat} (hval : val32 x = .fin s k d) : f32IsNaN x = false := by
  simp [f32IsNaN, hval]

/-- R65: an encoding that is neither zero has another value. -/
theorem pos_of_isZero_eq_false {x : F32} {s : Bool} {k : Nat} (hval : val32 x = .fin s k (2 ^ 149))
    (h : f32IsZero x = false) : 0 < k := by
  rcases Nat.eq_zero_or_pos k with rfl | hpos
  · have hx : fl32 0#32 (.fin s 0 (2 ^ 149)) = x := fl32_of_val32 _ hval (by decide) rfl
    rw [← hx] at h
    cases s <;> revert h <;> decide +kernel
  · exact hpos

/-! ## Squares -/

/-- R11: binary64 rounds a number of at most `c·2^-j`, where that is a value of it, to one of at most that. -/
theorem val64_fl64_of_le (s : Bool) {num den c j : Nat} (hc : c < 2 ^ 53) (hj : j ≤ binary64.unit) (hden : 0 < den)
    (hle : num * 2 ^ j ≤ c * den) :
    ∃ k, k * 2 ^ j ≤ c * 2 ^ binary64.unit ∧ val64 (fl64 (.fin s num den)) = .fin s k (2 ^ binary64.unit) := by
  have hsplit : 2 ^ (binary64.unit - j) * 2 ^ j = 2 ^ binary64.unit := by rw [← Nat.pow_add, Nat.sub_add_cancel hj]
  have hjpos := Nat.two_pow_pos j
  have hcj : c * 1 ≤ 2 ^ 53 * 2 ^ j := Nat.mul_le_mul hc.le hjpos
  have hbelow : roundMag binary64 c (2 ^ j) < infBits binary64 :=
    lt_of_le_of_lt (roundMag_mono binary64 (by decide) hjpos Nat.one_pos hcj)
      (by decide +kernel : roundMag binary64 (2 ^ 53) 1 < infBits binary64)
  obtain ⟨k, -, hk, hval⟩ := val64_between s (a := 0) (b := 1) (lo := 0) hden Nat.one_pos hjpos
    (by rw [Nat.zero_mul]; exact Nat.zero_le _) hle hbelow (by decide +kernel)
    (exactOf_roundMag_of_eq binary64 (by decide) hjpos (sig := c) (e := binary64.unit - j) hc
      (by rw [Nat.mul_assoc, hsplit]) hbelow)
  refine ⟨k, ?_, hval⟩
  rw [← hsplit, ← Nat.mul_assoc]
  exact Nat.mul_le_mul_right _ hk

/-- R179: the square of an infinite component is infinite. -/
theorem val64_square64_inf {x : F32} {s : Bool} (hval : val32 x = .inf s) : val64 (square64 x) = .inf false := by
  have hwide : val64 (f64OfF32 x) = .inf s := by rw [f64OfF32, hval, val64_fl64_inf]
  rw [square64, f64Mul, hwide, exactMul, bne_self_eq_false, val64_fl64_inf]

/-- R179: the square of a component that is a number is no negative one. -/
theorem val64_square64_cases {x : F32} (hnumber : f32IsNaN x = false) :
    val64 (square64 x) = .inf false ∨ ∃ n, val64 (square64 x) = .fin false n (2 ^ binary64.unit) := by
  rcases val32_cases x with hval | ⟨s, hval⟩ | ⟨s, k, hval⟩
  · simp [f32IsNaN, hval] at hnumber
  · exact .inl (val64_square64_inf hval)
  · have hwide := val64_fl64 s k (2 ^ 149)
    rw [← hval] at hwide
    change val64 (f64OfF32 x) = _ ∨ ∃ m, val64 (f64OfF32 x) = _ at hwide
    rcases hwide with hinf | ⟨m, hfin⟩
    · exact .inl (by rw [square64, f64Mul, hinf, exactMul, bne_self_eq_false, val64_fl64_inf])
    · rw [square64, f64Mul, hfin, exactMul, bne_self_eq_false]
      exact val64_fl64 false _ _

/-- R177: the square of a number of scaled units. -/
theorem mul_self_scaled (m j : Nat) : m * m * 2 ^ (j + j) = m * 2 ^ j * (m * 2 ^ j) := by
  rw [Nat.pow_add]
  ring

/-- R177: the square of a component of at most `c·2^-149`. -/
theorem val64_square64_of_le {x : F32} {s : Bool} {k c : Nat} (hval : val32 x = .fin s k (2 ^ 149)) (hk : k ≤ c)
    (hc : c * c < 2 ^ 53) :
    ∃ n, n * 2 ^ (149 + 149) ≤ c * c * 2 ^ binary64.unit ∧ val64 (square64 x) = .fin false n (2 ^ binary64.unit) := by
  have hunit := Nat.two_pow_pos binary64.unit
  have hc' : c < 2 ^ 53 := lt_of_le_of_lt (Nat.le_mul_self c) hc
  obtain ⟨m, hm, hwide⟩ := val64_fl64_of_le s (num := k) (den := 2 ^ 149) (j := 149) hc' (by decide) (by decide)
    (Nat.mul_le_mul_right _ hk)
  have hsquare : m * m * 2 ^ (149 + 149) ≤ c * c * (2 ^ binary64.unit * 2 ^ binary64.unit) := by
    generalize 2 ^ binary64.unit = u at *
    calc m * m * 2 ^ (149 + 149) = m * 2 ^ 149 * (m * 2 ^ 149) := mul_self_scaled m 149
      _ ≤ c * u * (c * u) := Nat.mul_le_mul hm hm
      _ = c * c * (u * u) := by ring
  rw [square64, f64Mul, f64OfF32, hval, hwide, exactMul, bne_self_eq_false]
  exact val64_fl64_of_le false hc (by decide) (Nat.mul_pos hunit hunit) hsquare

/-- R177: the square of a finite component that is no zero lies between `2^-298` and `2^256`. -/
theorem val64_square64_of_pos {x : F32} {s : Bool} {k : Nat} (hval : val32 x = .fin s k (2 ^ 149)) (hk : 0 < k) :
    ∃ n, 2 ^ binary64.unit ≤ n * 2 ^ (149 + 149) ∧ n ≤ 2 ^ 256 * 2 ^ binary64.unit
      ∧ val64 (square64 x) = .fin false n (2 ^ binary64.unit) := by
  have hunit := Nat.two_pow_pos binary64.unit
  obtain ⟨m, hmlo, hmhi, hwide⟩ := val64_fl64_of_between s (num := k) (den := 2 ^ 149) (i := 128) (j := 149)
    (by decide) (by decide) (by decide) (by omega) (val32_lt hval).le
  have hlo : 2 ^ binary64.unit * 2 ^ binary64.unit ≤ m * m * 2 ^ (149 + 149) := by
    generalize 2 ^ binary64.unit = u at *
    calc u * u ≤ m * 2 ^ 149 * (m * 2 ^ 149) := Nat.mul_le_mul hmlo hmlo
      _ = m * m * 2 ^ (149 + 149) := (mul_self_scaled m 149).symm
  have hhi : m * m ≤ 2 ^ 256 * (2 ^ binary64.unit * 2 ^ binary64.unit) := by
    generalize 2 ^ binary64.unit = u at *
    calc m * m ≤ 2 ^ 128 * u * (2 ^ 128 * u) := Nat.mul_le_mul hmhi hmhi
      _ = 2 ^ 256 * (u * u) := by ring
  rw [square64, f64Mul, f64OfF32, hval, hwide, exactMul, bne_self_eq_false]
  exact val64_fl64_of_between false (by decide) (by decide) (Nat.mul_pos hunit hunit) hlo hhi

/-- A whole number that is at most zero in scaled units is zero. -/
theorem eq_zero_of_scaled_le {n c j u : Nat} (h : n * 2 ^ j ≤ c * u) (hc : c = 0) : n = 0 := by simpa [hc] using h

/-- R177: the square of a finite component: zero for a zero, and else at least `2^-298`. -/
theorem val64_square64_fin {x : F32} {s : Bool} {k : Nat} (hval : val32 x = .fin s k (2 ^ 149)) :
    ∃ n, val64 (square64 x) = .fin false n (2 ^ binary64.unit) ∧ n ≤ 2 ^ 256 * 2 ^ binary64.unit ∧ (k = 0 → n = 0)
      ∧ (0 < k → 2 ^ binary64.unit ≤ n * 2 ^ (149 + 149)) := by
  rcases Nat.eq_zero_or_pos k with rfl | hk
  · obtain ⟨n, hn, hsquare⟩ := val64_square64_of_le hval (Nat.le_refl 0) (by decide)
    have hzero := eq_zero_of_scaled_le hn rfl
    exact ⟨n, hsquare, hzero ▸ Nat.zero_le _, fun _ => hzero, fun h => absurd h (lt_irrefl 0)⟩
  · obtain ⟨n, hlo, hhi, hsquare⟩ := val64_square64_of_pos hval hk
    exact ⟨n, hsquare, hhi, fun h => absurd h hk.ne', fun _ => hlo⟩

/-- R65: an encoding that is neither finite nor no number is an infinity. -/
theorem val32_of_infinite {x : F32} (hnumber : f32IsNaN x = false) (h : f32IsFinite x = false) :
    ∃ s, val32 x = .inf s := by
  rcases val32_cases x with hval | hinf | ⟨s, k, hval⟩
  · simp [f32IsNaN, hval] at hnumber
  · exact hinf
  · simp [f32IsFinite, hval] at h

/-! ## The power -/

/-- R177: the power of a bin as one rounding of the sum of its squares. -/
theorem binPower_eq {re im : F32} {a b u : Nat} (ha : val64 (square64 re) = .fin false a u)
    (hb : val64 (square64 im) = .fin false b u) : binPower re im = fl64 (.fin false (a * u + b * u) (u * u)) := by
  rw [binPower, f64Add, ha, hb, exactAdd, if_pos rfl]

/-- R179: a bin of zeros has the power zero. -/
theorem val64_binPower_zero {re im : F32} {s t : Bool} (hre : val32 re = .fin s 0 (2 ^ 149))
    (him : val32 im = .fin t 0 (2 ^ 149)) : val64 (binPower re im) = .fin false 0 (2 ^ binary64.unit) := by
  have hunit := Nat.two_pow_pos binary64.unit
  obtain ⟨a, ha, -, hzero, -⟩ := val64_square64_fin hre
  obtain ⟨b, hb, -, hzero', -⟩ := val64_square64_fin him
  obtain rfl := hzero rfl
  obtain rfl := hzero' rfl
  obtain ⟨k, hk, hval⟩ := val64_fl64_of_le false (num := 0 * 2 ^ binary64.unit + 0 * 2 ^ binary64.unit)
    (den := 2 ^ binary64.unit * 2 ^ binary64.unit) (c := 0) (j := 0) (by decide) (by decide) (Nat.mul_pos hunit hunit)
    (by rw [Nat.zero_mul, Nat.zero_mul, Nat.zero_mul])
  rw [binPower_eq ha hb, hval, eq_zero_of_scaled_le hk rfl]

/-- R179: a bin of finite components that are not both zero has a finite positive power. -/
theorem val64_binPower_pos {re im : F32} {s t : Bool} {k m : Nat} (hre : val32 re = .fin s k (2 ^ 149))
    (him : val32 im = .fin t m (2 ^ 149)) (hpos : 0 < k ∨ 0 < m) :
    ∃ r, 0 < r ∧ val64 (binPower re im) = .fin false r (2 ^ binary64.unit) := by
  have hunit := Nat.two_pow_pos binary64.unit
  obtain ⟨a, ha, hahi, -, halo⟩ := val64_square64_fin hre
  obtain ⟨b, hb, hbhi, -, hblo⟩ := val64_square64_fin him
  have hsum : 2 ^ binary64.unit ≤ (a + b) * 2 ^ (149 + 149) := by
    rw [Nat.add_mul]
    rcases hpos with h | h
    · exact le_trans (halo h) (Nat.le_add_right _ _)
    · exact le_trans (hblo h) (Nat.le_add_left _ _)
  have hbounds : 2 ^ binary64.unit * 2 ^ binary64.unit
        ≤ (a * 2 ^ binary64.unit + b * 2 ^ binary64.unit) * 2 ^ (149 + 149)
      ∧ a * 2 ^ binary64.unit + b * 2 ^ binary64.unit
        ≤ 2 ^ (256 + 1) * (2 ^ binary64.unit * 2 ^ binary64.unit) := by
    rw [Nat.pow_succ 2 256]
    generalize 2 ^ (149 + 149) = z at *
    generalize 2 ^ 256 = y at *
    generalize 2 ^ binary64.unit = u at *
    exact ⟨by nlinarith [Nat.mul_le_mul_right u hsum],
      by nlinarith [Nat.mul_le_mul_right u hahi, Nat.mul_le_mul_right u hbhi]⟩
  obtain ⟨hlo, hhi⟩ := hbounds
  obtain ⟨r, hr, -, hval⟩ := val64_fl64_of_between false (num := a * 2 ^ binary64.unit + b * 2 ^ binary64.unit)
    (den := 2 ^ binary64.unit * 2 ^ binary64.unit) (i := 256 + 1) (j := 149 + 149) (by decide) (by decide)
    (Nat.mul_pos hunit hunit) hlo hhi
  exact ⟨r, Nat.pos_of_mul_pos_right (lt_of_lt_of_le hunit hr), by rw [binPower_eq ha hb, hval]⟩

/-- R179: a bin of numbers, one of them infinite, has an infinite power. -/
theorem val64_binPower_inf {re im : F32} (hre : f32IsNaN re = false) (him : f32IsNaN im = false)
    (hinf : (∃ s, val32 re = .inf s) ∨ ∃ s, val32 im = .inf s) : val64 (binPower re im) = .inf false := by
  have hexact : exactAdd (val64 (square64 re)) (val64 (square64 im)) = .inf false := by
    rcases hinf with ⟨s, h⟩ | ⟨s, h⟩
    · rcases val64_square64_cases him with h' | ⟨n, h'⟩ <;> rw [val64_square64_inf h, h'] <;> rfl
    · rcases val64_square64_cases hre with h' | ⟨n, h'⟩ <;> rw [val64_square64_inf h, h'] <;> rfl
  rw [binPower, f64Add, hexact, val64_fl64_inf]

/-- R179: the power of a bin with subnormal components lies below `2^-251`. -/
theorem binPower_lt_subnormalPower {re im : F32} (hre : re.toNat % 2 ^ 31 < 2 ^ 23) (him : im.toNat % 2 ^ 31 < 2 ^ 23) :
    f64Lt (binPower re im) subnormalPower = true := by
  have hunit := Nat.two_pow_pos binary64.unit
  obtain ⟨_, k, hk, hrek⟩ := val32_of_subnormal hre
  obtain ⟨_, m, hm, himm⟩ := val32_of_subnormal him
  obtain ⟨a, hasquare, ha⟩ := val64_square64_of_le hrek hk (by decide)
  obtain ⟨b, hbsquare, hb⟩ := val64_square64_of_le himm hm (by decide)
  obtain ⟨p, hp, hbound⟩ : ∃ p, p * 2 ^ 251 = 2 ^ binary64.unit
      ∧ val64 subnormalPower = .fin false p (2 ^ binary64.unit) := ⟨2 ^ 823, by decide +kernel⟩
  have hle : (a * 2 ^ binary64.unit + b * 2 ^ binary64.unit) * 2 ^ (149 + 149)
      ≤ 2 * ((2 ^ 23 - 1) * (2 ^ 23 - 1)) * (2 ^ binary64.unit * 2 ^ binary64.unit) := by
    generalize 2 ^ (149 + 149) = z at *
    generalize 2 ^ binary64.unit = u at *
    nlinarith [Nat.mul_le_mul_right u hasquare, Nat.mul_le_mul_right u hbsquare]
  obtain ⟨r, hr, hval⟩ := val64_fl64_of_le false (num := a * 2 ^ binary64.unit + b * 2 ^ binary64.unit)
    (den := 2 ^ binary64.unit * 2 ^ binary64.unit) (c := 2 * ((2 ^ 23 - 1) * (2 ^ 23 - 1))) (j := 149 + 149)
    (by decide) (by decide) (Nat.mul_pos hunit hunit) hle
  rw [f64Lt, binPower_eq ha hb, hval, hbound, exactLt_fin_iff hunit, signedMag_false, signedMag_false]
  have hscale : 2 ^ (149 + 149) = 2 ^ 47 * 2 ^ 251 := by decide +kernel
  rw [hscale, ← hp] at hr
  rw [← hp] at hunit
  generalize 2 ^ 251 = z at *
  have hscaled : r * 2 ^ 47 < p * 2 ^ 47 := by
    have hz : 0 < z := Nat.pos_of_mul_pos_left hunit
    have hp0 : 0 < p := Nat.pos_of_mul_pos_right hunit
    have hcancel : r * 2 ^ 47 ≤ 2 * ((2 ^ 23 - 1) * (2 ^ 23 - 1)) * p :=
      Nat.le_of_mul_le_mul_right (by linarith) hz
    omega
  omega

/-! ## The magnitude -/

/-- R179: a component that is no number makes the magnitude none. -/
theorem f32IsNaN_magDb (P : Params) {re im : F32} (h : f32IsNaN re = true ∨ f32IsNaN im = true) :
    f32IsNaN (magDb P ⟨re, im⟩) = true := by
  have hcheck : (f32IsNaN re || f32IsNaN im) = true := by rwa [Bool.or_eq_true]
  simp only [magDb, hcheck, if_true]
  exact nan32_isNaN ..

/-- R179: an infinite power is an infinite magnitude. -/
theorem magDb_of_inf (P : Params) {re im : F32} (hre : f32IsNaN re = false) (him : f32IsNaN im = false)
    (hpower : val64 (binPower re im) = .inf false) : magDb P ⟨re, im⟩ = 0x7F800000#32 := by
  unfold binPower square64 at hpower
  simp only [magDb, hre, him, Bool.or_self, Bool.false_eq_true, if_false, hpower]

/-- R177, R179: a finite power gives the formula where it is positive, and minus infinity where it is zero. -/
theorem magDb_of_fin (P : Params) {re im : F32} {s : Bool} {r d : Nat} (hre : f32IsNaN re = false)
    (him : f32IsNaN im = false) (hpower : val64 (binPower re im) = .fin s r d) :
    magDb P ⟨re, im⟩ = if r = 0 then 0xFF800000#32 else f32OfF64 P (f64Mul tenF64 (log10 P (binPower re im))) := by
  unfold binPower square64 at hpower ⊢
  simp only [magDb, hre, him, Bool.or_self, Bool.false_eq_true, if_false, hpower]

/-- `-90` and `-75` in smallest units. -/
theorem val64_subnormalLog :
    val64 subnormalLog.1 = .fin true (90 * 2 ^ binary64.unit) (2 ^ binary64.unit)
      ∧ val64 subnormalLog.2 = .fin true (75 * 2 ^ binary64.unit) (2 ^ binary64.unit) := by decide +kernel

/-- R179: the logarithm of a positive power below `2^-251` lies between `-90` and `-75`. -/
theorem val64_log10_subnormal (P : Params) {p : F64} (hpos : f64Lt 0#64 p = true)
    (hsmall : f64Lt p subnormalPower = true) :
    ∃ k, 75 * 2 ^ binary64.unit ≤ k ∧ k ≤ 90 * 2 ^ binary64.unit
      ∧ val64 (log10 P p) = .fin true k (2 ^ binary64.unit) := by
  have hunit := Nat.two_pow_pos binary64.unit
  obtain ⟨hmin, hmax⟩ := val64_subnormalLog
  rcases log10_cases P p hpos with ⟨-, r, hlog⟩ | ⟨hlarge, -⟩
  · obtain ⟨hlower, hupper⟩ := f64Within_range subnormalLog.1 subnormalLog.2 r (by decide +kernel)
    have hnan := f64Within_ne_nan subnormalLog.1 subnormalLog.2 r (by simp [hmin]) (by simp [hmax])
    rw [← hlog] at hlower hupper hnan
    rw [f64Lt, hmin] at hlower
    rw [f64Lt, hmax] at hupper
    obtain ⟨s, k, hval, hlo, hhi⟩ := exact_fin_of_between hunit (val64_cases _) hnan hlower hupper
    generalize 2 ^ binary64.unit = u at *
    cases s with
    | false =>
      simp only [signedMag_false, signedMag_true] at hlo hhi
      omega
    | true =>
      simp only [signedMag_true] at hlo hhi
      exact ⟨k, by omega, by omega, hval⟩
  · rw [hsmall] at hlarge
    cases hlarge

/-- R177: ten times a logarithm between `-90` and `-75`, rounded to binary64 and to binary32, lies between `-900` and
`-750`. -/
theorem val32_decibels (P : Params) {l : F64} {k : Nat} (hlo : 75 * 2 ^ binary64.unit ≤ k)
    (hhi : k ≤ 90 * 2 ^ binary64.unit) (hval : val64 l = .fin true k (2 ^ binary64.unit)) :
    ∃ m, 750 * 2 ^ 149 ≤ m ∧ m ≤ 900 * 2 ^ 149 ∧ val32 (f32OfF64 P (f64Mul tenF64 l)) = .fin true m (2 ^ 149) := by
  have hunit := Nat.two_pow_pos binary64.unit
  have hten : val64 tenF64 = .fin false (10 * 2 ^ binary64.unit) (2 ^ binary64.unit) := by decide +kernel
  have hproduct : ∃ m, 750 * 2 ^ binary64.unit ≤ m ∧ m ≤ 900 * 2 ^ binary64.unit
      ∧ val64 (f64Mul tenF64 l) = .fin true m (2 ^ binary64.unit) := by
    have hbounds : 750 * (2 ^ binary64.unit * 2 ^ binary64.unit) ≤ 10 * 2 ^ binary64.unit * k * 1
        ∧ 10 * 2 ^ binary64.unit * k * 1 ≤ 900 * (2 ^ binary64.unit * 2 ^ binary64.unit) := by
      generalize 2 ^ binary64.unit = u at *
      exact ⟨by nlinarith [Nat.mul_le_mul_left u hlo], by nlinarith [Nat.mul_le_mul_left u hhi]⟩
    obtain ⟨hlo', hhi'⟩ := hbounds
    rw [f64Mul, hten, hval, exactMul]
    exact val64_between true (Nat.mul_pos hunit hunit) Nat.one_pos Nat.one_pos hlo' hhi' (by decide +kernel)
      (by decide +kernel) (by decide +kernel)
  obtain ⟨m, hmlo, hmhi, hm⟩ := hproduct
  rw [f32OfF64, hm]
  generalize 2 ^ binary64.unit = u at *
  exact val32_between _ true (a := 750) (b := 1) (c := 900) (d := 1) hunit Nat.one_pos Nat.one_pos (by omega) (by omega)
    (by decide +kernel) (by decide +kernel) (by decide +kernel)

/-- Settles O59. -/
theorem magDbSpecialValues : Obligations.MagDbSpecialValues := by
  unfold Obligations.MagDbSpecialValues
  intro P re im
  have hformula : ∀ {s t : Bool} {k m : Nat}, val32 re = .fin s k (2 ^ 149) → val32 im = .fin t m (2 ^ 149) →
      (f32IsZero re = false ∨ f32IsZero im = false) →
      f64IsFinite (binPower re im) = true ∧ f64Lt 0#64 (binPower re im) = true
        ∧ magDb P ⟨re, im⟩ = f32OfF64 P (f64Mul tenF64 (log10 P (binPower re im))) := by
    intro s t k m hre him hnonzero
    obtain ⟨r, hr, hpower⟩ := val64_binPower_pos hre him
      (hnonzero.imp (pos_of_isZero_eq_false hre) (pos_of_isZero_eq_false him))
    refine ⟨by simp [f64IsFinite, hpower], ?_, ?_⟩
    · rw [f64Lt, val64_zero, hpower, exactLt_fin_iff (Nat.two_pow_pos _)]
      simpa using hr
    · rw [magDb_of_fin P (f32IsNaN_of_val32 hre) (f32IsNaN_of_val32 him) hpower, if_neg hr.ne']
  refine ⟨f32IsNaN_magDb P, fun hre him hinf => ?_, fun hre him => ?_, fun p hre him hnonzero hp => ?_,
    fun hre him hnonzero => ?_⟩
  · exact magDb_of_inf P hre him
      (val64_binPower_inf hre him (hinf.imp (val32_of_infinite hre) (val32_of_infinite him)))
  · obtain ⟨s, hzero⟩ := val32_of_isZero hre
    obtain ⟨t, hzero'⟩ := val32_of_isZero him
    rw [magDb_of_fin P (f32IsNaN_of_val32 hzero) (f32IsNaN_of_val32 hzero') (val64_binPower_zero hzero hzero'),
      if_pos rfl]
  · obtain ⟨s, k, hk⟩ := val32_of_isFinite hre
    obtain ⟨t, m, hm⟩ := val32_of_isFinite him
    rw [hp]
    exact hformula hk hm hnonzero
  · obtain ⟨s, k, -, hk⟩ := val32_of_subnormal hre
    obtain ⟨t, m, -, hm⟩ := val32_of_subnormal him
    obtain ⟨-, hpos, hmag⟩ := hformula hk hm hnonzero
    obtain ⟨l, hllo, hlhi, hlog⟩ := val64_log10_subnormal P hpos (binPower_lt_subnormalPower hre him)
    obtain ⟨n, hnlo, hnhi, hval⟩ := val32_decibels P hllo hlhi hlog
    have hmin : val32 0xC4610000#32 = .fin true (900 * 2 ^ 149) (2 ^ 149) := by decide +kernel
    have hmax : val32 0xC43B8000#32 = .fin true (750 * 2 ^ 149) (2 ^ 149) := by decide +kernel
    rw [hmag, f32IsFinite, f32Lt, f32Lt, hval, hmin, hmax, exactLt_fin_eq_false_iff (Nat.two_pow_pos _),
      exactLt_fin_eq_false_iff (Nat.two_pow_pos _)]
    simp only [signedMag_true, true_and]
    omega

end Sys2Proof.Machine
end
